-- ==== Sys2Proof/Word.lean ====
section
/-! DEFINITION. The word types of BMPPX: 32-bit registers, bytes of memory, 64-bit results (00_scope.md R6, R7;
10_state.md R44). -/

namespace Sys2Proof

/-- A byte of memory (20_memory.md R65). -/
abbrev Byte := BitVec 8

/-- A 32-bit register (00_scope.md R6). -/
abbrev Word := BitVec 32

/-- A 64-bit RESULT register (10_state.md R44). -/
abbrev DWord := BitVec 64

end Sys2Proof
end

