-- ==== Sys2Proof/Syntax.lean ====
section
/-! DEFINITION. The command set of BMPPX (30_encoding.md R92): nine commands, one constructor per row of
spec/opcode_table.json. A command has no operand field (R91), so no constructor has an argument. -/

namespace Sys2Proof

/-- The nine commands of 30_encoding.md R92. -/
inductive Instr where
  /-- STRIDE, 40_stride.md R114. -/
  | stride
  /-- DEC_CHECK, 41_decode.md R131. -/
  | decCheck
  /-- DECODE, 41_decode.md R140. -/
  | decode
  /-- ENC_CHECK, 42_encode.md R161. -/
  | encCheck
  /-- ENCODE, 42_encode.md R170. -/
  | encode
  /-- ROWMAP_DEC, 41_decode.md R133. -/
  | rowmapDec
  /-- ROWMAP_ENC, 42_encode.md R163. -/
  | rowmapEnc
  /-- PIX_DEC, 41_decode.md R135. -/
  | pixDec
  /-- PIX_ENC, 42_encode.md R165. -/
  | pixEnc
deriving DecidableEq, Repr

/-- The two fields of a CMD word (30_encoding.md R90): RSV in bits 31:4, OP in bits 3:0. -/
structure CmdWord where
  rsv : BitVec 28
  op : BitVec 4
deriving DecidableEq, Repr

/-- The bits of a CMD word: RSV above OP (30_encoding.md R90). -/
def CmdWord.bits (c : CmdWord) : Word := c.rsv ++ c.op

end Sys2Proof
end

