-- ==== Sys2Proof/WellFormed.lean ====
section
/-! DEFINITION. What makes a CMD word legal (30_encoding.md R90, R92, R94). A command has no operand field (R91), so
every command of Instr is well formed; what can be ill formed is a word. -/

namespace Sys2Proof

/-- Bits 31:4 must be zero (30_encoding.md R90). -/
def CmdWord.rsvIsZero (c : CmdWord) : Bool := c.rsv == 0#28

/-- OP names a command: 0x1 to 0x9 (30_encoding.md R92). -/
def CmdWord.opIsDefined (c : CmdWord) : Bool := decide (1 ≤ c.op.toNat ∧ c.op.toNat ≤ 9)

/-- A word is legal when both checks hold (30_encoding.md R94). -/
def CmdWord.wellFormed (c : CmdWord) : Bool := c.rsvIsZero && c.opIsDefined

/-- A command carries no field (30_encoding.md R91): each one is well formed. -/
def Instr.wellFormed : Instr → Bool
  | .stride | .decCheck | .decode | .encCheck | .encode | .rowmapDec | .rowmapEnc | .pixDec | .pixEnc => true

end Sys2Proof
end

