-- ==== Sys2Proof/Decode.lean ====
section
/-! DEFINITION. The decoder of a CMD word (30_encoding.md R93), total on every 32-bit word and rejecting by name, and the
encoder (R92). A command is one 32-bit register write: no byte order applies to it (20_memory.md R63). -/

namespace Sys2Proof

/-- Why a word is no command (30_encoding.md R94). -/
inductive IllegalWord where
  /-- One of bits 31:4 is set. -/
  | reservedBits
  /-- OP is 0x0 or 0xA to 0xF. -/
  | reservedOp
deriving DecidableEq, Repr

/-- What the decoder reads from a word. -/
inductive Decoded where
  | instr (i : Instr)
  | illegal (why : IllegalWord)
deriving DecidableEq, Repr

/-- The command, where the word is one. -/
def Decoded.toOption : Decoded → Option Instr
  | .instr i => some i
  | .illegal _ => none

/-- The fields of a word (30_encoding.md R90). -/
def cmdFields (c : Word) : CmdWord := { rsv := c.extractLsb' 4 28, op := c.extractLsb' 0 4 }

/-- The operation OP selects (30_encoding.md R92). -/
def decodeOp (op : BitVec 4) : Decoded :=
  match op.toNat with
  | 0x1 => .instr .stride
  | 0x2 => .instr .decCheck
  | 0x3 => .instr .decode
  | 0x4 => .instr .encCheck
  | 0x5 => .instr .encode
  | 0x6 => .instr .rowmapDec
  | 0x7 => .instr .rowmapEnc
  | 0x8 => .instr .pixDec
  | 0x9 => .instr .pixEnc
  | _ => .illegal .reservedOp

/-- Decoding of a CMD word: bits 31:4 first, then OP (30_encoding.md R93). -/
def decode (c : Word) : Decoded :=
  if (cmdFields c).rsv ≠ 0#28 then .illegal .reservedBits else decodeOp (cmdFields c).op

/-- OP of each command (30_encoding.md R92). -/
def opcode : Instr → BitVec 4
  | .stride => 0x1#4
  | .decCheck => 0x2#4
  | .decode => 0x3#4
  | .encCheck => 0x4#4
  | .encode => 0x5#4
  | .rowmapDec => 0x6#4
  | .rowmapEnc => 0x7#4
  | .pixDec => 0x8#4
  | .pixEnc => 0x9#4

/-- The CMD word of a command: OP with bits 31:4 zero (30_encoding.md R90, R92). -/
def encode (i : Instr) : Word := CmdWord.bits { rsv := 0#28, op := opcode i }

/-- The command the decoder reads from an instruction of `nbits` bits whose bits are `w`, numbered as
spec/opcode_table.json numbers them; bits above `nbits` are 0, and no command is longer than its one 32-bit word. -/
def decodeTableWord (nbits w : Nat) : Option Instr :=
  if w % 2 ^ nbits < 2 ^ 32 then (decode (BitVec.ofNat 32 (w % 2 ^ nbits))).toOption else none

end Sys2Proof
end

