-- ==== Sys2Proof/Config.lean ====
section
/-! DEFINITION. What is fixed for BMPPX, and the free values of the model.
The OPEN parameters of 00_scope.md R6 that a model takes as an argument are plain data (Machine/State.lean, Platform). -/

namespace Sys2Proof.Config

/-- The ID register, hardwired (10_state.md R24). -/
def idValue : Word := 0x424D0001#32

/-- The size of the register window in bytes (10_state.md R23). -/
def registerWindowSize : Nat := 0x80

/-- One past the last byte address of the bus-master space, ADDR_W = 32 (00_scope.md R6, 20_memory.md R60). -/
def addressSpace : Nat := 2 ^ 32

/-- The file header and DIB header together (20_memory.md R68): pixel data of an encoded file starts here. -/
def headerBytes : Nat := 54

/-- What a byte of memory that nothing has written reads as.
DESIGN CHOICE (log 1), unsafe: the spec gives memory no contents at power-on. -/
def blankByte : Byte := 0#8

/-- FREE VALUE (log 8): whether a destination byte holds the value the command would have written, rather than its old
value, after a BusError (20_memory.md R78, U4) or after a reset during a frame command (70_reset_and_hazards.md R221, U7).
Arguments: the model's counter and the byte's address. -/
opaque freeByteWritten : Nat → Nat → Bool

/-- FREE VALUE (log 9): whether the block reads a source byte it does not use, a row padding byte or an alpha byte of
ENCODE (20_memory.md R61, U10). Arguments: the model's counter and the byte's address. -/
opaque freeOptionalRead : Nat → Nat → Bool

/-- FREE VALUE (log 21): the value of a destination byte that a frame command abandoned by a reset has written, where one of
its windows lies on memory that is not ordinary: such a window has no defined result (70_reset_and_hazards.md R221, R232, U3).
Arguments: the model's counter and the byte's address. -/
opaque freeAbandonedByte : Nat → Nat → Byte

end Sys2Proof.Config
end

