-- ==== Sys2Proof/Machine/State.lean ====
section
/-! DEFINITION. The state of BMPPX (10_state.md R20, R23, R45; 20_memory.md R60) as plain data, the reasons a step can
stop, and the state after reset (70_reset_and_hazards.md R220). -/

namespace Sys2Proof.Machine

/-- Why the machine stops with a fault. -/
inductive Fault where
  /-- An agent writes the source window of a running frame command, or reads or writes its destination window
  (70_reset_and_hazards.md R231, U2: "fault").
  Raised by the memory events of HostPort.lean. Safe: the spec leaves the bytes any value. -/
  | windowExclusion (addr : Nat)
  /-- An agent accesses memory at an address of 2^32 or above, which does not exist (20_memory.md R60).
  Raised by the memory events of HostPort.lean. Safe. -/
  | addressOutsideSpace (addr : Nat)
deriving DecidableEq, Repr

/-- Why the model gives no meaning. -/
inductive Refusal where
  /-- An instruction with no meaning in exec. No arm answers it. Safe. -/
  | notModelled (mnemonic : String)
  /-- A register access that is not an aligned 32-bit access inside the 0x80-byte window (10_state.md R48, U1: "refuse").
  Raised by the register events of HostPort.lean. Safe. -/
  | registerAccessForm
  /-- A frame command whose source or destination window lies on memory that is not ordinary (20_memory.md R61,
  70_reset_and_hazards.md R232, U3: "refuse").
  Raised by DECODE and ENCODE once every check of theirs has passed. Safe. -/
  | windowNotOrdinaryMemory
  /-- An agent's own memory access to a device region, whose behaviour the spec does not give.
  Raised by the memory events of HostPort.lean. Safe. -/
  | deviceAccess (addr : Nat)
  /-- exec was called with no command in progress: the completion step exists only while BUSY = 1 (10_state.md R46).
  Raised by no step. Safe. -/
  | noCommandInProgress
deriving DecidableEq, Repr

/-- The errors of 60_exceptions.md R191, code 0x01 and up. -/
inductive CmdError where
  | tooSmall
  | badMagic
  | unsupportedHeader
  | unsupportedCompression
  | unsupportedBitDepth
  | truncatedData
  | bufferTooSmall
  | notSupported
  | allocationFailure
  | badDimension
  | sizeOverflow
  | dstTooSmall
  | addressRange
  | overlap
  | rowRange
  | badCommand
  | busError
deriving DecidableEq, Repr

/-- The ten configuration registers, the operands of every command (10_state.md R21, R33 to R42). -/
structure OperandRegs where
  width : Word
  height : Word
  bpp : Word
  dataOffset : Word
  srcBase : Word
  srcLen : Word
  dstBase : Word
  dstLen : Word
  rowIndex : Word
  pixIn : Word
deriving DecidableEq, Repr

/-- The working copy latched when a command is accepted (10_state.md R45). -/
structure WorkingCopy where
  cmd : Word
  ops : OperandRegs
deriving DecidableEq, Repr

/-- The phase; only phase BUSY has a working copy (10_state.md R45, R51). STATUS.BUSY is its view (R27). -/
inductive Phase where
  | idle
  | busy (w : WorkingCopy)
deriving DecidableEq, Repr

/-- The kind of a block access to memory (BUS_ADMITS(addr, kind), 00_scope.md R6). -/
inductive AccessKind where
  | read
  | write
deriving DecidableEq, Repr

/-- The addresses `lo ≤ a < hi` (a window, 00_scope.md R10). -/
structure Window where
  lo : Nat
  hi : Nat
deriving DecidableEq, Repr

/-- Accesses of one kind that the platform bus does not complete (20_memory.md R78). -/
structure RefusedAccess where
  kind : AccessKind
  range : Window
deriving DecidableEq, Repr

/-- The parameters 00_scope.md R6 leaves OPEN, as plain data that no step changes. -/
structure Platform where
  /-- BLOCK_BASE: the address of the register window in the host's address space. -/
  blockBase : Nat
  /-- BUS_ADMITS: every block access is admitted but those listed here. -/
  refused : List RefusedAccess
  /-- DMA_COHERENT: whether block accesses are coherent with the host's caches. -/
  dmaCoherent : Bool
  /-- The regions of the bus-master space that are not ordinary memory (20_memory.md R61). -/
  devices : List Window
deriving DecidableEq, Repr

/-- Bytes by address, addresses strictly rising, no byte equal to what an unlisted address reads as. -/
abbrev Memory := List Host.Cell

/-- A byte the host's cache holds; `dirty` until a clean writes it to memory (20_memory.md R77). -/
structure CachedByte where
  byte : Byte
  dirty : Bool
deriving DecidableEq, Repr

/-- The host's cached bytes by address, addresses strictly rising. -/
abbrev HostCache := List (Nat × CachedByte)

/-- Who makes a memory access: the host, through its caches, or another bus master, another BMPPX instance among them
(60_exceptions.md R208). -/
inductive Agent where
  | host
  | otherMaster
deriving DecidableEq, Repr

/-- The width of a host access to the register window (10_state.md R48). -/
inductive AccessSize where
  | byte
  | half
  | word
deriving DecidableEq, Repr

/-- One event of the sequence that orders everything that happens (60_exceptions.md R194). -/
inductive Event where
  /-- The block sequencer's turn: a command in progress completes (10_state.md R46). -/
  | blockStep
  /-- The host reads the register window (30_encoding.md R97 `rd`). -/
  | regRead (addr : Nat) (size : AccessSize)
  /-- The host writes the register window (30_encoding.md R97 `wr`, `cmd`, `clr`). -/
  | regWrite (addr : Nat) (size : AccessSize) (value : Word)
  /-- An agent reads a byte of memory. -/
  | memRead (agent : Agent) (addr : Nat)
  /-- An agent writes bytes at `addr`, `addr + 1`, ... (30_encoding.md R97 `mem`). -/
  | memWrite (agent : Agent) (addr : Nat) (bytes : List Byte)
  /-- The host writes its dirty cached bytes of the window to memory (20_memory.md R77). -/
  | cacheClean (w : Window)
  /-- The host drops its cached bytes of the window (20_memory.md R77). -/
  | cacheInvalidate (w : Window)
  /-- The reset input is asserted (70_reset_and_hazards.md R220). -/
  | reset
deriving DecidableEq, Repr

/-- The state of BMPPX and of what it shares with its platform. -/
structure State where
  /-- WIDTH to PIX_IN (10_state.md R33 to R42). -/
  ops : OperandRegs
  /-- CTRL.IE (10_state.md R32). -/
  ie : Bool
  /-- STATUS.DONE (10_state.md R28). -/
  done : Bool
  /-- STATUS.ERR (10_state.md R29). -/
  err : Bool
  /-- STATUS.OVR (10_state.md R30). -/
  ovr : Bool
  /-- STATUS.ERRCODE (10_state.md R31); `none` is 0x00, None: the command succeeded (60_exceptions.md R191). -/
  errcode : Option CmdError
  /-- PIX_OUT (10_state.md R43). -/
  pixOut : Word
  /-- RESULT0 (10_state.md R44). -/
  result0 : DWord
  /-- RESULT1 (10_state.md R44). -/
  result1 : DWord
  /-- RESULT2 (10_state.md R44). -/
  result2 : DWord
  /-- The phase and, while BUSY, the working copy (10_state.md R45). -/
  phase : Phase
  /-- The memory of the bus-master space (20_memory.md R60). -/
  mem : Memory
  /-- The host's cached bytes where the platform is not coherent (20_memory.md R77). -/
  hostCache : HostCache
  /-- The OPEN parameters (00_scope.md R6). -/
  platform : Platform
  /-- The model's own: the events to come, oldest first (60_exceptions.md R194). -/
  schedule : List Event
  /-- The model's own: the value the last scheduled read returned. -/
  lastRead : Option Word
  /-- The model's own: what the free values of Config are applied to. -/
  freeCount : Nat
deriving DecidableEq, Repr

/-- Every configuration register at its reset value (10_state.md R23). -/
def OperandRegs.reset : OperandRegs :=
  { width := 0#32, height := 0#32, bpp := 0#32, dataOffset := 0#32, srcBase := 0#32, srcLen := 0#32,
    dstBase := 0#32, dstLen := 0#32, rowIndex := 0#32, pixIn := 0#32 }

/-- The platform State.reset stands on.
DESIGN CHOICE (logs 4, 5, 6, 7), unsafe: the spec leaves these parameters OPEN. -/
def Platform.reset : Platform := { blockBase := 0, refused := [], dmaCoherent := true, devices := [] }

/-- The machine right after reset (70_reset_and_hazards.md R220), nothing scheduled. -/
def State.reset : State :=
  { ops := OperandRegs.reset
    ie := false, done := false, err := false, ovr := false, errcode := none
    pixOut := 0#32, result0 := 0#64, result1 := 0#64, result2 := 0#64
    phase := .idle
    mem := [], hostCache := []
    platform := Platform.reset
    schedule := [], lastRead := none, freeCount := 0 }

/-- The outcome of a step of this machine. -/
abbrev StepResult := Host.Outcome State Fault Refusal

end Sys2Proof.Machine
end

