-- ==== Sys2Proof/Machine/Ops.lean ====
section
/-! DEFINITION. The named operations the meanings share: bytes of words, memory, the host's cache, windows, and the life of
a command: acceptance (10_state.md R45), completion with success (60_exceptions.md R195), completion with an error (R196,
the block's one exception entry) and the clearing of the status bits (10_state.md R26, R198 of 60_exceptions.md). -/

namespace Sys2Proof.Machine

/-! Words and bytes -/

/-- Byte `k` of a word (00_scope.md R7). -/
def byteOf (w : Word) (k : Nat) : Byte := w.extractLsb' (8 * k) 8

/-- The word whose bytes 0 to 3 are `b0` to `b3` (00_scope.md R7). -/
def packBytes (b0 b1 b2 b3 : Byte) : Word := b3 ++ b2 ++ b1 ++ b0

/-- `lo32` of a result (00_scope.md R8). -/
def lo32 (v : DWord) : Word := v.extractLsb' 0 32

/-- `hi32` of a result (00_scope.md R8). -/
def hi32 (v : DWord) : Word := v.extractLsb' 32 32

/-- The least `q` with `q * b ≥ a`, for `b > 0` (00_scope.md R8). -/
def ceilDivNat (a b : Nat) : Nat := (a + (b - 1)) / b

/-! Windows (00_scope.md R10) -/

/-- Whether an address lies in a window. -/
def Window.has (w : Window) (a : Nat) : Bool := decide (w.lo ≤ a ∧ a < w.hi)

/-- Two windows intersect: both are non-empty and each starts before the other ends (00_scope.md R10). -/
def Window.meets (v w : Window) : Bool := decide (v.lo < v.hi ∧ w.lo < w.hi ∧ v.lo < w.hi ∧ w.lo < v.hi)

/-- The addresses of a window in increasing order. -/
def Window.addrs (w : Window) : List Nat := List.range' w.lo (w.hi - w.lo)

/-! Memory -/

/-- The canonical form of memory: addresses strictly rising and inside the address space, no byte listed that equals what an
unlisted address reads as. -/
abbrev Memory.wf (m : Memory) : Prop :=
  m.Pairwise (fun x y => x.1 < y.1) ∧ ∀ c ∈ m, c.2 ≠ Config.blankByte ∧ c.1 < Config.addressSpace

/-- `Mem[addr]` (00_scope.md R9). -/
def memRead : Memory → Nat → Byte
  | [], _ => Config.blankByte
  | c :: m, a => if c.1 = a then c.2 else memRead m a

/-- The list with the byte `b` at `a`, in canonical form. -/
def consByte (a : Nat) (b : Byte) (m : Memory) : Memory := if b = Config.blankByte then m else (a, b) :: m

/-- `Mem[addr] <- b` (00_scope.md R9). -/
def memWrite : Memory → Nat → Byte → Memory
  | [], a, b => consByte a b []
  | c :: m, a, b =>
    if a < c.1 then consByte a b (c :: m)
    else if a = c.1 then consByte a b m
    else c :: memWrite m a b

/-- `MemRead(addr, n)`: `n` bytes in increasing address order (00_scope.md R9). -/
def readBytes (m : Memory) (a : Nat) : Nat → List Byte
  | 0 => []
  | n + 1 => memRead m a :: readBytes m (a + 1) n

/-- The cells of `MemWrite(addr, n, bytes)`: the first byte at the lowest address (00_scope.md R9). -/
def cellsAt (a : Nat) : List Byte → List Host.Cell
  | [] => []
  | b :: bs => (a, b) :: cellsAt (a + 1) bs

/-- Each cell written in turn. -/
def writeCells (m : Memory) (cs : List Host.Cell) : Memory := cs.foldl (fun m c => memWrite m c.1 c.2) m

/-! The host's cache (20_memory.md R77; log 6) -/

/-- The canonical form of the cache. -/
abbrev HostCache.wf (h : HostCache) : Prop :=
  h.Pairwise (fun x y => x.1 < y.1) ∧ ∀ c ∈ h, c.1 < Config.addressSpace

/-- The cached byte at an address. -/
def cacheFind : HostCache → Nat → Option CachedByte
  | [], _ => none
  | c :: h, a => if c.1 = a then some c.2 else cacheFind h a

/-- The cache with a byte put in at an address. -/
def cachePut : HostCache → Nat → CachedByte → HostCache
  | [], a, b => [(a, b)]
  | c :: h, a, b =>
    if a < c.1 then (a, b) :: c :: h
    else if a = c.1 then (a, b) :: h
    else c :: cachePut h a b

/-- Each cell put in as a dirty byte, in turn. -/
def cachePutDirty (h : HostCache) (cs : List Host.Cell) : HostCache :=
  cs.foldl (fun h c => cachePut h c.1 { byte := c.2, dirty := true }) h

/-- The dirty bytes of a window, which a clean writes to memory. -/
def dirtyCells (h : HostCache) (w : Window) : List Host.Cell :=
  (h.filter (fun c => w.has c.1 && c.2.dirty)).map (fun c => (c.1, c.2.byte))

/-- The cache after a clean: the window's bytes stay, no longer dirty. -/
def markClean (h : HostCache) (w : Window) : HostCache :=
  h.map (fun c => if w.has c.1 then (c.1, { c.2 with dirty := false }) else c)

/-- The cache after an invalidate: the window's bytes are gone. -/
def dropCached (h : HostCache) (w : Window) : HostCache := h.filter (fun c => !w.has c.1)

/-! The life of a command -/

/-- What a command writes at its successful completion, besides memory (10_state.md R43, R44). -/
inductive CmdResult where
  /-- RESULT0, RESULT1 and RESULT2. -/
  | results (r0 r1 r2 : Nat)
  /-- PIX_OUT. -/
  | pixel (p : Word)
deriving DecidableEq, Repr

/-- The result registers after a success (10_state.md R43, R44). Every value is below 2^64 (40_stride.md R113). -/
def writeResult (s : State) : CmdResult → State
  | .results r0 r1 r2 =>
    { s with result0 := BitVec.ofNat 64 r0, result1 := BitVec.ofNat 64 r1, result2 := BitVec.ofNat 64 r2 }
  | .pixel p => { s with pixOut := p }

/-- The working copy a CMD write of `c` latches (10_state.md R45). -/
def latch (s : State) (c : Word) : WorkingCopy := { cmd := c, ops := s.ops }

/-- A command starts: the working copy is latched, DONE and ERR are cleared, BUSY is 1 (10_state.md R45). -/
def startCommand (s : State) (c : Word) : State :=
  { s with done := false, err := false, phase := .busy (latch s c) }

/-- A host write of `c` to CMD: accepted when IDLE, dropped with OVR set when BUSY (10_state.md R45). -/
def acceptCommand (s : State) (c : Word) : State :=
  match s.phase with
  | .busy _ => { s with ovr := true }
  | .idle => startCommand s c

/-- Successful completion (60_exceptions.md R195). -/
def completeOk (s : State) (r : CmdResult) : State :=
  { writeResult s r with errcode := none, done := true, phase := .idle }

/-- Error completion, the one exception entry of the block: ERRCODE and ERR are written, the command ends, nothing else
changes (60_exceptions.md R196, R197). -/
def completeError (s : State) (e : CmdError) : State :=
  { s with errcode := some e, err := true, phase := .idle }

/-- A host write of `v` to STATUS clears DONE, ERR and OVR where `v` has a 1; this is all there is of a return from an error
(10_state.md R26, 60_exceptions.md R198). -/
def writeStatus (s : State) (v : Word) : State :=
  { s with done := s.done && !v.getLsbD 1, err := s.err && !v.getLsbD 2, ovr := s.ovr && !v.getLsbD 3 }

/-- The completion of a command that touches no memory. -/
def finish (s : State) : Except CmdError CmdResult → StepResult
  | .ok r => .next (completeOk s r)
  | .error e => .next (completeError s e)

/-- The command in progress runs against its working copy (10_state.md R46).
Outside phase BUSY there is no completion step (log 11). -/
def withCommand (s : State) (run : WorkingCopy → StepResult) : StepResult :=
  match s.phase with
  | .busy w => run w
  | .idle => .refused .noCommandInProgress

end Sys2Proof.Machine
end

