-- ==== Sys2Proof/Machine/Operands.lean ====
section
/-! DEFINITION. What a command reads from its working copy, with the checks and the geometry the commands share
(40_stride.md R110 to R113, 41_decode.md R130, R132, 42_encode.md R160, R162). All arithmetic is exact (00_scope.md R8). -/

namespace Sys2Proof.Machine

/-- `u32` of a register (00_scope.md R8). -/
def u32 (w : Word) : Nat := w.toNat

/-- `s32` of a register (00_scope.md R8). -/
def s32 (w : Word) : Int := w.toInt

/-- `stride(W, N)` (40_stride.md R110). -/
def stride (w n : Nat) : Nat := ceilDivNat (w * n) 4 * 4

/-- `pad(W, N)` (40_stride.md R111). -/
def pad (w n : Nat) : Nat := stride w n - w * n

/-- CheckDepth: BPP is 24 or 32 as a whole 32-bit value, and N is BPP / 8 (40_stride.md R112). -/
def checkDepth (o : OperandRegs) : Except CmdError Nat :=
  if u32 o.bpp ≠ 24 ∧ u32 o.bpp ≠ 32 then .error .unsupportedBitDepth else .ok (u32 o.bpp / 8)

/-- CheckWidth: the signed width is at least 1 (40_stride.md R113). -/
def checkWidth (o : OperandRegs) : Except CmdError Nat :=
  if s32 o.width < 1 then .error .badDimension else .ok (s32 o.width).toNat

/-- What DecodeGeometry computes (41_decode.md R130). -/
structure DecodeGeometry where
  bytesPerPixel : Nat
  width : Nat
  absHeight : Nat
  topDown : Bool
  stride : Nat
  dataOffset : Nat
  extent : Nat
  outLen : Nat
deriving DecidableEq, Repr

/-- DecodeGeometry: the depth check, the width check, the height check (0 and -2^31 are refused), then the sizes
(41_decode.md R130). -/
def decodeGeometry (o : OperandRegs) : Except CmdError DecodeGeometry := do
  let n ← checkDepth o
  let w ← checkWidth o
  if s32 o.height = 0 ∨ s32 o.height = -2147483648 then .error .badDimension
  else
    let absH := (s32 o.height).natAbs
    .ok { bytesPerPixel := n
          width := w
          absHeight := absH
          topDown := decide (s32 o.height < 0)
          stride := stride w n
          dataOffset := u32 o.dataOffset
          extent := u32 o.dataOffset + stride w n * absH
          outLen := w * absH * 4 }

/-- `srcRow(y)`: the file row an output row comes from (41_decode.md R132). -/
def srcRow (topDown : Bool) (absH y : Nat) : Nat := if topDown then y else absH - 1 - y

/-- What EncodeGeometry computes (42_encode.md R160). -/
structure EncodeGeometry where
  width : Nat
  height : Nat
  stride : Nat
  inLen : Nat
  pixelDataSize : Nat
  fileSize : Nat
deriving DecidableEq, Repr

/-- EncodeGeometry: the width check, the height check, then the sizes for 3 bytes per pixel (42_encode.md R160). -/
def encodeGeometry (o : OperandRegs) : Except CmdError EncodeGeometry := do
  let w ← checkWidth o
  if s32 o.height < 1 then .error .badDimension
  else
    let h := (s32 o.height).toNat
    .ok { width := w
          height := h
          stride := stride w 3
          inLen := w * h * 4
          pixelDataSize := stride w 3 * h
          fileSize := Config.headerBytes + stride w 3 * h }

/-- `dstRow(y)`: the file row a source row goes to (42_encode.md R162). -/
def dstRow (h y : Nat) : Nat := h - 1 - y

/-- The pixel coordinates of an image, row by row: `for y in [0, h)`, `for x in [0, w)` (41_decode.md R140). -/
def rowMajor (w h : Nat) : List (Nat × Nat) :=
  (List.range h).flatMap fun y => (List.range w).map fun x => (y, x)

end Sys2Proof.Machine
end

