-- ==== Sys2Proof/Machine/Transfer.lean ====
section
/-! DEFINITION. The transfer of a frame command, DECODE or ENCODE, once its checks have passed: its windows, the source bytes
it uses, the destination bytes it writes, and how the platform bus can end it (20_memory.md R61, R71 to R73, R78). -/

namespace Sys2Proof.Machine

/-- A frame command that has passed its checks. The writes are computed from the memory before the transfer: the source and
destination windows do not intersect, so no order of the accesses gives other values (20_memory.md R71). -/
structure Frame where
  /-- The source window (41_decode.md R140, 42_encode.md R170). -/
  src : Window
  /-- The destination window. -/
  dst : Window
  /-- The addresses of the source bytes whose values are used. -/
  uses : List Nat
  /-- The destination bytes with the values written. -/
  writes : List Host.Cell
  /-- RESULT0..2 at success. -/
  result : CmdResult
deriving DecidableEq, Repr

/-- `BUS_ADMITS(addr, kind)` (00_scope.md R6, 20_memory.md R78). -/
def Platform.admits (p : Platform) (a : Nat) (k : AccessKind) : Bool :=
  !p.refused.any (fun r => r.kind == k && r.range.has a)

/-- Whether an address lies in a region that is not ordinary memory. -/
def Platform.isDevice (p : Platform) (a : Nat) : Bool := p.devices.any (fun d => d.has a)

/-- Whether a window of the frame lies on memory that is not ordinary (20_memory.md R61, 70_reset_and_hazards.md R232). -/
def Frame.onDevice (f : Frame) (p : Platform) : Bool := p.devices.any (fun d => d.meets f.src || d.meets f.dst)

/-- Whether the bus refuses an access the block makes: a read of a used source byte, a read of another byte of the source
window where the block makes one (a free value: 20_memory.md R61, U10), or a write of a destination byte (R78). -/
def Frame.busFails (f : Frame) (p : Platform) (n : Nat) : Bool :=
  f.src.addrs.any (fun a => !p.admits a .read && (f.uses.contains a || Config.freeOptionalRead n a))
    || f.writes.any (fun c => !p.admits c.1 .write)

/-- The destination bytes that hold the written value when the command does not finish: any of them (U4, U7). -/
def Frame.partialWrites (f : Frame) (n : Nat) : List Host.Cell :=
  f.writes.filter (fun c => Config.freeByteWritten n c.1)

/-- Memory after all the command's writes. -/
def transferAll (s : State) (f : Frame) : State :=
  { s with mem := writeCells s.mem f.writes, freeCount := s.freeCount + 1 }

/-- Memory after a command that a BusError ended (20_memory.md R78). -/
def transferPart (s : State) (f : Frame) : State :=
  { s with mem := writeCells s.mem (f.partialWrites s.freeCount), freeCount := s.freeCount + 1 }

/-- The destination bytes that a command abandoned by a reset has written: any of them (70_reset_and_hazards.md R221, U7).
Their values are those of the command, free values where a window is not on ordinary memory (R232; log 21). -/
def Frame.abandonedWrites (f : Frame) (p : Platform) (n : Nat) : List Host.Cell :=
  if f.onDevice p then (f.partialWrites n).map (fun c => (c.1, Config.freeAbandonedByte n c.1)) else f.partialWrites n

/-- Memory after a command that a reset abandoned (70_reset_and_hazards.md R221). -/
def abandonTransfer (s : State) (f : Frame) : State :=
  { s with mem := writeCells s.mem (f.abandonedWrites s.platform s.freeCount), freeCount := s.freeCount + 1 }

/-- The transfer and completion of a frame command that has passed its checks (41_decode.md R140, 42_encode.md R170). A window
that is not on ordinary memory has no defined result, and the model has no transition for its completion
(70_reset_and_hazards.md R232, 93_implementation_defined.md U3 "refuse"). -/
def runFrame (s : State) (f : Frame) : StepResult :=
  if f.onDevice s.platform then .refused .windowNotOrdinaryMemory
  else if f.busFails s.platform s.freeCount then .next (completeError (transferPart s f) .busError)
  else .next (completeOk (transferAll s f) f.result)

/-- The completion of a frame command: a failed check ends it before any memory access (60_exceptions.md R196). -/
def finishFrame (s : State) : Except CmdError Frame → StepResult
  | .ok f => runFrame s f
  | .error e => .next (completeError s e)

end Sys2Proof.Machine
end

