-- ==== Sys2Proof/Machine/DecodeDirection.lean ====
section
/-! DEFINITION. The decode direction: DEC_CHECK, ROWMAP_DEC, PIX_DEC and DECODE (41_decode.md). -/

namespace Sys2Proof.Machine

/-- `decPix(N, b)`: B,G,R[,A] becomes R,G,B,A, alpha 255 where the source has none (41_decode.md R134). -/
def decPix (n : Nat) (b : List Byte) : List Byte :=
  [b.getD 2 0#8, b.getD 1 0#8, b.getD 0 0#8, if n = 4 then b.getD 3 0#8 else 255#8]

/-- DecodeGeometry and the truncation check, which DEC_CHECK and DECODE share (41_decode.md R131, R140). -/
def decodeChecked (o : OperandRegs) : Except CmdError DecodeGeometry := do
  let g ← decodeGeometry o
  if g.extent > u32 o.srcLen then .error .truncatedData else .ok g

/-- RESULT0..2 of DEC_CHECK and DECODE (41_decode.md R131). -/
def decodeResult (g : DecodeGeometry) : CmdResult := .results g.stride g.extent g.outLen

/-- DEC_CHECK validates and reports the sizes (41_decode.md R131). -/
def decCheckCommand (o : OperandRegs) : Except CmdError CmdResult := do
  let g ← decodeChecked o
  .ok (decodeResult g)

/-- ROWMAP_DEC reports where an output row comes from (41_decode.md R133). -/
def rowmapDecCommand (o : OperandRegs) : Except CmdError CmdResult := do
  let g ← decodeGeometry o
  let y := u32 o.rowIndex
  if y ≥ g.absHeight then .error .rowRange
  else
    let sy := srcRow g.topDown g.absHeight y
    .ok (.results sy (g.dataOffset + sy * g.stride) (y * g.width * 4))

/-- PIX_DEC reorders one packed pixel (41_decode.md R135). -/
def pixDecCommand (o : OperandRegs) : Except CmdError CmdResult := do
  let n ← checkDepth o
  let p := o.pixIn
  let q := decPix n ([byteOf p 0, byteOf p 1, byteOf p 2, byteOf p 3].take n)
  .ok (.pixel (packBytes (q.getD 0 0#8) (q.getD 1 0#8) (q.getD 2 0#8) (q.getD 3 0#8)))

/-- The source window of a decode: the pixel array with its padding (41_decode.md R140). -/
def decodeSrc (o : OperandRegs) (g : DecodeGeometry) : Window :=
  { lo := u32 o.srcBase + g.dataOffset, hi := u32 o.srcBase + g.extent }

/-- The destination window of a decode (41_decode.md R140). -/
def decodeDst (o : OperandRegs) (g : DecodeGeometry) : Window :=
  { lo := u32 o.dstBase, hi := u32 o.dstBase + g.outLen }

/-- The source address `a` of output pixel `(y, x)` (41_decode.md R140). -/
def decodeFrom (o : OperandRegs) (g : DecodeGeometry) (y x : Nat) : Nat :=
  u32 o.srcBase + g.dataOffset + srcRow g.topDown g.absHeight y * g.stride + x * g.bytesPerPixel

/-- The destination address `d` of output pixel `(y, x)` (41_decode.md R140). -/
def decodeTo (o : OperandRegs) (g : DecodeGeometry) (y x : Nat) : Nat := u32 o.dstBase + (y * g.width + x) * 4

/-- The source addresses DECODE uses: N bytes of every pixel (41_decode.md R140). -/
def decodeUses (o : OperandRegs) (g : DecodeGeometry) : List Nat :=
  (rowMajor g.width g.absHeight).flatMap fun p => List.range' (decodeFrom o g p.1 p.2) g.bytesPerPixel

/-- The destination bytes DECODE writes: the loop of 41_decode.md R140. -/
def decodeWrites (o : OperandRegs) (g : DecodeGeometry) (m : Memory) : List Host.Cell :=
  (rowMajor g.width g.absHeight).flatMap fun p =>
    cellsAt (decodeTo o g p.1 p.2)
      (decPix g.bytesPerPixel (readBytes m (decodeFrom o g p.1 p.2) g.bytesPerPixel))

/-- The checks of DECODE, then its transfer (41_decode.md R140). -/
def decodeFrame (o : OperandRegs) (m : Memory) : Except CmdError Frame := do
  let g ← decodeChecked o
  if g.outLen > u32 o.dstLen then .error .dstTooSmall
  else if u32 o.srcBase + g.extent > Config.addressSpace ∨ u32 o.dstBase + g.outLen > Config.addressSpace then
    .error .addressRange
  else if (decodeSrc o g).meets (decodeDst o g) then .error .overlap
  else
    .ok { src := decodeSrc o g
          dst := decodeDst o g
          uses := decodeUses o g
          writes := decodeWrites o g m
          result := decodeResult g }

/-- DEC_CHECK, CMD word 0x0000_0002 (41_decode.md R131). -/
def execDecCheck (s : State) : StepResult := withCommand s fun w => finish s (decCheckCommand w.ops)

/-- ROWMAP_DEC, CMD word 0x0000_0006 (41_decode.md R133). -/
def execRowmapDec (s : State) : StepResult := withCommand s fun w => finish s (rowmapDecCommand w.ops)

/-- PIX_DEC, CMD word 0x0000_0008 (41_decode.md R135). -/
def execPixDec (s : State) : StepResult := withCommand s fun w => finish s (pixDecCommand w.ops)

/-- DECODE, CMD word 0x0000_0003 (41_decode.md R140). -/
def execDecode (s : State) : StepResult := withCommand s fun w => finishFrame s (decodeFrame w.ops s.mem)

end Sys2Proof.Machine
end

