-- ==== Sys2Proof/Machine/EncodeDirection.lean ====
section
/-! DEFINITION. The encode direction: ENC_CHECK, ROWMAP_ENC, PIX_ENC and ENCODE (42_encode.md). Encode commands read neither
BPP nor DATA_OFFSET (R96 of 30_encoding.md). -/

namespace Sys2Proof.Machine

/-- `encPix([R, G, B, A])`: B,G,R, alpha discarded (42_encode.md R164). -/
def encPix (b : List Byte) : List Byte := [b.getD 2 0#8, b.getD 1 0#8, b.getD 0 0#8]

/-- EncodeGeometry and the two size checks, which ENC_CHECK and ENCODE share (42_encode.md R161, R170). -/
def encodeChecked (o : OperandRegs) : Except CmdError EncodeGeometry := do
  let g ← encodeGeometry o
  if u32 o.srcLen < g.inLen then .error .bufferTooSmall
  else if g.fileSize > 2 ^ 32 - 1 then .error .sizeOverflow
  else .ok g

/-- RESULT0..2 of ENC_CHECK and ENCODE (42_encode.md R161). -/
def encodeResult (g : EncodeGeometry) : CmdResult := .results g.stride g.pixelDataSize g.fileSize

/-- ENC_CHECK validates and reports the sizes (42_encode.md R161). -/
def encCheckCommand (o : OperandRegs) : Except CmdError CmdResult := do
  let g ← encodeChecked o
  .ok (encodeResult g)

/-- ROWMAP_ENC reports where a source row goes (42_encode.md R163). -/
def rowmapEncCommand (o : OperandRegs) : Except CmdError CmdResult := do
  let g ← encodeGeometry o
  let y := u32 o.rowIndex
  if y ≥ g.height then .error .rowRange
  else
    let dy := dstRow g.height y
    .ok (.results dy (y * g.width * 4) (dy * g.stride))

/-- PIX_ENC reorders one packed pixel (42_encode.md R165). -/
def pixEncCommand (o : OperandRegs) : Except CmdError CmdResult :=
  let p := o.pixIn
  let q := encPix [byteOf p 0, byteOf p 1, byteOf p 2, byteOf p 3]
  .ok (.pixel (packBytes (q.getD 0 0#8) (q.getD 1 0#8) (q.getD 2 0#8) 0x00#8))

/-- The source window of an encode (42_encode.md R170). -/
def encodeSrc (o : OperandRegs) (g : EncodeGeometry) : Window :=
  { lo := u32 o.srcBase, hi := u32 o.srcBase + g.inLen }

/-- The destination window of an encode (42_encode.md R170). -/
def encodeDst (o : OperandRegs) (g : EncodeGeometry) : Window :=
  { lo := u32 o.dstBase, hi := u32 o.dstBase + g.pixelDataSize }

/-- The source address `a` of pixel `(y, x)` (42_encode.md R170). -/
def encodeFrom (o : OperandRegs) (g : EncodeGeometry) (y x : Nat) : Nat := u32 o.srcBase + (y * g.width + x) * 4

/-- The address of the file row that source row `y` goes to (42_encode.md R170). -/
def encodeRowTo (o : OperandRegs) (g : EncodeGeometry) (y : Nat) : Nat :=
  u32 o.dstBase + dstRow g.height y * g.stride

/-- The source addresses ENCODE uses: the R, G and B bytes of every pixel, never alpha (42_encode.md R170). -/
def encodeUses (o : OperandRegs) (g : EncodeGeometry) : List Nat :=
  (rowMajor g.width g.height).flatMap fun p => List.range' (encodeFrom o g p.1 p.2) 3

/-- The pixel bytes of source row `y` (42_encode.md R170). -/
def encodeRowPixels (o : OperandRegs) (g : EncodeGeometry) (m : Memory) (y : Nat) : List Host.Cell :=
  (List.range g.width).flatMap fun x =>
    cellsAt (encodeRowTo o g y + x * 3) (encPix (readBytes m (encodeFrom o g y x) 3))

/-- The zero padding of the file row of source row `y`: `for p in [W × 3, s)` (42_encode.md R170). -/
def encodeRowPadding (o : OperandRegs) (g : EncodeGeometry) (y : Nat) : List Host.Cell :=
  (List.range' (g.width * 3) (g.stride - g.width * 3)).map fun p => (encodeRowTo o g y + p, 0x00#8)

/-- The destination bytes ENCODE writes: the loop of 42_encode.md R170. -/
def encodeWrites (o : OperandRegs) (g : EncodeGeometry) (m : Memory) : List Host.Cell :=
  (List.range g.height).flatMap fun y => encodeRowPixels o g m y ++ encodeRowPadding o g y

/-- The checks of ENCODE, then its transfer (42_encode.md R170). -/
def encodeFrame (o : OperandRegs) (m : Memory) : Except CmdError Frame := do
  let g ← encodeChecked o
  if g.pixelDataSize > u32 o.dstLen then .error .dstTooSmall
  else if u32 o.srcBase + g.inLen > Config.addressSpace ∨ u32 o.dstBase + g.pixelDataSize > Config.addressSpace then
    .error .addressRange
  else if (encodeSrc o g).meets (encodeDst o g) then .error .overlap
  else
    .ok { src := encodeSrc o g
          dst := encodeDst o g
          uses := encodeUses o g
          writes := encodeWrites o g m
          result := encodeResult g }

/-- ENC_CHECK, CMD word 0x0000_0004 (42_encode.md R161). -/
def execEncCheck (s : State) : StepResult := withCommand s fun w => finish s (encCheckCommand w.ops)

/-- ROWMAP_ENC, CMD word 0x0000_0007 (42_encode.md R163). -/
def execRowmapEnc (s : State) : StepResult := withCommand s fun w => finish s (rowmapEncCommand w.ops)

/-- PIX_ENC, CMD word 0x0000_0009 (42_encode.md R165). -/
def execPixEnc (s : State) : StepResult := withCommand s fun w => finish s (pixEncCommand w.ops)

/-- ENCODE, CMD word 0x0000_0005 (42_encode.md R170). -/
def execEncode (s : State) : StepResult := withCommand s fun w => finishFrame s (encodeFrame w.ops s.mem)

end Sys2Proof.Machine
end

