-- ==== Sys2Proof/Machine/Stride.lean ====
section
/-! DEFINITION. The stride and padding calculator, command STRIDE (40_stride.md R114). -/

namespace Sys2Proof.Machine

/-- STRIDE computes the row stride, the pixel bytes per row and the row padding (40_stride.md R114). -/
def strideCommand (o : OperandRegs) : Except CmdError CmdResult := do
  let n ← checkDepth o
  let w ← checkWidth o
  .ok (.results (stride w n) (w * n) (pad w n))

/-- STRIDE, CMD word 0x0000_0001 (40_stride.md R114). -/
def execStride (s : State) : StepResult := withCommand s fun w => finish s (strideCommand w.ops)

end Sys2Proof.Machine
end

