-- ==== Sys2Proof/Machine/Dispatch.lean ====
section
/-! DEFINITION. One arm per command of 30_encoding.md R92: the command in progress runs and completes (10_state.md R46). -/

namespace Sys2Proof.Machine

def exec (i : Instr) (s : State) : Host.Outcome State Fault Refusal :=
  match i with
  | .stride => Sys2Proof.Machine.execStride s
  | .decCheck => Sys2Proof.Machine.execDecCheck s
  | .decode => Sys2Proof.Machine.execDecode s
  | .encCheck => Sys2Proof.Machine.execEncCheck s
  | .encode => Sys2Proof.Machine.execEncode s
  | .rowmapDec => Sys2Proof.Machine.execRowmapDec s
  | .rowmapEnc => Sys2Proof.Machine.execRowmapEnc s
  | .pixDec => Sys2Proof.Machine.execPixDec s
  | .pixEnc => Sys2Proof.Machine.execPixEnc s

end Sys2Proof.Machine
end

