-- ==== Sys2Proof/Machine/Flags.lean ====
section
/-! DEFINITION. STATUS, CTRL and IRQ as the host sees them (10_state.md R26 to R32, R50; 60_exceptions.md R191, R200). -/

namespace Sys2Proof.Machine

/-- The code of an error (60_exceptions.md R191). -/
def errorCode : CmdError → Byte
  | .tooSmall => 0x01#8
  | .badMagic => 0x02#8
  | .unsupportedHeader => 0x03#8
  | .unsupportedCompression => 0x04#8
  | .unsupportedBitDepth => 0x05#8
  | .truncatedData => 0x06#8
  | .bufferTooSmall => 0x07#8
  | .notSupported => 0x08#8
  | .allocationFailure => 0x09#8
  | .badDimension => 0x10#8
  | .sizeOverflow => 0x11#8
  | .dstTooSmall => 0x12#8
  | .addressRange => 0x13#8
  | .overlap => 0x14#8
  | .rowRange => 0x15#8
  | .badCommand => 0x16#8
  | .busError => 0x17#8

/-- The ERRCODE field: 0x00 after a success, the error's code after an error (10_state.md R31). -/
def errcodeField : Option CmdError → Byte
  | none => 0x00#8
  | some e => errorCode e

/-- The errors the block itself raises; codes 0x01 to 0x04, 0x08 and 0x09 are the host's (60_exceptions.md R191). -/
def raisedByBlock : CmdError → Bool
  | .tooSmall | .badMagic | .unsupportedHeader | .unsupportedCompression | .notSupported | .allocationFailure => false
  | .unsupportedBitDepth | .truncatedData | .bufferTooSmall | .badDimension | .sizeOverflow | .dstTooSmall
  | .addressRange | .overlap | .rowRange | .badCommand | .busError => true

/-- STATUS.BUSY: 1 exactly in phase BUSY (10_state.md R27). -/
def busyFlag (s : State) : Bool :=
  match s.phase with
  | .idle => false
  | .busy _ => true

/-- A read of STATUS: BUSY, DONE, ERR, OVR in bits 0 to 3, ERRCODE in bits 15:8, the rest 0 (10_state.md R26). -/
def statusWord (s : State) : Word :=
  0#16 ++ errcodeField s.errcode ++ 0#4 ++ BitVec.ofBool s.ovr ++ BitVec.ofBool s.err ++ BitVec.ofBool s.done
    ++ BitVec.ofBool (busyFlag s)

/-- A read of CTRL: IE in bit 0, the rest 0 (10_state.md R32). -/
def ctrlWord (s : State) : Word := 0#31 ++ BitVec.ofBool s.ie

/-- A host write of `v` to CTRL sets IE to bit 0; the other bits are ignored (10_state.md R32). -/
def writeCtrl (s : State) (v : Word) : State := { s with ie := v.getLsbD 0 }

/-- The interrupt output, a function of the state (10_state.md R50, 60_exceptions.md R200). -/
def irq (s : State) : Bool := s.ie && (s.done || s.err)

end Sys2Proof.Machine
end

