-- ==== Sys2Proof/Machine/HostPort.lean ====
section
/-! DEFINITION. What the agents outside the block do: register window accesses (10_state.md R23, R24 to R49), memory
accesses under the window exclusion (70_reset_and_hazards.md R231), cache maintenance (20_memory.md R77) and reset
(70_reset_and_hazards.md R220 to R222). -/

namespace Sys2Proof.Machine

/-! The register window -/

/-- The registers of the window (10_state.md R23); a reserved offset is none of them. -/
inductive Reg where
  | id
  | cmd
  | status
  | ctrl
  | width
  | height
  | bpp
  | dataOffset
  | srcBase
  | srcLen
  | dstBase
  | dstLen
  | rowIndex
  | pixIn
  | pixOut
  | result0Lo
  | result0Hi
  | result1Lo
  | result1Hi
  | result2Lo
  | result2Hi
deriving DecidableEq, Repr

/-- The register at an offset of the window; `none` at the reserved offsets 0x3C and 0x58 to 0x7C (10_state.md R23). -/
def regAt (offset : Nat) : Option Reg :=
  match offset with
  | 0x00 => some .id
  | 0x04 => some .cmd
  | 0x08 => some .status
  | 0x0C => some .ctrl
  | 0x10 => some .width
  | 0x14 => some .height
  | 0x18 => some .bpp
  | 0x1C => some .dataOffset
  | 0x20 => some .srcBase
  | 0x24 => some .srcLen
  | 0x28 => some .dstBase
  | 0x2C => some .dstLen
  | 0x30 => some .rowIndex
  | 0x34 => some .pixIn
  | 0x38 => some .pixOut
  | 0x40 => some .result0Lo
  | 0x44 => some .result0Hi
  | 0x48 => some .result1Lo
  | 0x4C => some .result1Hi
  | 0x50 => some .result2Lo
  | 0x54 => some .result2Hi
  | _ => none

/-- What a host read of a register returns (10_state.md R23 to R44). -/
def readReg (s : State) : Reg → Word
  | .id => Config.idValue
  | .cmd => 0#32
  | .status => statusWord s
  | .ctrl => ctrlWord s
  | .width => s.ops.width
  | .height => s.ops.height
  | .bpp => s.ops.bpp
  | .dataOffset => s.ops.dataOffset
  | .srcBase => s.ops.srcBase
  | .srcLen => s.ops.srcLen
  | .dstBase => s.ops.dstBase
  | .dstLen => s.ops.dstLen
  | .rowIndex => s.ops.rowIndex
  | .pixIn => s.ops.pixIn
  | .pixOut => s.pixOut
  | .result0Lo => lo32 s.result0
  | .result0Hi => hi32 s.result0
  | .result1Lo => lo32 s.result1
  | .result1Hi => hi32 s.result1
  | .result2Lo => lo32 s.result2
  | .result2Hi => hi32 s.result2

/-- A read at an offset of the window; a reserved offset reads 0 (10_state.md R47). -/
def readOffset (s : State) (offset : Nat) : Word :=
  match regAt offset with
  | some r => readReg s r
  | none => 0#32

/-- What a host write does to a register: a read-only register ignores it (10_state.md R24 to R44, R47). -/
def writeReg (s : State) (v : Word) : Reg → State
  | .cmd => acceptCommand s v
  | .status => writeStatus s v
  | .ctrl => writeCtrl s v
  | .width => { s with ops := { s.ops with width := v } }
  | .height => { s with ops := { s.ops with height := v } }
  | .bpp => { s with ops := { s.ops with bpp := v } }
  | .dataOffset => { s with ops := { s.ops with dataOffset := v } }
  | .srcBase => { s with ops := { s.ops with srcBase := v } }
  | .srcLen => { s with ops := { s.ops with srcLen := v } }
  | .dstBase => { s with ops := { s.ops with dstBase := v } }
  | .dstLen => { s with ops := { s.ops with dstLen := v } }
  | .rowIndex => { s with ops := { s.ops with rowIndex := v } }
  | .pixIn => { s with ops := { s.ops with pixIn := v } }
  | .id | .pixOut | .result0Lo | .result0Hi | .result1Lo | .result1Hi | .result2Lo | .result2Hi => s

/-- A write at an offset of the window; a reserved offset ignores it (10_state.md R47). -/
def writeOffset (s : State) (offset : Nat) (v : Word) : State :=
  match regAt offset with
  | some r => writeReg s v r
  | none => s

/-- The offset of a register access the spec gives a meaning: an aligned 32-bit access inside the window (10_state.md R48). -/
def windowOffset (p : Platform) (addr : Nat) (size : AccessSize) : Option Nat :=
  let offset := addr - p.blockBase
  if size = .word ∧ p.blockBase ≤ addr ∧ offset < Config.registerWindowSize ∧ offset % 4 = 0 then some offset else none

/-- A host read of the register window; reads have no side effect on the block (10_state.md R49). -/
def hostRegRead (s : State) (addr : Nat) (size : AccessSize) : StepResult :=
  match windowOffset s.platform addr size with
  | some offset => .next { s with lastRead := some (readOffset s offset) }
  | none => .refused .registerAccessForm

/-- A host write of the register window (10_state.md R47, R49). -/
def hostRegWrite (s : State) (addr : Nat) (size : AccessSize) (v : Word) : StepResult :=
  match windowOffset s.platform addr size with
  | some offset => .next (writeOffset s offset v)
  | none => .refused .registerAccessForm

/-! The window exclusion -/

/-- The source and destination window of the frame command in progress, as its geometry gives them
(70_reset_and_hazards.md R231; log 13). -/
def runningWindows (s : State) : Option (Window × Window) :=
  match s.phase with
  | .idle => none
  | .busy w =>
    match (decode w.cmd).toOption with
    | some .decode =>
      match decodeGeometry w.ops with
      | .ok g => some (decodeSrc w.ops g, decodeDst w.ops g)
      | .error _ => none
    | some .encode =>
      match encodeGeometry w.ops with
      | .ok g => some (encodeSrc w.ops g, encodeDst w.ops g)
      | .error _ => none
    | _ => none

/-- Whether an agent may write a byte now: not in either window of a running frame command (70_reset_and_hazards.md R231). -/
def mayWrite (s : State) (a : Nat) : Bool :=
  match runningWindows s with
  | some (src, dst) => !src.has a && !dst.has a
  | none => true

/-- Whether an agent may read a byte now: not in the destination window of a running frame command; a read of the source
window is harmless (70_reset_and_hazards.md R231). -/
def mayRead (s : State) (a : Nat) : Bool :=
  match runningWindows s with
  | some (_, dst) => !dst.has a
  | none => true

/-- Why an agent may not make a memory access, if it may not. -/
def accessStop (s : State) (allowed : Nat → Bool) (a : Nat) : Option StepResult :=
  if a ≥ Config.addressSpace then some (.fault (.addressOutsideSpace a))
  else if !allowed a then some (.fault (.windowExclusion a))
  else if s.platform.isDevice a then some (.refused (.deviceAccess a))
  else none

/-- The first reason that stops one of the accesses. -/
def accessesStop (s : State) (allowed : Nat → Bool) : List Nat → Option StepResult
  | [] => none
  | a :: as =>
    match accessStop s allowed a with
    | some r => some r
    | none => accessesStop s allowed as

/-! Memory accesses of the agents -/

/-- Whether an agent's accesses go through the host's caches (20_memory.md R77). -/
def throughCache (s : State) (agent : Agent) : Bool := agent == .host && !s.platform.dmaCoherent

/-- A byte read that goes through the host's cache: a hit returns the cached byte, a miss fills the cache (log 6). -/
def cachedRead (s : State) (a : Nat) : State :=
  match cacheFind s.hostCache a with
  | some c => { s with lastRead := some (c.byte.setWidth 32) }
  | none =>
    { s with
      lastRead := some ((memRead s.mem a).setWidth 32)
      hostCache := cachePut s.hostCache a { byte := memRead s.mem a, dirty := false } }

/-- An agent reads a byte of memory (20_memory.md R60, R61, R73). -/
def agentRead (s : State) (agent : Agent) (a : Nat) : StepResult :=
  match accessStop s (mayRead s) a with
  | some r => r
  | none =>
    if throughCache s agent then .next (cachedRead s a)
    else .next { s with lastRead := some ((memRead s.mem a).setWidth 32) }

/-- An agent writes bytes of memory from `a` up (20_memory.md R60, R61, R73; 30_encoding.md R97 `mem`). -/
def agentWrite (s : State) (agent : Agent) (a : Nat) (bytes : List Byte) : StepResult :=
  match accessesStop s (mayWrite s) (List.range' a bytes.length) with
  | some r => r
  | none =>
    if throughCache s agent then .next { s with hostCache := cachePutDirty s.hostCache (cellsAt a bytes) }
    else .next { s with mem := writeCells s.mem (cellsAt a bytes) }

/-- The host cleans its caches for a window: its dirty bytes are written to memory (20_memory.md R77).
On a coherent platform there is nothing to clean. -/
def hostClean (s : State) (w : Window) : StepResult :=
  if s.platform.dmaCoherent then .next s
  else
    match accessesStop s (mayWrite s) ((dirtyCells s.hostCache w).map (·.1)) with
    | some r => r
    | none =>
      .next { s with mem := writeCells s.mem (dirtyCells s.hostCache w), hostCache := markClean s.hostCache w }

/-- The host invalidates its caches for a window: its cached bytes are dropped (20_memory.md R77). -/
def hostInvalidate (s : State) (w : Window) : StepResult :=
  if s.platform.dmaCoherent then .next s else .next { s with hostCache := dropCached s.hostCache w }

/-! Reset -/

/-- The frame command in progress, if its checks pass: only such a command accesses memory (60_exceptions.md R196). -/
def runningFrame (s : State) : Option Frame :=
  match s.phase with
  | .idle => none
  | .busy w =>
    match (decode w.cmd).toOption with
    | some .decode => (decodeFrame w.ops s.mem).toOption
    | some .encode => (encodeFrame w.ops s.mem).toOption
    | _ => none

/-- Every register at its reset value, phase IDLE, the working copy discarded (70_reset_and_hazards.md R220).
Memory, the platform and what is still scheduled stay (R222). -/
def resetRegisters (s : State) : State :=
  { s with
    ops := OperandRegs.reset
    ie := false
    done := false
    err := false
    ovr := false
    errcode := none
    pixOut := 0#32
    result0 := 0#64
    result1 := 0#64
    result2 := 0#64
    phase := .idle }

/-- Reset, in every state: it wins over a command in progress (60_exceptions.md R194), which is abandoned
(70_reset_and_hazards.md R221, U7). -/
def applyReset (s : State) : StepResult :=
  match runningFrame s with
  | none => .next (resetRegisters s)
  | some f => .next (resetRegisters (abandonTransfer s f))

end Sys2Proof.Machine
end

