-- ==== Sys2Proof/Machine/Block.lean ====
section
/-! DEFINITION. The block sequencer's turn and the effect of each event of the schedule (10_state.md R46; 30_encoding.md
R93; 60_exceptions.md R194). -/

namespace Sys2Proof.Machine

/-- The block's turn: the command in progress is decoded, runs and completes; an illegal word completes with BadCommand
(30_encoding.md R93). While IDLE the block does nothing. -/
def blockTurn (s : State) : StepResult :=
  match s.phase with
  | .idle => .next s
  | .busy w =>
    match decode w.cmd with
    | .instr i => exec i s
    | .illegal _ => .next (completeError s .badCommand)

/-- One event takes effect. -/
def runEvent (s : State) : Event → StepResult
  | .blockStep => blockTurn s
  | .regRead addr size => hostRegRead s addr size
  | .regWrite addr size v => hostRegWrite s addr size v
  | .memRead agent a => agentRead s agent a
  | .memWrite agent a bytes => agentWrite s agent a bytes
  | .cacheClean w => hostClean s w
  | .cacheInvalidate w => hostInvalidate s w
  | .reset => applyReset s

/-- The phase in which a command word is in progress: latched from the registers as an acceptance would, or in the place of
the word of the command in progress. -/
def phaseWithWord (s : State) (c : Word) : Phase :=
  match s.phase with
  | .idle => .busy (latch s c)
  | .busy w => .busy { w with cmd := c }

end Sys2Proof.Machine
end

