-- ==== Sys2Proof/Machine/Step.lean ====
section
/-! DEFINITION. One step: the oldest event of the schedule takes effect; with nothing scheduled it is the block's turn, so
that a command in progress always completes (60_exceptions.md R194, 70_reset_and_hazards.md R237). -/

namespace Sys2Proof.Machine

/-- One step of the machine. -/
def step (s : State) : Host.Outcome State Fault Refusal :=
  match s.schedule with
  | [] => blockTurn s
  | e :: rest => runEvent { s with schedule := rest } e

/-- The state in which the very next step runs the command whose word has the bits `w`: an accepted CMD write of it has
happened, and the block's turn is next (10_state.md R45, R46; log 14). -/
def State.withFetchWord (s : State) (nbits w : Nat) : State :=
  { s with
    done := false
    err := false
    phase := phaseWithWord s (BitVec.ofNat 32 (w % 2 ^ nbits))
    schedule := .blockStep :: s.schedule }

end Sys2Proof.Machine
end

