-- ==== Sys2Proof/Machine/HostSide.lean ====
section
/-! DEFINITION. What the host does around a command, as pure functions: its checks 1 to 4 and the registers it loads before a
decode (60_exceptions.md R207), and the 54 header bytes it writes for an encoded file (42_encode.md R172, 20_memory.md R68).
The block performs none of this (00_scope.md R5; log 20), and no step calls it. -/

namespace Sys2Proof.Machine

/-- The bytes of a u16 field, little-endian (20_memory.md R63). -/
def leHalf (h : BitVec 16) : List Byte := [h.extractLsb' 0 8, h.extractLsb' 8 8]

/-- The bytes of a u32 field, little-endian (20_memory.md R63). -/
def leWord (w : Word) : List Byte := [byteOf w 0, byteOf w 1, byteOf w 2, byteOf w 3]

/-- The u16 field at an address, little-endian (20_memory.md R63). -/
def readHalf (m : Memory) (a : Nat) : BitVec 16 := memRead m (a + 1) ++ memRead m a

/-- The u32 field at an address, little-endian (20_memory.md R63). -/
def readWord (m : Memory) (a : Nat) : Word :=
  packBytes (memRead m a) (memRead m (a + 1)) (memRead m (a + 2)) (memRead m (a + 3))

/-- Checks 1 to 4 on a file of `len` bytes at `file`, each short-circuiting (60_exceptions.md R207). -/
def hostChecks (m : Memory) (file len : Nat) : Except CmdError Unit :=
  if len < Config.headerBytes then .error .tooSmall
  else if memRead m file ≠ 0x42#8 ∨ memRead m (file + 1) ≠ 0x4D#8 then .error .badMagic
  else if readWord m (file + 14) ≠ 40#32 then .error .unsupportedHeader
  else if readWord m (file + 30) ≠ 0#32 then .error .unsupportedCompression
  else .ok ()

/-- The registers the host loads from the header; the destination and the other registers are its own choice
(60_exceptions.md R207). -/
def hostLoads (m : Memory) (file len : Nat) (o : OperandRegs) : OperandRegs :=
  { o with
    srcBase := BitVec.ofNat 32 file
    srcLen := BitVec.ofNat 32 len
    dataOffset := readWord m (file + 10)
    width := readWord m (file + 18)
    height := readWord m (file + 22)
    bpp := (readHalf m (file + 28)).setWidth 32 }

/-- The 54 header bytes of an encoded file, field by field (20_memory.md R68, 42_encode.md R172). -/
def fileHeader (width height imageSize fileSize : Word) : List Byte :=
  [0x42#8, 0x4D#8] ++ leWord fileSize ++ leHalf 0#16 ++ leHalf 0#16 ++ leWord 54#32 ++ leWord 40#32 ++ leWord width
    ++ leWord height ++ leHalf 1#16 ++ leHalf 24#16 ++ leWord 0#32 ++ leWord imageSize ++ leWord 2835#32
    ++ leWord 2835#32 ++ leWord 0#32 ++ leWord 0#32

end Sys2Proof.Machine
end

