-- ==== Sys2Proof/Safety.lean ====
section
/-! DEFINITION. What counts as a legal state and a safe step of BMPPX, and the vocabulary the statements use. The vocabulary
says the spec's conditions again, from the registers' bits, so that a statement does not rest on the model's own checks. -/

namespace Sys2Proof.Machine

/-- The legal states: memory and cache in canonical form; DONE and ERR never both 1 (10_state.md R29); both 0 while BUSY
(R45); ERRCODE 0x00 with DONE and an error code with ERR (R31); and only error codes the block raises (60_exceptions.md
R191). -/
structure Legal (s : State) : Prop where
  memory : Memory.wf s.mem
  cache : HostCache.wf s.hostCache
  notDoneAndErr : ¬ (s.done = true ∧ s.err = true)
  clearWhileBusy : ∀ w, s.phase = .busy w → s.done = false ∧ s.err = false
  codeOfDone : s.done = true → s.errcode = none
  codeOfErr : s.err = true → s.errcode ≠ none
  codeRaised : ∀ e, s.errcode = some e → raisedByBlock e = true

/-- A step that neither faults nor is refused. -/
def StepsOn (s : State) : Prop := ∃ t, step s = .next t

/-- The bytes of a row rounded up to a multiple of 4 (40_stride.md R110). -/
def rowBytes (W N : Nat) : Nat := (W * N + 3) / 4 * 4

/-- BPP is 24 or 32 (40_stride.md R112). -/
def DepthOk (o : OperandRegs) : Prop := o.bpp = 24#32 ∨ o.bpp = 32#32

/-- The dimensions a decode command refuses (41_decode.md R130). -/
def DecodeDimsBad (o : OperandRegs) : Prop :=
  o.width.toInt < 1 ∨ o.height.toInt = 0 ∨ o.height.toInt = -2147483648

/-- The operands of a decode pass DecodeGeometry (41_decode.md R130): `N` bytes per pixel, `W` columns, `H` rows. -/
structure DecodeShape (o : OperandRegs) (N W H : Nat) : Prop where
  depth : o.bpp.toNat = 8 * N
  bytes : N = 3 ∨ N = 4
  width : o.width.toInt = W
  widthPos : 1 ≤ W
  height : o.height.toInt.natAbs = H
  heightPos : 1 ≤ H
  heightRange : o.height.toInt ≠ -2147483648

/-- The dimensions an encode command refuses (42_encode.md R160). -/
def EncodeDimsBad (o : OperandRegs) : Prop := o.width.toInt < 1 ∨ o.height.toInt < 1

/-- The operands of an encode pass EncodeGeometry (42_encode.md R160): `W` columns, `H` rows. -/
structure EncodeShape (o : OperandRegs) (W H : Nat) : Prop where
  width : o.width.toInt = W
  widthPos : 1 ≤ W
  height : o.height.toInt = H
  heightPos : 1 ≤ H

/-- The file row a decode's output row comes from (41_decode.md R132). -/
def fileRowOf (o : OperandRegs) (H y : Nat) : Nat := if o.height.toInt < 0 then y else H - 1 - y

/-- Where the pixel array of a decode starts. -/
def pixelArray (o : OperandRegs) : Nat := o.srcBase.toNat + o.dataOffset.toNat

/-- Every check of DECODE passes and no window lies on a device (41_decode.md R140, 20_memory.md R61). -/
structure DecodePasses (s : State) (o : OperandRegs) (N W H : Nat) : Prop where
  shape : DecodeShape o N W H
  notTruncated : o.dataOffset.toNat + rowBytes W N * H ≤ o.srcLen.toNat
  dstFits : W * H * 4 ≤ o.dstLen.toNat
  srcInSpace : pixelArray o + rowBytes W N * H ≤ 2 ^ 32
  dstInSpace : o.dstBase.toNat + W * H * 4 ≤ 2 ^ 32
  disjoint : pixelArray o + rowBytes W N * H ≤ o.dstBase.toNat ∨ o.dstBase.toNat + W * H * 4 ≤ pixelArray o
  srcOrdinary : ∀ a, pixelArray o ≤ a → a < pixelArray o + rowBytes W N * H → s.platform.isDevice a = false
  dstOrdinary : ∀ a, o.dstBase.toNat ≤ a → a < o.dstBase.toNat + W * H * 4 → s.platform.isDevice a = false

/-- Every check of ENCODE passes and no window lies on a device (42_encode.md R170, 20_memory.md R61). -/
structure EncodePasses (s : State) (o : OperandRegs) (W H : Nat) : Prop where
  shape : EncodeShape o W H
  srcFits : W * H * 4 ≤ o.srcLen.toNat
  sizeFits : 54 + rowBytes W 3 * H ≤ 2 ^ 32 - 1
  dstFits : rowBytes W 3 * H ≤ o.dstLen.toNat
  srcInSpace : o.srcBase.toNat + W * H * 4 ≤ 2 ^ 32
  dstInSpace : o.dstBase.toNat + rowBytes W 3 * H ≤ 2 ^ 32
  disjoint : o.srcBase.toNat + W * H * 4 ≤ o.dstBase.toNat ∨ o.dstBase.toNat + rowBytes W 3 * H ≤ o.srcBase.toNat
  srcOrdinary : ∀ a, o.srcBase.toNat ≤ a → a < o.srcBase.toNat + W * H * 4 → s.platform.isDevice a = false
  dstOrdinary : ∀ a, o.dstBase.toNat ≤ a → a < o.dstBase.toNat + rowBytes W 3 * H → s.platform.isDevice a = false

/-- The bus completes every access of a kind in `[lo, hi)` (20_memory.md R78). -/
def BusAdmits (s : State) (k : AccessKind) (lo hi : Nat) : Prop :=
  ∀ a, lo ≤ a → a < hi → s.platform.admits a k = true

/-- The first source byte of output pixel `(y, x)` of a decode (41_decode.md R140). -/
def decodePixelAt (o : OperandRegs) (N W H y x : Nat) : Nat :=
  pixelArray o + fileRowOf o H y * rowBytes W N + x * N

/-- Component `k` (R, G, B, A) of output pixel `(y, x)` of a decode, from memory `m` (41_decode.md R134, R141). -/
def decodedByte (m : Memory) (o : OperandRegs) (N W H y x k : Nat) : Byte :=
  if k < 3 then memRead m (decodePixelAt o N W H y x + (2 - k))
  else if N = 4 then memRead m (decodePixelAt o N W H y x + 3) else 0xFF#8

/-- Byte `c` of file row `r` of an encode, from memory `m` (42_encode.md R171). -/
def encodedByte (m : Memory) (o : OperandRegs) (W H r c : Nat) : Byte :=
  if c < 3 * W then memRead m (o.srcBase.toNat + ((H - 1 - r) * W + c / 3) * 4 + (2 - c % 3)) else 0x00#8

/-- What ENCODE reads and writes in one turn of its loops: a pixel, or a padding byte (42_encode.md R170). -/
inductive EncodeUnit where
  | pixel (y x : Nat)
  | padding (y p : Nat)
deriving DecidableEq, Repr

/-- The turns of ENCODE's loops, in the order they are written (42_encode.md R170). -/
def encodeUnits (g : EncodeGeometry) : List EncodeUnit :=
  (List.range g.height).flatMap fun y =>
    (List.range g.width).map (EncodeUnit.pixel y)
      ++ (List.range' (g.width * 3) (g.stride - g.width * 3)).map (EncodeUnit.padding y)

/-- The bytes one turn writes, with what it reads from memory `m` (42_encode.md R170). -/
def encodeUnitCells (o : OperandRegs) (g : EncodeGeometry) (m : Memory) : EncodeUnit → List Host.Cell
  | .pixel y x => cellsAt (encodeRowTo o g y + x * 3) (encPix (readBytes m (encodeFrom o g y x) 3))
  | .padding y p => [(encodeRowTo o g y + p, 0x00#8)]

/-- The agents' windows of a frame command in progress, source then destination (41_decode.md R140, 42_encode.md R170). -/
def RunningFrame (w : WorkingCopy) (src dst : Window) : Prop :=
  (w.cmd = 3#32 ∧ ∃ N W H, DecodeShape w.ops N W H
      ∧ src = ⟨pixelArray w.ops, pixelArray w.ops + rowBytes W N * H⟩
      ∧ dst = ⟨w.ops.dstBase.toNat, w.ops.dstBase.toNat + W * H * 4⟩)
  ∨ (w.cmd = 5#32 ∧ ∃ W H, EncodeShape w.ops W H
      ∧ src = ⟨w.ops.srcBase.toNat, w.ops.srcBase.toNat + W * H * 4⟩
      ∧ dst = ⟨w.ops.dstBase.toNat, w.ops.dstBase.toNat + rowBytes W 3 * H⟩)

/-- Two working copies agree on every field a command reads (30_encoding.md R96). -/
def sameReads : Instr → OperandRegs → OperandRegs → Prop
  | .stride, o, p => o.bpp = p.bpp ∧ o.width = p.width
  | .decCheck, o, p =>
    o.bpp = p.bpp ∧ o.width = p.width ∧ o.height = p.height ∧ o.dataOffset = p.dataOffset ∧ o.srcLen = p.srcLen
  | .decode, o, p =>
    o.bpp = p.bpp ∧ o.width = p.width ∧ o.height = p.height ∧ o.dataOffset = p.dataOffset ∧ o.srcBase = p.srcBase
      ∧ o.srcLen = p.srcLen ∧ o.dstBase = p.dstBase ∧ o.dstLen = p.dstLen
  | .encCheck, o, p => o.width = p.width ∧ o.height = p.height ∧ o.srcLen = p.srcLen
  | .encode, o, p =>
    o.width = p.width ∧ o.height = p.height ∧ o.srcBase = p.srcBase ∧ o.srcLen = p.srcLen ∧ o.dstBase = p.dstBase
      ∧ o.dstLen = p.dstLen
  | .rowmapDec, o, p =>
    o.bpp = p.bpp ∧ o.width = p.width ∧ o.height = p.height ∧ o.dataOffset = p.dataOffset ∧ o.rowIndex = p.rowIndex
  | .rowmapEnc, o, p => o.width = p.width ∧ o.height = p.height ∧ o.rowIndex = p.rowIndex
  | .pixDec, o, p => o.bpp = p.bpp ∧ o.pixIn = p.pixIn
  | .pixEnc, o, p => o.pixIn = p.pixIn

/-- A step's outcome with a change made to its next state. -/
def mapNext (f : State → State) : StepResult → StepResult
  | .next t => .next (f t)
  | .fault r => .fault r
  | .refused r => .refused r

end Sys2Proof.Machine
end

