-- ==== Sys2Proof/Certificates/Slice0/Obligations.lean ====
section
/-! DEFINITION. The statements for the provers, from the numbered rules of spec/. "log n" is notes/assumptions/n.md. -/

open Sys2Proof Sys2Proof.Machine

/-! Encoding -/

/-- The sixteen OP values of 30_encoding.md R92: nine commands, seven reserved. -/
def Obligations.SmallCommandWordsDecodeAsTheTableSays : Prop :=
  decode 0x00000001#32 = .instr .stride ∧ decode 0x00000002#32 = .instr .decCheck
  ∧ decode 0x00000003#32 = .instr .decode ∧ decode 0x00000004#32 = .instr .encCheck
  ∧ decode 0x00000005#32 = .instr .encode ∧ decode 0x00000006#32 = .instr .rowmapDec
  ∧ decode 0x00000007#32 = .instr .rowmapEnc ∧ decode 0x00000008#32 = .instr .pixDec
  ∧ decode 0x00000009#32 = .instr .pixEnc ∧ decode 0x00000000#32 = .illegal .reservedOp
  ∧ decode 0x0000000A#32 = .illegal .reservedOp ∧ decode 0x0000000B#32 = .illegal .reservedOp
  ∧ decode 0x0000000C#32 = .illegal .reservedOp ∧ decode 0x0000000D#32 = .illegal .reservedOp
  ∧ decode 0x0000000E#32 = .illegal .reservedOp ∧ decode 0x0000000F#32 = .illegal .reservedOp

/-- A command is selected only by its whole word (30_encoding.md R92): the decoder reads command `i` from `c` exactly when
`c` is that command's word of the table. -/
def Obligations.DecodeSelectsByTheWholeWord : Prop :=
  ∀ (c : Word) (i : Instr), decode c = .instr i ↔
    (i, c) ∈ [(Instr.stride, 0x00000001#32), (Instr.decCheck, 0x00000002#32), (Instr.decode, 0x00000003#32),
      (Instr.encCheck, 0x00000004#32), (Instr.encode, 0x00000005#32), (Instr.rowmapDec, 0x00000006#32),
      (Instr.rowmapEnc, 0x00000007#32), (Instr.pixDec, 0x00000008#32), (Instr.pixEnc, 0x00000009#32)]

/-- Decode and encode agree for every command, and each legal word is the encoding of the command it decodes to. -/
def Obligations.DecodeAndEncodeAgree : Prop :=
  (∀ i : Instr, i.wellFormed = true → decode (encode i) = .instr i)
  ∧ ∀ (c : Word) (i : Instr), decode c = .instr i → encode i = c ∧ (cmdFields c).wellFormed = true

/-- The block's turn runs the command in progress, with the schedule's event taken off (10_state.md R46, 30_encoding.md R93).
That an empty schedule is the block's turn is the model's choice, log 2. -/
def Obligations.StepRunsTheCommandInProgress : Prop :=
  ∀ (s : State) (w : WorkingCopy) (i : Instr), s.phase = .busy w → decode w.cmd = .instr i →
    (s.schedule = [] → step s = exec i s)
    ∧ ∀ rest, s.schedule = .blockStep :: rest → step s = exec i { s with schedule := rest }

/-- Every word but the nine completes with BadCommand at the block's turn and changes nothing else, scheduled events left as
they are but for the turn itself (30_encoding.md R94, 60_exceptions.md R196). That an empty schedule is the block's turn is
the model's choice, log 2. -/
def Obligations.IllegalWordCompletesWithBadCommand : Prop :=
  ∀ (s : State) (w : WorkingCopy), s.phase = .busy w → ¬ (1 ≤ w.cmd.toNat ∧ w.cmd.toNat ≤ 9) →
    (s.schedule = [] → step s = .next { s with errcode := some .badCommand, err := true, phase := .idle })
    ∧ ∀ rest, s.schedule = .blockStep :: rest →
      step s = .next { s with schedule := rest, errcode := some .badCommand, err := true, phase := .idle }

/-! Reset -/

/-- Reset answers a next state from every state, during a command whatever its windows lie on as well as while IDLE: it gives
every register its reset value, ends phase BUSY and lowers IRQ (70_reset_and_hazards.md R220). -/
def Obligations.ResetInputSetsEveryRegister : Prop :=
  ∀ (s : State) (rest : List Event), s.schedule = .reset :: rest →
    ∃ t, step s = .next t
      ∧ readReg t .id = 0x424D0001#32 ∧ (∀ r, r ≠ .id → readReg t r = 0x00000000#32)
      ∧ t.phase = .idle ∧ irq t = false ∧ t.schedule = rest

/-- The state after reset reads as the table of 10_state.md R23 says, at every offset of the window. -/
def Obligations.ResetStateReadsTheResetValues : Prop :=
  readOffset State.reset 0x00 = 0x424D0001#32
  ∧ (∀ offset, offset ≠ 0x00 → readOffset State.reset offset = 0x00000000#32)
  ∧ State.reset.phase = .idle ∧ irq State.reset = false

/-- A reset during a frame command abandons it on every platform: no result appears and no byte outside the destination
window changes. Where the windows are ordinary memory, each byte of the destination window holds its old value or the value
the command would have written (70_reset_and_hazards.md R221). -/
def Obligations.ResetDuringAFrameCommandAbandonsIt : Prop :=
  ∀ (s : State) (w : WorkingCopy) (f : Frame) (rest : List Event), Legal s → s.phase = .busy w →
    s.schedule = .reset :: rest →
    (w.cmd = 0x00000003#32 ∧ decodeFrame w.ops s.mem = .ok f ∨ w.cmd = 0x00000005#32 ∧ encodeFrame w.ops s.mem = .ok f) →
    ∃ t, step s = .next t ∧ t.phase = .idle ∧ t.done = false ∧ t.err = false ∧ t.errcode = none ∧ t.pixOut = 0#32
      ∧ t.result0 = 0#64 ∧ t.result1 = 0#64 ∧ t.result2 = 0#64
      ∧ (∀ a, f.dst.has a = false → memRead t.mem a = memRead s.mem a)
      ∧ ((∀ a, f.src.has a = true ∨ f.dst.has a = true → s.platform.isDevice a = false) →
        ∀ a, memRead t.mem a = memRead s.mem a ∨ memRead t.mem a = memRead (writeCells s.mem f.writes) a)

/-- A reset changes no memory byte unless a frame command whose checks pass runs: one whose checks fail makes no access
(70_reset_and_hazards.md R222, 60_exceptions.md R196, log 16). -/
def Obligations.ResetOtherwiseLeavesMemory : Prop :=
  ∀ (s : State) (rest : List Event), s.schedule = .reset :: rest →
    (∀ w f, s.phase = .busy w →
      ¬ (w.cmd = 0x00000003#32 ∧ decodeFrame w.ops s.mem = .ok f)
      ∧ ¬ (w.cmd = 0x00000005#32 ∧ encodeFrame w.ops s.mem = .ok f)) →
    ∃ t, step s = .next t ∧ t.mem = s.mem

/-- The events of the one sequence meet a command in progress in their order: a CMD write before its completion step is
dropped and sets OVR, a CMD write after it is accepted, and a reset before it wins, so that the block's turn that follows
completes nothing (60_exceptions.md R194). -/
def Obligations.SequenceOrdersCommandsCompletionsAndResets : Prop :=
  ∀ (s : State) (w : WorkingCopy) (c : Word) (rest : List Event), s.phase = .busy w →
    (s.schedule = .regWrite (s.platform.blockBase + 0x04) .word c :: rest →
      step s = .next { s with schedule := rest, ovr := true })
    ∧ (s.schedule = .blockStep :: .regWrite (s.platform.blockBase + 0x04) .word c :: rest →
      ∀ t, step s = .next t →
        ∃ u, step t = .next u ∧ u.phase = .busy { cmd := c, ops := s.ops } ∧ u.ovr = s.ovr ∧ u.done = false ∧ u.err = false)
    ∧ (s.schedule = .reset :: .blockStep :: rest →
      ∃ t, step s = .next t ∧ t.phase = .idle ∧ t.done = false ∧ t.err = false ∧ step t = .next { t with schedule := rest })

/-! The register window -/

/-- A CMD write is accepted while IDLE and dropped with OVR set while BUSY, and a dropped write changes nothing else; a
write to a configuration register while BUSY changes that register and not the working copy (10_state.md R45). -/
def Obligations.CmdWriteIsAcceptedOrDropped : Prop :=
  ∀ (s : State),
    (∀ c rest, s.schedule = .regWrite (s.platform.blockBase + 0x04) .word c :: rest →
      (s.phase = .idle → step s = .next
        { s with schedule := rest, done := false, err := false, phase := .busy { cmd := c, ops := s.ops } })
      ∧ ∀ w, s.phase = .busy w → step s = .next { s with schedule := rest, ovr := true })
    ∧ ∀ w offset v rest, s.phase = .busy w →
      offset ∈ [0x10, 0x14, 0x18, 0x1C, 0x20, 0x24, 0x28, 0x2C, 0x30, 0x34] →
      s.schedule = .regWrite (s.platform.blockBase + offset) .word v :: rest →
      ∃ t, step s = .next t ∧ readOffset t offset = v ∧ t.phase = .busy w

/-- A write to a configuration register updates that register at once, in either phase, and neither any other register nor
the working copy (70_reset_and_hazards.md R234). -/
def Obligations.ConfigurationWriteUpdatesOneRegister : Prop :=
  ∀ (s : State) (v : Word) (rest : List Event) (offset : Nat),
    offset ∈ [0x10, 0x14, 0x18, 0x1C, 0x20, 0x24, 0x28, 0x2C, 0x30, 0x34] →
    s.schedule = .regWrite (s.platform.blockBase + offset) .word v :: rest →
    ∃ t, step s = .next t ∧ readOffset t offset = v ∧ (∀ q, q ≠ offset → readOffset t q = readOffset s q)
      ∧ t.phase = s.phase ∧ t.mem = s.mem ∧ t.schedule = rest

/-- STATUS: where its fields stand in the word read, what a write clears, and that it is 0 at reset (10_state.md R26). -/
def Obligations.StatusReadsItsFieldsAndClearsByWritingOnes : Prop :=
  ∀ (s : State),
    (∀ rest, s.schedule = .regRead (s.platform.blockBase + 0x08) .word :: rest →
      ∃ v, step s = .next { s with schedule := rest, lastRead := some v }
        ∧ (v.getLsbD 0 = true ↔ ∃ w, s.phase = .busy w) ∧ v.getLsbD 1 = s.done ∧ v.getLsbD 2 = s.err ∧ v.getLsbD 3 = s.ovr
        ∧ v.extractLsb' 4 4 = 0#4 ∧ v.extractLsb' 8 8 = errcodeField s.errcode ∧ v.extractLsb' 16 16 = 0#16)
    ∧ readOffset State.reset 0x08 = 0#32
    ∧ ∀ v rest, s.schedule = .regWrite (s.platform.blockBase + 0x08) .word v :: rest →
      step s = .next
        { s with
          schedule := rest
          done := if v.getLsbD 1 then false else s.done
          err := if v.getLsbD 2 then false else s.err
          ovr := if v.getLsbD 3 then false else s.ovr }

/-- CTRL: bit 0 is IE, 0 at reset; the other bits read 0 and ignore writes; a write takes effect in either phase and leaves
the working copy (10_state.md R32). -/
def Obligations.CtrlHoldsTheInterruptEnable : Prop :=
  ∀ (s : State) (v : Word) (rest : List Event),
    (s.schedule = .regWrite (s.platform.blockBase + 0x0C) .word v :: rest →
      step s = .next { s with schedule := rest, ie := v.getLsbD 0 })
    ∧ State.reset.ie = false
    ∧ (s.schedule = .regRead (s.platform.blockBase + 0x0C) .word :: rest →
      step s = .next { s with schedule := rest, lastRead := some (if s.ie then 1#32 else 0#32) })

/-- A register read changes no state of the block or of memory, and returns what the register holds: CMD reads 0, a 64-bit
result reads as its halves (10_state.md R24, R25, R33 to R44, R49). -/
def Obligations.RegisterReadsHaveNoSideEffects : Prop :=
  ∀ (s : State) (offset : Nat) (rest : List Event), offset < 0x80 → offset % 4 = 0 →
    s.schedule = .regRead (s.platform.blockBase + offset) .word :: rest →
    (∃ v, step s = .next { s with schedule := rest, lastRead := some v } ∧ v = readOffset s offset
      ∧ (offset = 0x00 → v = 0x424D0001#32) ∧ (offset = 0x04 → v = 0#32)
      ∧ (offset = 0x10 → v = s.ops.width) ∧ (offset = 0x14 → v = s.ops.height) ∧ (offset = 0x18 → v = s.ops.bpp)
      ∧ (offset = 0x1C → v = s.ops.dataOffset) ∧ (offset = 0x20 → v = s.ops.srcBase)
      ∧ (offset = 0x24 → v = s.ops.srcLen) ∧ (offset = 0x28 → v = s.ops.dstBase) ∧ (offset = 0x2C → v = s.ops.dstLen)
      ∧ (offset = 0x30 → v = s.ops.rowIndex) ∧ (offset = 0x34 → v = s.ops.pixIn) ∧ (offset = 0x38 → v = s.pixOut)
      ∧ (offset = 0x40 → v.toNat = s.result0.toNat % 2 ^ 32) ∧ (offset = 0x44 → v.toNat = s.result0.toNat / 2 ^ 32)
      ∧ (offset = 0x48 → v.toNat = s.result1.toNat % 2 ^ 32) ∧ (offset = 0x4C → v.toNat = s.result1.toNat / 2 ^ 32)
      ∧ (offset = 0x50 → v.toNat = s.result2.toNat % 2 ^ 32) ∧ (offset = 0x54 → v.toNat = s.result2.toNat / 2 ^ 32))

/-- Reserved offsets read 0 and ignore writes; ID, PIX_OUT and the RESULT registers ignore writes; a write to CMD is the
request of 10_state.md R45 and nothing else (10_state.md R47). -/
def Obligations.ReservedAndReadOnlyOffsetsIgnoreWrites : Prop :=
  ∀ (s : State) (v : Word) (offset : Nat) (rest : List Event),
    (offset ∈ [0x3C, 0x58, 0x5C, 0x60, 0x64, 0x68, 0x6C, 0x70, 0x74, 0x78, 0x7C] →
      s.schedule = .regRead (s.platform.blockBase + offset) .word :: rest →
      step s = .next { s with schedule := rest, lastRead := some 0#32 })
    ∧ (offset ∈ [0x3C, 0x58, 0x5C, 0x60, 0x64, 0x68, 0x6C, 0x70, 0x74, 0x78, 0x7C,
        0x00, 0x38, 0x40, 0x44, 0x48, 0x4C, 0x50, 0x54] →
      s.schedule = .regWrite (s.platform.blockBase + offset) .word v :: rest →
      step s = .next { s with schedule := rest })
    ∧ (s.schedule = .regWrite (s.platform.blockBase + 0x04) .word v :: rest →
      step s = .next (acceptCommand { s with schedule := rest } v))

/-- The register window takes naturally aligned 32-bit accesses, and the model refuses every other register access
(10_state.md R48, 93_implementation_defined.md U1). That alignment is taken of the offset from BLOCK_BASE, which differs from
the address's where the base is no multiple of 4, is the model's choice, log 5. -/
def Obligations.OnlyAlignedWordRegisterAccessesHaveMeaning : Prop :=
  ∀ (s : State) (addr : Nat) (size : AccessSize) (v : Word) (rest : List Event),
    s.schedule = .regRead addr size :: rest ∨ s.schedule = .regWrite addr size v :: rest →
    (size = .word ∧ s.platform.blockBase ≤ addr ∧ addr < s.platform.blockBase + 0x80
        ∧ (addr - s.platform.blockBase) % 4 = 0 → StepsOn s)
    ∧ (¬ (size = .word ∧ s.platform.blockBase ≤ addr ∧ addr < s.platform.blockBase + 0x80
        ∧ (addr - s.platform.blockBase) % 4 = 0) → step s = .refused .registerAccessForm)

/-! The interrupt -/

/-- IRQ is IE and (DONE or ERR); it is low while a command runs and rises at its completion exactly if IE is set; clearing
DONE and ERR, the acceptance of a command and reset lower it, clearing IE masks it and leaves them pending, and OVR does not
drive it (60_exceptions.md R200). That an empty schedule is the block's turn is the model's choice, log 2. -/
def Obligations.IrqRisesAtCompletionAndFallsWhenCleared : Prop :=
  ∀ (s : State), Legal s →
    (irq s = true ↔ s.ie = true ∧ (s.done = true ∨ s.err = true))
    ∧ (∀ w, s.phase = .busy w → irq s = false
        ∧ (s.schedule = [] ∨ (∃ rest, s.schedule = .blockStep :: rest) → ∀ t, step s = .next t → irq t = s.ie))
    ∧ (∀ v rest t, s.schedule = .regWrite (s.platform.blockBase + 0x08) .word v :: rest →
        v.getLsbD 1 = true → v.getLsbD 2 = true → step s = .next t → irq t = false ∧ t.errcode = s.errcode)
    ∧ (∀ c rest t, s.schedule = .regWrite (s.platform.blockBase + 0x04) .word c :: rest → s.phase = .idle →
        step s = .next t → irq t = false)
    ∧ (∀ rest t, s.schedule = .reset :: rest → step s = .next t → irq t = false)
    ∧ (∀ v rest t, s.schedule = .regWrite (s.platform.blockBase + 0x0C) .word v :: rest →
        v.getLsbD 0 = false → step s = .next t → irq t = false ∧ t.done = s.done ∧ t.err = s.err)
    ∧ ∀ v, irq { s with ovr := v } = irq s

/-! Arithmetic -/

/-- The stride is the least multiple of 4 that holds a row's pixel bytes (40_stride.md R110). -/
def Obligations.StrideIsTheLeastMultipleOfFour : Prop :=
  ∀ W N : Nat, 1 ≤ W → N = 3 ∨ N = 4 →
    stride W N % 4 = 0 ∧ W * N ≤ stride W N ∧ stride W N ≤ W * N + 3 ∧ stride W N = (W * N + 3) / 4 * 4
    ∧ ∀ q, W * N ≤ q * 4 → stride W N ≤ q * 4

/-- The row padding (40_stride.md R111). -/
def Obligations.RowPaddingIsWidthModFour : Prop :=
  ∀ W : Nat, pad W 4 = 0 ∧ pad W 3 = W % 4 ∧ pad W 3 = (4 - 3 * W % 4) % 4 ∧ pad W 3 = stride W 3 - W * 3

/-- The row maps are bijections of `[0, H)` onto itself and their own inverses, and the encode map is the decode map of a
bottom-up image (41_decode.md R132, 42_encode.md R162). -/
def Obligations.RowMapsAreTheirOwnInverses : Prop :=
  ∀ H y : Nat, y < H →
    srcRow true H y = y ∧ srcRow false H y = H - 1 - y ∧ dstRow H y = H - 1 - y
    ∧ srcRow false H y < H ∧ dstRow H y < H
    ∧ srcRow false H (srcRow false H y) = y ∧ dstRow H (dstRow H y) = y ∧ srcRow true H (srcRow true H y) = y

/-- No size, row offset, window end or result of any command reaches 2^64, so nothing wraps in its register (40_stride.md
R113, 00_scope.md R8). -/
def Obligations.EveryQuantityFitsSixtyFourBits : Prop :=
  ∀ (o : OperandRegs),
    (∀ g, decodeGeometry o = .ok g →
      g.stride ≤ 2 ^ 33 - 4 ∧ g.stride * g.absHeight ≤ 2 ^ 64 - 2 ^ 33 ∧ g.outLen ≤ 2 ^ 64 - 2 ^ 33 ∧ g.extent < 2 ^ 64
      ∧ (decodeSrc o g).hi < 2 ^ 64 ∧ (decodeDst o g).hi < 2 ^ 64
      ∧ ∀ y < g.absHeight,
        g.dataOffset + srcRow g.topDown g.absHeight y * g.stride < 2 ^ 64 ∧ y * g.width * 4 < 2 ^ 64)
    ∧ (∀ g, encodeGeometry o = .ok g →
      g.stride ≤ 2 ^ 33 - 4 ∧ g.inLen < 2 ^ 64 ∧ g.pixelDataSize < 2 ^ 64 ∧ g.fileSize < 2 ^ 64
      ∧ (encodeSrc o g).hi < 2 ^ 64 ∧ (encodeDst o g).hi < 2 ^ 64
      ∧ ∀ y < g.height, y * g.width * 4 < 2 ^ 64 ∧ dstRow g.height y * g.stride < 2 ^ 64)
    ∧ ∀ m f x y z,
      strideCommand o = .ok (.results x y z) ∨ decCheckCommand o = .ok (.results x y z)
        ∨ encCheckCommand o = .ok (.results x y z) ∨ rowmapDecCommand o = .ok (.results x y z)
        ∨ rowmapEncCommand o = .ok (.results x y z)
        ∨ (decodeFrame o m = .ok f ∨ encodeFrame o m = .ok f) ∧ f.result = .results x y z →
      x < 2 ^ 64 ∧ y < 2 ^ 64 ∧ z < 2 ^ 64

/-! The commands that touch no memory -/

/-- STRIDE (40_stride.md R114): its errors in their order, and its results. -/
def Obligations.StrideReportsStrideRowBytesAndPadding : Prop :=
  ∀ (s : State) (w : WorkingCopy), s.phase = .busy w →
    (¬ DepthOk w.ops →
      exec .stride s = .next { s with errcode := some .unsupportedBitDepth, err := true, phase := .idle })
    ∧ (DepthOk w.ops → w.ops.width.toInt < 1 →
      exec .stride s = .next { s with errcode := some .badDimension, err := true, phase := .idle })
    ∧ ∀ N W : Nat, w.ops.bpp.toNat = 8 * N → N = 3 ∨ N = 4 → w.ops.width.toInt = W → 1 ≤ W →
      exec .stride s = .next
        { s with
          result0 := BitVec.ofNat 64 (rowBytes W N)
          result1 := BitVec.ofNat 64 (W * N)
          result2 := BitVec.ofNat 64 (rowBytes W N - W * N)
          errcode := none, done := true, phase := .idle }

/-- DEC_CHECK (41_decode.md R131): its errors in their order, and its results. -/
def Obligations.DecCheckValidatesAndReportsSizes : Prop :=
  ∀ (s : State) (w : WorkingCopy), s.phase = .busy w →
    (¬ DepthOk w.ops →
      exec .decCheck s = .next { s with errcode := some .unsupportedBitDepth, err := true, phase := .idle })
    ∧ (DepthOk w.ops → DecodeDimsBad w.ops →
      exec .decCheck s = .next { s with errcode := some .badDimension, err := true, phase := .idle })
    ∧ ∀ N W H : Nat, DecodeShape w.ops N W H →
      (w.ops.srcLen.toNat < w.ops.dataOffset.toNat + rowBytes W N * H →
        exec .decCheck s = .next { s with errcode := some .truncatedData, err := true, phase := .idle })
      ∧ (w.ops.dataOffset.toNat + rowBytes W N * H ≤ w.ops.srcLen.toNat →
        exec .decCheck s = .next
          { s with
            result0 := BitVec.ofNat 64 (rowBytes W N)
            result1 := BitVec.ofNat 64 (w.ops.dataOffset.toNat + rowBytes W N * H)
            result2 := BitVec.ofNat 64 (W * H * 4)
            errcode := none, done := true, phase := .idle })

/-- ROWMAP_DEC (41_decode.md R133): its errors in their order, and its results. -/
def Obligations.RowmapDecReportsWhereARowComesFrom : Prop :=
  ∀ (s : State) (w : WorkingCopy), s.phase = .busy w →
    (¬ DepthOk w.ops →
      exec .rowmapDec s = .next { s with errcode := some .unsupportedBitDepth, err := true, phase := .idle })
    ∧ (DepthOk w.ops → DecodeDimsBad w.ops →
      exec .rowmapDec s = .next { s with errcode := some .badDimension, err := true, phase := .idle })
    ∧ ∀ N W H : Nat, DecodeShape w.ops N W H →
      (H ≤ w.ops.rowIndex.toNat →
        exec .rowmapDec s = .next { s with errcode := some .rowRange, err := true, phase := .idle })
      ∧ (w.ops.rowIndex.toNat < H →
        exec .rowmapDec s = .next
          { s with
            result0 := BitVec.ofNat 64 (fileRowOf w.ops H w.ops.rowIndex.toNat)
            result1 := BitVec.ofNat 64
              (w.ops.dataOffset.toNat + fileRowOf w.ops H w.ops.rowIndex.toNat * rowBytes W N)
            result2 := BitVec.ofNat 64 (w.ops.rowIndex.toNat * W * 4)
            errcode := none, done := true, phase := .idle })

/-- PIX_DEC (41_decode.md R135): B,G,R[,A] of PIX_IN becomes R,G,B,A of PIX_OUT, alpha 0xFF for 24 bits. -/
def Obligations.PixDecReordersOnePixel : Prop :=
  ∀ (s : State) (w : WorkingCopy), s.phase = .busy w →
    (¬ DepthOk w.ops →
      exec .pixDec s = .next { s with errcode := some .unsupportedBitDepth, err := true, phase := .idle })
    ∧ (DepthOk w.ops →
      exec .pixDec s = .next
        { s with
          pixOut := (if w.ops.bpp = 24#32 then 0xFF#8 else w.ops.pixIn.extractLsb' 24 8)
            ++ w.ops.pixIn.extractLsb' 0 8 ++ w.ops.pixIn.extractLsb' 8 8 ++ w.ops.pixIn.extractLsb' 16 8
          errcode := none, done := true, phase := .idle })

/-- ENC_CHECK (42_encode.md R161): its errors in their order, and its results. -/
def Obligations.EncCheckValidatesAndReportsSizes : Prop :=
  ∀ (s : State) (w : WorkingCopy), s.phase = .busy w →
    (EncodeDimsBad w.ops →
      exec .encCheck s = .next { s with errcode := some .badDimension, err := true, phase := .idle })
    ∧ ∀ W H : Nat, EncodeShape w.ops W H →
      (w.ops.srcLen.toNat < W * H * 4 →
        exec .encCheck s = .next { s with errcode := some .bufferTooSmall, err := true, phase := .idle })
      ∧ (W * H * 4 ≤ w.ops.srcLen.toNat → 2 ^ 32 - 1 < 54 + rowBytes W 3 * H →
        exec .encCheck s = .next { s with errcode := some .sizeOverflow, err := true, phase := .idle })
      ∧ (W * H * 4 ≤ w.ops.srcLen.toNat → 54 + rowBytes W 3 * H ≤ 2 ^ 32 - 1 →
        exec .encCheck s = .next
          { s with
            result0 := BitVec.ofNat 64 (rowBytes W 3)
            result1 := BitVec.ofNat 64 (rowBytes W 3 * H)
            result2 := BitVec.ofNat 64 (54 + rowBytes W 3 * H)
            errcode := none, done := true, phase := .idle })

/-- ROWMAP_ENC (42_encode.md R163): its errors in their order, and its results. -/
def Obligations.RowmapEncReportsWhereARowGoes : Prop :=
  ∀ (s : State) (w : WorkingCopy), s.phase = .busy w →
    (EncodeDimsBad w.ops →
      exec .rowmapEnc s = .next { s with errcode := some .badDimension, err := true, phase := .idle })
    ∧ ∀ W H : Nat, EncodeShape w.ops W H →
      (H ≤ w.ops.rowIndex.toNat →
        exec .rowmapEnc s = .next { s with errcode := some .rowRange, err := true, phase := .idle })
      ∧ (w.ops.rowIndex.toNat < H →
        exec .rowmapEnc s = .next
          { s with
            result0 := BitVec.ofNat 64 (H - 1 - w.ops.rowIndex.toNat)
            result1 := BitVec.ofNat 64 (w.ops.rowIndex.toNat * W * 4)
            result2 := BitVec.ofNat 64 ((H - 1 - w.ops.rowIndex.toNat) * rowBytes W 3)
            errcode := none, done := true, phase := .idle })

/-- PIX_ENC (42_encode.md R165): R,G,B,A of PIX_IN becomes B,G,R of PIX_OUT, bits 31:24 zero; it never fails; and PIX_DEC
with BPP = 24 on its output gives PIX_IN back with bits 31:24 replaced by 0xFF. -/
def Obligations.PixEncReordersOnePixel : Prop :=
  ∀ (s : State) (w : WorkingCopy), s.phase = .busy w →
    ∃ p : Word,
      p = 0x00#8 ++ w.ops.pixIn.extractLsb' 0 8 ++ w.ops.pixIn.extractLsb' 8 8 ++ w.ops.pixIn.extractLsb' 16 8
      ∧ exec .pixEnc s = .next { s with pixOut := p, errcode := none, done := true, phase := .idle }
      ∧ ∀ (s' : State) (w' : WorkingCopy), s'.phase = .busy w' → w'.ops.bpp = 24#32 → w'.ops.pixIn = p →
        ∃ t', exec .pixDec s' = .next t' ∧ t'.pixOut = w.ops.pixIn ||| 0xFF000000#32

/-! The frame commands -/

/-- DECODE: the first check that fails, in the order of 41_decode.md R140, ends the command before any memory access. -/
def Obligations.DecodeChecksInOrder : Prop :=
  ∀ (s : State) (w : WorkingCopy), s.phase = .busy w →
    (¬ DepthOk w.ops →
      exec .decode s = .next { s with errcode := some .unsupportedBitDepth, err := true, phase := .idle })
    ∧ (DepthOk w.ops → DecodeDimsBad w.ops →
      exec .decode s = .next { s with errcode := some .badDimension, err := true, phase := .idle })
    ∧ ∀ N W H : Nat, DecodeShape w.ops N W H →
      (w.ops.srcLen.toNat < w.ops.dataOffset.toNat + rowBytes W N * H →
        exec .decode s = .next { s with errcode := some .truncatedData, err := true, phase := .idle })
      ∧ (w.ops.dataOffset.toNat + rowBytes W N * H ≤ w.ops.srcLen.toNat →
        (w.ops.dstLen.toNat < W * H * 4 →
          exec .decode s = .next { s with errcode := some .dstTooSmall, err := true, phase := .idle })
        ∧ (W * H * 4 ≤ w.ops.dstLen.toNat →
          (2 ^ 32 < pixelArray w.ops + rowBytes W N * H ∨ 2 ^ 32 < w.ops.dstBase.toNat + W * H * 4 →
            exec .decode s = .next { s with errcode := some .addressRange, err := true, phase := .idle })
          ∧ (pixelArray w.ops + rowBytes W N * H ≤ 2 ^ 32 → w.ops.dstBase.toNat + W * H * 4 ≤ 2 ^ 32 →
            pixelArray w.ops < w.ops.dstBase.toNat + W * H * 4 →
            w.ops.dstBase.toNat < pixelArray w.ops + rowBytes W N * H →
            exec .decode s = .next { s with errcode := some .overlap, err := true, phase := .idle })))

/-- DECODE succeeds when every check passes and the bus admits its accesses: every byte of the destination window holds its
component of its pixel, rows top-down, and no other byte and no other register changes (41_decode.md R140, R141, R142). -/
def Obligations.DecodeWritesTheTopDownRgbaBuffer : Prop :=
  ∀ (s : State) (w : WorkingCopy) (N W H : Nat), Legal s → s.phase = .busy w → DecodePasses s w.ops N W H →
    BusAdmits s .read (pixelArray w.ops) (pixelArray w.ops + rowBytes W N * H) →
    BusAdmits s .write w.ops.dstBase.toNat (w.ops.dstBase.toNat + W * H * 4) →
    ∃ m, exec .decode s = .next
        { s with
          mem := m, freeCount := s.freeCount + 1
          result0 := BitVec.ofNat 64 (rowBytes W N)
          result1 := BitVec.ofNat 64 (w.ops.dataOffset.toNat + rowBytes W N * H)
          result2 := BitVec.ofNat 64 (W * H * 4)
          errcode := none, done := true, phase := .idle }
      ∧ (∀ y < H, ∀ x < W, ∀ k < 4,
          memRead m (w.ops.dstBase.toNat + (y * W + x) * 4 + k) = decodedByte s.mem w.ops N W H y x k)
      ∧ ∀ a, a < w.ops.dstBase.toNat ∨ w.ops.dstBase.toNat + W * H * 4 ≤ a → memRead m a = memRead s.mem a

/-- DECODE ends with BusError when the bus refuses a read of a pixel byte or a write of a destination byte; each
destination byte is then old or new, nothing else in memory changes, and the results stay (20_memory.md R78, U4). -/
def Obligations.DecodeBusErrorLeavesOldOrNewBytes : Prop :=
  ∀ (s : State) (w : WorkingCopy) (N W H : Nat), Legal s → s.phase = .busy w → DecodePasses s w.ops N W H →
    ((∃ y < H, ∃ x < W, ∃ j < N, s.platform.admits (decodePixelAt w.ops N W H y x + j) .read = false)
      ∨ ∃ j < W * H * 4, s.platform.admits (w.ops.dstBase.toNat + j) .write = false) →
    ∃ m, exec .decode s = .next
        { s with mem := m, freeCount := s.freeCount + 1, errcode := some .busError, err := true, phase := .idle }
      ∧ (∀ y < H, ∀ x < W, ∀ k < 4,
          memRead m (w.ops.dstBase.toNat + (y * W + x) * 4 + k)
              = memRead s.mem (w.ops.dstBase.toNat + (y * W + x) * 4 + k)
            ∨ memRead m (w.ops.dstBase.toNat + (y * W + x) * 4 + k) = decodedByte s.mem w.ops N W H y x k)
      ∧ ∀ a, a < w.ops.dstBase.toNat ∨ w.ops.dstBase.toNat + W * H * 4 ≤ a → memRead m a = memRead s.mem a

/-- ENCODE: the first check that fails, in the order of 42_encode.md R170, ends the command before any memory access. -/
def Obligations.EncodeChecksInOrder : Prop :=
  ∀ (s : State) (w : WorkingCopy), s.phase = .busy w →
    (EncodeDimsBad w.ops →
      exec .encode s = .next { s with errcode := some .badDimension, err := true, phase := .idle })
    ∧ ∀ W H : Nat, EncodeShape w.ops W H →
      (w.ops.srcLen.toNat < W * H * 4 →
        exec .encode s = .next { s with errcode := some .bufferTooSmall, err := true, phase := .idle })
      ∧ (W * H * 4 ≤ w.ops.srcLen.toNat →
        (2 ^ 32 - 1 < 54 + rowBytes W 3 * H →
          exec .encode s = .next { s with errcode := some .sizeOverflow, err := true, phase := .idle })
        ∧ (54 + rowBytes W 3 * H ≤ 2 ^ 32 - 1 →
          (w.ops.dstLen.toNat < rowBytes W 3 * H →
            exec .encode s = .next { s with errcode := some .dstTooSmall, err := true, phase := .idle })
          ∧ (rowBytes W 3 * H ≤ w.ops.dstLen.toNat →
            (2 ^ 32 < w.ops.srcBase.toNat + W * H * 4 ∨ 2 ^ 32 < w.ops.dstBase.toNat + rowBytes W 3 * H →
              exec .encode s = .next { s with errcode := some .addressRange, err := true, phase := .idle })
            ∧ (w.ops.srcBase.toNat + W * H * 4 ≤ 2 ^ 32 → w.ops.dstBase.toNat + rowBytes W 3 * H ≤ 2 ^ 32 →
              w.ops.srcBase.toNat < w.ops.dstBase.toNat + rowBytes W 3 * H →
              w.ops.dstBase.toNat < w.ops.srcBase.toNat + W * H * 4 →
              exec .encode s = .next { s with errcode := some .overlap, err := true, phase := .idle }))))

/-- ENCODE succeeds when every check passes and the bus admits its accesses: every byte of the pixel array holds its
component or zero padding, rows bottom-up, and no other byte and no other register changes (42_encode.md R170, R171). -/
def Obligations.EncodeWritesTheBottomUpPixelArray : Prop :=
  ∀ (s : State) (w : WorkingCopy) (W H : Nat), Legal s → s.phase = .busy w → EncodePasses s w.ops W H →
    BusAdmits s .read w.ops.srcBase.toNat (w.ops.srcBase.toNat + W * H * 4) →
    BusAdmits s .write w.ops.dstBase.toNat (w.ops.dstBase.toNat + rowBytes W 3 * H) →
    ∃ m, exec .encode s = .next
        { s with
          mem := m, freeCount := s.freeCount + 1
          result0 := BitVec.ofNat 64 (rowBytes W 3)
          result1 := BitVec.ofNat 64 (rowBytes W 3 * H)
          result2 := BitVec.ofNat 64 (54 + rowBytes W 3 * H)
          errcode := none, done := true, phase := .idle }
      ∧ (∀ r < H, ∀ c < rowBytes W 3,
          memRead m (w.ops.dstBase.toNat + r * rowBytes W 3 + c) = encodedByte s.mem w.ops W H r c)
      ∧ ∀ a, a < w.ops.dstBase.toNat ∨ w.ops.dstBase.toNat + rowBytes W 3 * H ≤ a → memRead m a = memRead s.mem a

/-- ENCODE ends with BusError when the bus refuses a read of an R, G or B byte or a write of a destination byte; each
destination byte is then old or new, nothing else in memory changes, and the results stay (20_memory.md R78, U4). -/
def Obligations.EncodeBusErrorLeavesOldOrNewBytes : Prop :=
  ∀ (s : State) (w : WorkingCopy) (W H : Nat), Legal s → s.phase = .busy w → EncodePasses s w.ops W H →
    ((∃ y < H, ∃ x < W, ∃ j < 3, s.platform.admits (w.ops.srcBase.toNat + (y * W + x) * 4 + j) .read = false)
      ∨ ∃ j < rowBytes W 3 * H, s.platform.admits (w.ops.dstBase.toNat + j) .write = false) →
    ∃ m, exec .encode s = .next
        { s with mem := m, freeCount := s.freeCount + 1, errcode := some .busError, err := true, phase := .idle }
      ∧ (∀ r < H, ∀ c < rowBytes W 3,
          memRead m (w.ops.dstBase.toNat + r * rowBytes W 3 + c)
              = memRead s.mem (w.ops.dstBase.toNat + r * rowBytes W 3 + c)
            ∨ memRead m (w.ops.dstBase.toNat + r * rowBytes W 3 + c) = encodedByte s.mem w.ops W H r c)
      ∧ ∀ a, a < w.ops.dstBase.toNat ∨ w.ops.dstBase.toNat + rowBytes W 3 * H ≤ a → memRead m a = memRead s.mem a

/-- The completion of a frame command past its checks with a window byte on memory that is not ordinary is refused
(70_reset_and_hazards.md R232, 93_implementation_defined.md U3 "refuse"). -/
def Obligations.FrameWindowOnADeviceIsRefused : Prop :=
  ∀ (s : State) (w : WorkingCopy) (f : Frame) (a : Nat), s.phase = .busy w → s.platform.isDevice a = true →
    f.src.has a = true ∨ f.dst.has a = true →
    (decodeFrame w.ops s.mem = .ok f → exec .decode s = .refused .windowNotOrdinaryMemory)
    ∧ (encodeFrame w.ops s.mem = .ok f → exec .encode s = .refused .windowNotOrdinaryMemory)

/-- The order of a frame command's writes is not observable: every order gives the same memory (20_memory.md R71). -/
def Obligations.OrderOfWritesIsNotObservable : Prop :=
  ∀ (s : State) (o : OperandRegs) (f : Frame) (cs : List Host.Cell), Legal s →
    decodeFrame o s.mem = .ok f ∨ encodeFrame o s.mem = .ok f → f.writes.Perm cs →
    writeCells s.mem cs = writeCells s.mem f.writes

/-- DECODE's pixels may be read and written one after the other in any order, each read seeing the writes before it: the
memory is that of the command (20_memory.md R71, 41_decode.md R140). -/
def Obligations.DecodeMayReadAndWritePixelsInAnyOrder : Prop :=
  ∀ (s : State) (o : OperandRegs) (g : DecodeGeometry) (f : Frame) (ps : List (Nat × Nat)), Legal s →
    decodeGeometry o = .ok g → decodeFrame o s.mem = .ok f → (rowMajor g.width g.absHeight).Perm ps →
    ps.foldl (fun m p => writeCells m (cellsAt (decodeTo o g p.1 p.2)
        (decPix g.bytesPerPixel (readBytes m (decodeFrom o g p.1 p.2) g.bytesPerPixel)))) s.mem
      = writeCells s.mem f.writes

/-- ENCODE's pixels and padding bytes may be read and written one after the other in any order, each read seeing the writes
before it: the memory is that of the command (20_memory.md R71, 42_encode.md R170). -/
def Obligations.EncodeMayReadAndWritePixelsInAnyOrder : Prop :=
  ∀ (s : State) (o : OperandRegs) (g : EncodeGeometry) (f : Frame) (us : List EncodeUnit), Legal s →
    encodeGeometry o = .ok g → encodeFrame o s.mem = .ok f → (encodeUnits g).Perm us →
    us.foldl (fun m u => writeCells m (encodeUnitCells o g m u)) s.mem = writeCells s.mem f.writes

/-- A frame command that completes, with success or any error, leaves its source window as it was (41_decode.md R143; for
ENCODE by the same refusal of overlapping windows). -/
def Obligations.FrameCommandsNeverChangeTheirSource : Prop :=
  ∀ (s t : State) (w : WorkingCopy) (a : Nat), s.phase = .busy w →
    (∀ N W H, DecodeShape w.ops N W H → exec .decode s = .next t →
      pixelArray w.ops ≤ a → a < pixelArray w.ops + rowBytes W N * H → memRead t.mem a = memRead s.mem a)
    ∧ ∀ W H, EncodeShape w.ops W H → exec .encode s = .next t →
      w.ops.srcBase.toNat ≤ a → a < w.ops.srcBase.toNat + W * H * 4 → memRead t.mem a = memRead s.mem a

/-- Encoding an RGBA buffer and decoding the pixel array gives every R, G and B byte back, and alpha 0xFF
(95_test_vectors.md W1, from R140 and R170). -/
def Obligations.DecodeOfEncodeRestoresThePixels : Prop :=
  ∀ (s t u v : State) (we wd : WorkingCopy) (W H : Nat), Legal s →
    s.phase = .busy we → EncodePasses s we.ops W H → exec .encode s = .next t → t.errcode = none →
    u.mem = t.mem → u.phase = .busy wd → wd.ops.bpp = 24#32 → wd.ops.width = we.ops.width →
    wd.ops.height = we.ops.height → pixelArray wd.ops = we.ops.dstBase.toNat → DecodePasses u wd.ops 3 W H →
    exec .decode u = .next v → v.errcode = none →
    ∀ y < H, ∀ x < W,
      (∀ k < 3, memRead v.mem (wd.ops.dstBase.toNat + (y * W + x) * 4 + k)
        = memRead s.mem (we.ops.srcBase.toNat + (y * W + x) * 4 + k))
      ∧ memRead v.mem (wd.ops.dstBase.toNat + (y * W + x) * 4 + 3) = 0xFF#8

/-! Every command -/

/-- What every completion leaves: the phase is IDLE; a success sets DONE and ERRCODE 0x00; an error sets ERR and its code and
changes neither RESULT0..2 nor PIX_OUT; no configuration register, IE, OVR, cached byte, parameter or scheduled event
changes; and no byte of memory changes but those of the destination window of a DECODE or ENCODE whose geometry passes
(60_exceptions.md R195, R196, R197, 20_memory.md R60). -/
def Obligations.CompletionWritesOnlyResultAndStatus : Prop :=
  ∀ (i : Instr) (s t : State), exec i s = .next t →
    t.phase = .idle ∧ t.ops = s.ops ∧ t.ie = s.ie ∧ t.ovr = s.ovr ∧ t.hostCache = s.hostCache
    ∧ t.platform = s.platform ∧ t.schedule = s.schedule ∧ t.lastRead = s.lastRead
    ∧ (t.errcode = none ∧ t.done = true ∧ t.err = s.err
      ∨ ∃ e, t.errcode = some e ∧ t.err = true ∧ t.done = s.done ∧ t.pixOut = s.pixOut ∧ t.result0 = s.result0
          ∧ t.result1 = s.result1 ∧ t.result2 = s.result2)
    ∧ (i ≠ .decode → i ≠ .encode → t.mem = s.mem ∧ t.freeCount = s.freeCount)
    ∧ ∀ w a, s.phase = .busy w →
      (i = .decode →
        (∀ N W H, DecodeShape w.ops N W H → a < w.ops.dstBase.toNat ∨ w.ops.dstBase.toNat + W * H * 4 ≤ a) →
        memRead t.mem a = memRead s.mem a)
      ∧ (i = .encode →
        (∀ W H, EncodeShape w.ops W H → a < w.ops.dstBase.toNat ∨ w.ops.dstBase.toNat + rowBytes W 3 * H ≤ a) →
        memRead t.mem a = memRead s.mem a)

/-- An error other than BusError leaves all of memory unchanged (60_exceptions.md R196). -/
def Obligations.ErrorsBeforeTheTransferLeaveMemory : Prop :=
  ∀ (i : Instr) (s t : State) (e : CmdError), exec i s = .next t → t.errcode = some e → e ≠ .busError → t.mem = s.mem

/-- PIX_DEC and PIX_ENC never change RESULT0..2, and no other command changes PIX_OUT (10_state.md R43, R44). -/
def Obligations.EachCommandWritesOnlyItsResults : Prop :=
  ∀ (i : Instr) (s t : State), exec i s = .next t →
    (i = .pixDec ∨ i = .pixEnc → t.result0 = s.result0 ∧ t.result1 = s.result1 ∧ t.result2 = s.result2)
    ∧ (i ≠ .pixDec → i ≠ .pixEnc → t.pixOut = s.pixOut)

/-- Only DECODE and ENCODE touch memory: no other command changes it, and no other command's outcome depends on it
(20_memory.md R60). -/
def Obligations.OnlyFrameCommandsTouchMemory : Prop :=
  ∀ (i : Instr) (s : State), i ≠ .decode → i ≠ .encode →
    (∀ t, exec i s = .next t → t.mem = s.mem ∧ t.freeCount = s.freeCount)
    ∧ ∀ m : Memory, exec i { s with mem := m } = mapNext (fun t => { t with mem := m }) (exec i s)

/-- The block raises no error that is the host's: codes 0x01 to 0x04, 0x08 and 0x09 never appear, nor any code outside the
table (60_exceptions.md R191). -/
def Obligations.CommandsRaiseOnlyTheBlocksErrors : Prop :=
  ∀ (i : Instr) (s t : State), exec i s = .next t →
    errcodeField t.errcode ∈ [0x00#8, 0x05#8, 0x06#8, 0x07#8, 0x10#8, 0x11#8, 0x12#8, 0x13#8, 0x14#8, 0x15#8, 0x17#8]

/-- The code that a read of STATUS shows in bits 15:8 for each error the block raises, and 0x00 for none (60_exceptions.md
R191, 10_state.md R26, R31). -/
def Obligations.ErrcodeShowsTheCodeOfEachError : Prop :=
  ∀ (s : State) (rest : List Event), s.schedule = .regRead (s.platform.blockBase + 0x08) .word :: rest →
    ∃ v : Word, step s = .next { s with schedule := rest, lastRead := some v }
      ∧ (s.errcode = none → v.extractLsb' 8 8 = 0x00#8)
      ∧ (s.errcode = some .unsupportedBitDepth → v.extractLsb' 8 8 = 0x05#8)
      ∧ (s.errcode = some .truncatedData → v.extractLsb' 8 8 = 0x06#8)
      ∧ (s.errcode = some .bufferTooSmall → v.extractLsb' 8 8 = 0x07#8)
      ∧ (s.errcode = some .badDimension → v.extractLsb' 8 8 = 0x10#8)
      ∧ (s.errcode = some .sizeOverflow → v.extractLsb' 8 8 = 0x11#8)
      ∧ (s.errcode = some .dstTooSmall → v.extractLsb' 8 8 = 0x12#8)
      ∧ (s.errcode = some .addressRange → v.extractLsb' 8 8 = 0x13#8)
      ∧ (s.errcode = some .overlap → v.extractLsb' 8 8 = 0x14#8)
      ∧ (s.errcode = some .rowRange → v.extractLsb' 8 8 = 0x15#8)
      ∧ (s.errcode = some .badCommand → v.extractLsb' 8 8 = 0x16#8)
      ∧ (s.errcode = some .busError → v.extractLsb' 8 8 = 0x17#8)

/-- A field of the working copy that 30_encoding.md R96 does not list for a command cannot affect its outcome. -/
def Obligations.UnlistedOperandsHaveNoEffect : Prop :=
  ∀ (i : Instr) (s : State) (c c' : Word) (o o' : OperandRegs), sameReads i o o' →
    exec i { s with phase := .busy { cmd := c, ops := o } } = exec i { s with phase := .busy { cmd := c', ops := o' } }

/-- The configuration registers do not affect a command in progress: only its working copy does (10_state.md R45). -/
def Obligations.RunningCommandSeesOnlyItsWorkingCopy : Prop :=
  ∀ (i : Instr) (s : State) (o : OperandRegs),
    exec i { s with ops := o } = mapNext (fun t => { t with ops := o }) (exec i s)

/-- With no device region on the platform, a host that polls STATUS sees every command complete: after its polls the block's
turn ends the command, and the next poll reads BUSY = 0 with DONE or ERR (70_reset_and_hazards.md R237, 30_encoding.md R97
`wait`). That the polls before the turn are LATENCY, and that the turn comes by itself once nothing is scheduled, is the
model's choice, logs 2 and 17. -/
def Obligations.EveryCommandCompletesAfterPolling : Prop :=
  ∀ (n : Nat) (s : State) (w : WorkingCopy), s.phase = .busy w → s.platform.devices = [] →
    (s.schedule = List.replicate n (.regRead (s.platform.blockBase + 0x08) .word) →
      ∃ t, core.run (n + 1) s = .next t ∧ t.phase = .idle ∧ (t.done = true ∨ t.err = true) ∧ t.schedule = [])
    ∧ (s.schedule = List.replicate n (.regRead (s.platform.blockBase + 0x08) .word)
        ++ [.blockStep, .regRead (s.platform.blockBase + 0x08) .word] →
      ∃ t v, core.run (n + 2) s = .next t ∧ t.phase = .idle ∧ t.lastRead = some v ∧ v.getLsbD 0 = false
        ∧ (v.getLsbD 1 = true ∨ v.getLsbD 2 = true) ∧ t.schedule = [])

/-- Straight after reset, on every platform, a CMD write of any command but PIX_ENC ends in BadDimension or
UnsupportedBitDepth, and one of PIX_ENC succeeds (70_reset_and_hazards.md R225). -/
def Obligations.ResetOperandsFailEveryCommandButPixEnc : Prop :=
  ∀ (i : Instr) (p : Platform), ∃ t,
    core.run 2 { State.reset with
        platform := p, schedule := [.regWrite (p.blockBase + 0x04) .word (encode i), .blockStep] } = .next t
    ∧ (i = .pixEnc → t.done = true ∧ t.errcode = none)
    ∧ (i ≠ .pixEnc → t.err = true ∧ (t.errcode = some .badDimension ∨ t.errcode = some .unsupportedBitDepth))

/-! Memory, its other users, and the invariant -/

/-- Window exclusion: while a frame command runs, an agent that writes a byte of its source or destination window, or reads a
byte of its destination window, faults, and so does a cache clean that would write such a byte; a read of a source byte is
harmless (70_reset_and_hazards.md R231, U2). A write of several bytes faults at its first byte in a window, when no byte
before it stops the write. The windows are those of the geometry, also where a later check of the command fails: the model's
inference, log 13. The cache is the model's, log 6. -/
def Obligations.WindowExclusionFaults : Prop :=
  ∀ (s : State) (w : WorkingCopy) (src dst : Window) (agent : Agent) (a : Nat) (rest : List Event),
    s.phase = .busy w → RunningFrame w src dst → a < 2 ^ 32 →
    (∀ bytes k, s.schedule = .memWrite agent a bytes :: rest → k < bytes.length → a + k < 2 ^ 32 →
      src.has (a + k) = true ∨ dst.has (a + k) = true →
      (∀ j < k, src.has (a + j) = false ∧ dst.has (a + j) = false ∧ s.platform.isDevice (a + j) = false) →
      step s = .fault (.windowExclusion (a + k)))
    ∧ (s.schedule = .memRead agent a :: rest → dst.has a = true → step s = .fault (.windowExclusion a))
    ∧ (s.schedule = .memRead agent a :: rest → dst.has a = false → s.platform.isDevice a = false →
      ∃ t, step s = .next t ∧ t.mem = s.mem ∧ t.phase = s.phase)
    ∧ ∀ cw c, s.schedule = .cacheClean cw :: rest → s.platform.dmaCoherent = false → HostCache.wf s.hostCache →
      cacheFind s.hostCache a = some c → c.dirty = true → cw.has a = true → src.has a = true ∨ dst.has a = true →
      (∀ b c', cacheFind s.hostCache b = some c' → c'.dirty = true → cw.has b = true → s.platform.isDevice b = false) →
      ∃ b, step s = .fault (.windowExclusion b) ∧ (src.has b = true ∨ dst.has b = true)

/-- Memory is ordinary: on a coherent platform a read returns the last value written, whoever wrote it, and a write changes
its own byte alone (20_memory.md R61). -/
def Obligations.ReadReturnsTheLastByteWritten : Prop :=
  ∀ (s : State) (agent agent' : Agent) (a : Nat) (b : Byte), Legal s → s.phase = .idle → s.platform.dmaCoherent = true →
    a < 2 ^ 32 → s.platform.isDevice a = false → s.schedule = [.memWrite agent a [b], .memRead agent' a] →
    ∃ t, core.run 2 s = .next t ∧ t.lastRead = some (b.setWidth 32)
      ∧ ∀ a', a' ≠ a → memRead t.mem a' = memRead s.mem a'

/-- On a platform that is not coherent, a host write does not reach memory until the host cleans its caches, and the host
reads its cached byte until it invalidates it (20_memory.md R77, 70_reset_and_hazards.md R235; the cache itself is the
model's, log 6). -/
def Obligations.NonCoherentHostNeedsCacheMaintenance : Prop :=
  ∀ (s : State) (a : Nat) (b : Byte), Legal s → s.phase = .idle → s.platform.dmaCoherent = false → a < 2 ^ 32 →
    s.platform.isDevice a = false →
    (∀ rest, s.schedule = .memWrite .host a [b] :: .cacheClean ⟨a, a + 1⟩ :: rest →
      ∃ t u, step s = .next t ∧ t.mem = s.mem ∧ step t = .next u ∧ memRead u.mem a = b)
    ∧ ∀ c, cacheFind s.hostCache a = some c →
      s.schedule = [.memRead .host a, .cacheInvalidate ⟨a, a + 1⟩, .memRead .host a] →
      ∃ t u v, step s = .next t ∧ t.lastRead = some (c.byte.setWidth 32) ∧ step t = .next u
        ∧ step u = .next v ∧ v.lastRead = some ((memRead s.mem a).setWidth 32)

/-- The header the host writes for an encoded file passes the host's own checks and loads the registers of a decode of that
file: the width, the height, 24 bits, data offset 54 (42_encode.md R172, 60_exceptions.md R207). -/
def Obligations.WrittenHeaderLoadsBack : Prop :=
  ∀ (m : Memory) (file len : Nat) (width height imageSize fileSize : Word) (o : OperandRegs),
    Memory.wf m → 54 ≤ len →
    let m' := writeCells m (cellsAt file (fileHeader width height imageSize fileSize))
    hostChecks m' file len = .ok ()
    ∧ hostLoads m' file len o =
        { o with srcBase := BitVec.ofNat 32 file, srcLen := BitVec.ofNat 32 len, dataOffset := 54#32,
                 width := width, height := height, bpp := 24#32 }
    ∧ ∀ a, a < file ∨ file + 54 ≤ a → memRead m' a = memRead m a

/-- No step changes a parameter of the platform (10_state.md R20: they are parameters, not state). -/
def Obligations.NoStepChangesThePlatform : Prop :=
  ∀ s t : State, step s = .next t → t.platform = s.platform

/-- The results and ERRCODE change only in a step that ends a command, and at reset: host accesses, acceptance and the clearing
of STATUS bits leave them (70_reset_and_hazards.md R233, 10_state.md R31). -/
def Obligations.ResultsChangeOnlyAtCompletionOrReset : Prop :=
  ∀ s t : State, step s = .next t → (∀ rest, s.schedule ≠ .reset :: rest) →
    ((∃ w, s.phase = .busy w) ∧ t.phase = .idle)
    ∨ t.errcode = s.errcode ∧ t.pixOut = s.pixOut ∧ t.result0 = s.result0 ∧ t.result1 = s.result1
      ∧ t.result2 = s.result2

/-- The state after reset is legal. -/
def Obligations.ResetStateIsLegal : Prop := Legal State.reset

/-- Every step keeps the legal states: memory and cache in canonical form, DONE and ERR never both set (10_state.md R29),
both clear while BUSY (R45), ERRCODE in accord with them (R31) and only with the block's errors (60_exceptions.md R191). -/
def Obligations.EveryStepKeepsTheStateLegal : Prop :=
  ∀ s t : State, Legal s → step s = .next t → Legal t
end

