-- ==== Sys2Proof/Laws/Memory.lean ====
section
/-! SUPPORT. The laws of memory: a read after a write, the canonical form kept by every operation, and what a list of cells
written in turn leaves. -/

namespace Sys2Proof.Machine

variable {m : Memory} {a a' : Nat} {b : Byte}

/-! Windows (00_scope.md R10) -/

@[simp] theorem Window.has_iff {w : Window} : w.has a = true ↔ w.lo ≤ a ∧ a < w.hi := by
  simp [Window.has]

@[simp] theorem Window.has_false {w : Window} : w.has a = false ↔ a < w.lo ∨ w.hi ≤ a := by
  simp only [Window.has, decide_eq_false_iff_not]
  omega

@[simp] theorem Window.meets_iff {v w : Window} :
    v.meets w = true ↔ v.lo < v.hi ∧ w.lo < w.hi ∧ v.lo < w.hi ∧ w.lo < v.hi := by
  simp [Window.meets]

theorem Window.mem_addrs {w : Window} : a ∈ w.addrs ↔ w.lo ≤ a ∧ a < w.hi := by
  simp only [Window.addrs, List.mem_range'_1]
  omega

/-! Reads and writes of one byte -/

theorem memRead_consByte_other (h : a' ≠ a) : memRead (consByte a b m) a' = memRead m a' := by
  unfold consByte
  split
  · rfl
  · simp [memRead, Ne.symm h]

/-- A write leaves every other byte alone. -/
theorem memRead_memWrite_other (h : a' ≠ a) : memRead (memWrite m a b) a' = memRead m a' := by
  induction m with
  | nil => exact memRead_consByte_other h
  | cons c m ih =>
    unfold memWrite
    split
    · exact memRead_consByte_other h
    · split
      · rename_i e
        rw [memRead_consByte_other h, memRead, if_neg (by omega)]
      · simp only [memRead, ih]

/-- An address below every listed one reads as a byte nothing has written. -/
theorem memRead_blank (h : ∀ c ∈ m, a < c.1) : memRead m a = Config.blankByte := by
  induction m with
  | nil => rfl
  | cons c m ih =>
    have hc := h c (by simp)
    rw [memRead, if_neg (by omega)]
    exact ih fun d hd => h d (by simp [hd])

theorem memRead_consByte_same (h : ∀ c ∈ m, a < c.1) : memRead (consByte a b m) a = b := by
  unfold consByte
  split
  · rename_i e
    rw [memRead_blank h, e]
  · simp [memRead]

/-- A read after a write to the same place gives the value written. -/
theorem memRead_memWrite_same (h : m.Pairwise (fun x y => x.1 < y.1)) : memRead (memWrite m a b) a = b := by
  induction m with
  | nil => exact memRead_consByte_same (by simp)
  | cons c m ih =>
    obtain ⟨hc, hm⟩ := List.pairwise_cons.mp h
    unfold memWrite
    split
    · rename_i e
      refine memRead_consByte_same fun d hd => ?_
      rcases List.mem_cons.mp hd with rfl | hd
      · exact e
      · exact Nat.lt_trans e (hc d hd)
    · split
      · rename_i e
        exact memRead_consByte_same fun d hd => by have := hc d hd; omega
      · rw [memRead, if_neg (by omega)]
        exact ih hm

theorem mem_consByte {c : Host.Cell} (h : c ∈ consByte a b m) : c = (a, b) ∧ b ≠ Config.blankByte ∨ c ∈ m := by
  unfold consByte at h
  split at h
  · exact .inr h
  · rename_i e
    rcases List.mem_cons.mp h with rfl | h
    · exact .inl ⟨rfl, e⟩
    · exact .inr h

/-- A listed byte after a write is the written one or was listed before. -/
theorem mem_memWrite {c : Host.Cell} (h : c ∈ memWrite m a b) : c = (a, b) ∧ b ≠ Config.blankByte ∨ c ∈ m := by
  induction m with
  | nil => exact mem_consByte h
  | cons d m ih =>
    unfold memWrite at h
    split at h
    · exact mem_consByte h
    · split at h
      · exact (mem_consByte h).imp_right fun h => by simp [h]
      · rcases List.mem_cons.mp h with rfl | h
        · simp
        · exact (ih h).imp_right fun h => by simp [h]

theorem consByte_sorted (hm : m.Pairwise (fun x y => x.1 < y.1)) (h : ∀ c ∈ m, a < c.1) :
    (consByte a b m).Pairwise (fun x y => x.1 < y.1) := by
  unfold consByte
  split
  · exact hm
  · exact List.pairwise_cons.mpr ⟨h, hm⟩

theorem memWrite_sorted (h : m.Pairwise (fun x y => x.1 < y.1)) :
    (memWrite m a b).Pairwise (fun x y => x.1 < y.1) := by
  induction m with
  | nil => exact consByte_sorted h (by simp)
  | cons c m ih =>
    obtain ⟨hc, hm⟩ := List.pairwise_cons.mp h
    unfold memWrite
    split
    · rename_i e
      refine consByte_sorted h fun d hd => ?_
      rcases List.mem_cons.mp hd with rfl | hd
      · exact e
      · exact Nat.lt_trans e (hc d hd)
    · split
      · rename_i e
        exact consByte_sorted hm fun d hd => by have := hc d hd; omega
      · refine List.pairwise_cons.mpr ⟨fun d hd => ?_, ih hm⟩
        rcases mem_memWrite hd with ⟨rfl, -⟩ | hd
        · simp only; omega
        · exact hc d hd

/-- A write inside the address space keeps the canonical form. -/
theorem memWrite_wf (h : Memory.wf m) (ha : a < Config.addressSpace) : Memory.wf (memWrite m a b) := by
  refine ⟨memWrite_sorted h.1, fun c hc => ?_⟩
  rcases mem_memWrite hc with ⟨rfl, hb⟩ | hc
  · exact ⟨hb, ha⟩
  · exact h.2 c hc

/-- Equal memories are equal data: a memory in canonical form is what it reads as. -/
theorem memory_ext {m m' : Memory} (h : Memory.wf m) (h' : Memory.wf m') (e : ∀ a, memRead m a = memRead m' a) :
    m = m' := by
  induction m generalizing m' with
  | nil =>
    cases m' with
    | nil => rfl
    | cons c m' =>
      exact absurd (by simpa [memRead] using (e c.1).symm) (h'.2 c (by simp)).1
  | cons c m ih =>
    obtain ⟨hc, hm⟩ := List.pairwise_cons.mp h.1
    cases m' with
    | nil => exact absurd (by simpa [memRead] using e c.1) (h.2 c (by simp)).1
    | cons d m' =>
      obtain ⟨hd, hm'⟩ := List.pairwise_cons.mp h'.1
      have hk : c.1 = d.1 := by
        rcases Nat.lt_trichotomy c.1 d.1 with lt | eq | gt
        · have := e c.1
          rw [memRead_blank (m := d :: m') (a := c.1)] at this
          · exact absurd (by simpa [memRead] using this) (h.2 c (by simp)).1
          · intro x hx
            rcases List.mem_cons.mp hx with rfl | hx
            · exact lt
            · exact Nat.lt_trans lt (hd x hx)
        · exact eq
        · have := e d.1
          rw [memRead_blank (m := c :: m) (a := d.1)] at this
          · exact absurd (by simpa [memRead] using this.symm) (h'.2 d (by simp)).1
          · intro x hx
            rcases List.mem_cons.mp hx with rfl | hx
            · exact gt
            · exact Nat.lt_trans gt (hc x hx)
      have hv : c.2 = d.2 := by simpa [memRead, hk] using e c.1
      have hcd : c = d := Prod.ext hk hv
      subst hcd
      congr 1
      refine ih ⟨hm, fun x hx => h.2 x (by simp [hx])⟩ ⟨hm', fun x hx => h'.2 x (by simp [hx])⟩ fun a => ?_
      by_cases ha : c.1 = a
      · subst ha
        rw [memRead_blank hc, memRead_blank hd]
      · simpa [memRead, ha] using e a

/-! Lists of cells written in turn -/

@[simp] theorem writeCells_nil : writeCells m [] = m := rfl

@[simp] theorem writeCells_cons (c : Host.Cell) (cs : List Host.Cell) :
    writeCells m (c :: cs) = writeCells (memWrite m c.1 c.2) cs := rfl

theorem writeCells_append (cs ds : List Host.Cell) : writeCells m (cs ++ ds) = writeCells (writeCells m cs) ds := by
  simp [writeCells]

/-- Cells written leave every address they do not name alone. -/
theorem memRead_writeCells_other {cs : List Host.Cell} (h : ∀ c ∈ cs, c.1 ≠ a) :
    memRead (writeCells m cs) a = memRead m a := by
  induction cs generalizing m with
  | nil => rfl
  | cons c cs ih =>
    rw [writeCells_cons, ih fun d hd => h d (by simp [hd])]
    exact memRead_memWrite_other (Ne.symm (h c (by simp)))

theorem writeCells_sorted {cs : List Host.Cell} (h : m.Pairwise (fun x y => x.1 < y.1)) :
    (writeCells m cs).Pairwise (fun x y => x.1 < y.1) := by
  induction cs generalizing m with
  | nil => exact h
  | cons c cs ih => exact ih (memWrite_sorted h)

/-- Cells inside the address space keep the canonical form. -/
theorem writeCells_wf {cs : List Host.Cell} (h : Memory.wf m) (hc : ∀ c ∈ cs, c.1 < Config.addressSpace) :
    Memory.wf (writeCells m cs) := by
  induction cs generalizing m with
  | nil => exact h
  | cons c cs ih => exact ih (memWrite_wf h (hc c (by simp))) fun d hd => hc d (by simp [hd])

/-- Of cells that name no address twice, each one is what memory reads afterwards. -/
theorem memRead_writeCells_mem {cs : List Host.Cell} (h : m.Pairwise (fun x y => x.1 < y.1))
    (hd : cs.Pairwise (fun x y => x.1 ≠ y.1)) (hm : (a, b) ∈ cs) : memRead (writeCells m cs) a = b := by
  induction cs generalizing m with
  | nil => simp at hm
  | cons c cs ih =>
    obtain ⟨hc, hcs⟩ := List.pairwise_cons.mp hd
    rcases List.mem_cons.mp hm with e | hm
    · subst e
      rw [writeCells_cons, memRead_writeCells_other fun d hd => (hc d hd).symm]
      exact memRead_memWrite_same h
    · exact ih (memWrite_sorted h) hcs hm

/-- Cells that name no address twice give the same memory in every order. -/
theorem writeCells_perm {cs ds : List Host.Cell} (h : Memory.wf m) (hs : ∀ c ∈ cs, c.1 < Config.addressSpace)
    (hd : cs.Pairwise (fun x y => x.1 ≠ y.1)) (p : cs.Perm ds) : writeCells m cs = writeCells m ds := by
  have hd' : ds.Pairwise (fun x y => x.1 ≠ y.1) := (p.pairwise_iff (fun {x y} h => Ne.symm h)).mp hd
  refine memory_ext (writeCells_wf h hs) (writeCells_wf h fun c hc => hs c (p.mem_iff.mpr hc)) fun a => ?_
  by_cases ha : ∃ b, (a, b) ∈ cs
  · obtain ⟨b, hb⟩ := ha
    rw [memRead_writeCells_mem h.1 hd hb, memRead_writeCells_mem h.1 hd' (p.mem_iff.mp hb)]
  · have hn : ∀ c ∈ cs, c.1 ≠ a := fun c hc e => ha ⟨c.2, by rw [← e]; exact hc⟩
    rw [memRead_writeCells_other hn, memRead_writeCells_other fun c hc => hn c (p.mem_iff.mpr hc)]

/-! Runs of bytes -/

@[simp] theorem length_readBytes (n : Nat) : (readBytes m a n).length = n := by
  induction n generalizing a with
  | zero => rfl
  | succ n ih => simp [readBytes, ih]

/-- Byte `k` of a run read from `a` is the byte at `a + k`. -/
theorem readBytes_getD {n k : Nat} (d : Byte) (h : k < n) : (readBytes m a n).getD k d = memRead m (a + k) := by
  induction n generalizing a k with
  | zero => omega
  | succ n ih =>
    cases k with
    | zero => simp [readBytes]
    | succ k =>
      have := ih (a := a + 1) (k := k) (by omega)
      simp only [readBytes, List.getD_cons_succ]
      rw [this]
      congr 1
      omega

/-- The cells of a run of bytes: byte `k` goes to `a + k`. -/
theorem mem_cellsAt {bs : List Byte} {c : Host.Cell} (d : Byte) :
    c ∈ cellsAt a bs ↔ ∃ k < bs.length, c = (a + k, bs.getD k d) := by
  induction bs generalizing a with
  | nil => simp [cellsAt]
  | cons b bs ih =>
    simp only [cellsAt, List.mem_cons, ih, List.length_cons]
    constructor
    · rintro (rfl | ⟨k, hk, rfl⟩)
      · exact ⟨0, by omega, by simp⟩
      · exact ⟨k + 1, by omega, by simp; omega⟩
    · rintro ⟨k, hk, rfl⟩
      cases k with
      | zero => simp
      | succ k => exact .inr ⟨k, by omega, by simp; omega⟩

/-- A run of bytes names no address twice. -/
theorem cellsAt_distinct (bs : List Byte) : (cellsAt a bs).Pairwise (fun x y => x.1 ≠ y.1) := by
  induction bs generalizing a with
  | nil => simp [cellsAt]
  | cons b bs ih =>
    refine List.pairwise_cons.mpr ⟨fun c hc => ?_, ih⟩
    obtain ⟨k, -, rfl⟩ := (mem_cellsAt 0#8).mp hc
    simp only
    omega

/-! The host's cache -/

theorem mem_cachePut {h : HostCache} {v : CachedByte} {c : Nat × CachedByte} (hc : c ∈ cachePut h a v) :
    c = (a, v) ∨ c ∈ h := by
  induction h with
  | nil => simpa [cachePut] using hc
  | cons d h ih =>
    unfold cachePut at hc
    split at hc
    · simpa using hc
    · split at hc
      · rcases List.mem_cons.mp hc with rfl | hc
        · simp
        · simp [hc]
      · rcases List.mem_cons.mp hc with rfl | hc
        · simp
        · exact (ih hc).imp_right fun h => by simp [h]

theorem cachePut_sorted {h : HostCache} {v : CachedByte} (hs : h.Pairwise (fun x y => x.1 < y.1)) :
    (cachePut h a v).Pairwise (fun x y => x.1 < y.1) := by
  induction h with
  | nil => simp [cachePut]
  | cons c h ih =>
    obtain ⟨hc, hh⟩ := List.pairwise_cons.mp hs
    unfold cachePut
    split
    · rename_i e
      refine List.pairwise_cons.mpr ⟨fun d hd => ?_, hs⟩
      rcases List.mem_cons.mp hd with rfl | hd
      · exact e
      · exact Nat.lt_trans e (hc d hd)
    · split
      · rename_i e
        exact List.pairwise_cons.mpr ⟨fun d hd => by have := hc d hd; simp only; omega, hh⟩
      · refine List.pairwise_cons.mpr ⟨fun d hd => ?_, ih hh⟩
        rcases mem_cachePut hd with rfl | hd
        · simp only; omega
        · exact hc d hd

/-- A byte put into the cache inside the address space keeps its canonical form. -/
theorem cachePut_wf {h : HostCache} {v : CachedByte} (hs : HostCache.wf h) (ha : a < Config.addressSpace) :
    HostCache.wf (cachePut h a v) := by
  refine ⟨cachePut_sorted hs.1, fun c hc => ?_⟩
  rcases mem_cachePut hc with rfl | hc
  · exact ha
  · exact hs.2 c hc

theorem cachePutDirty_wf {h : HostCache} {cs : List Host.Cell} (hs : HostCache.wf h)
    (hc : ∀ c ∈ cs, c.1 < Config.addressSpace) : HostCache.wf (cachePutDirty h cs) := by
  induction cs generalizing h with
  | nil => exact hs
  | cons c cs ih => exact ih (cachePut_wf hs (hc c (by simp))) fun d hd => hc d (by simp [hd])

theorem markClean_wf {h : HostCache} {w : Window} (hs : HostCache.wf h) : HostCache.wf (markClean h w) := by
  have key : ∀ c : Nat × CachedByte,
      (if w.has c.1 then (c.1, { c.2 with dirty := false }) else c).1 = c.1 := fun c => by split <;> rfl
  refine ⟨?_, ?_⟩
  · unfold markClean
    rw [List.pairwise_map]
    exact hs.1.imp fun h => by rw [key, key]; exact h
  · intro c hc
    obtain ⟨d, hd, rfl⟩ := List.mem_map.mp hc
    rw [key]
    exact hs.2 d hd

theorem dropCached_wf {h : HostCache} {w : Window} (hs : HostCache.wf h) : HostCache.wf (dropCached h w) :=
  ⟨hs.1.filter _, fun c hc => hs.2 c (List.mem_filter.mp hc).1⟩

theorem dirtyCells_below {h : HostCache} {w : Window} (hs : HostCache.wf h) :
    ∀ c ∈ dirtyCells h w, c.1 < Config.addressSpace := by
  intro c hc
  obtain ⟨d, hd, rfl⟩ := List.mem_map.mp hc
  exact hs.2 d (List.mem_filter.mp hd).1

/-- A byte just put into the cache is what the cache finds. -/
theorem cacheFind_cachePut_same {h : HostCache} {v : CachedByte} : cacheFind (cachePut h a v) a = some v := by
  induction h with
  | nil => simp [cachePut, cacheFind]
  | cons c h ih =>
    unfold cachePut
    split
    · simp [cacheFind]
    · split
      · simp [cacheFind]
      · rw [cacheFind, if_neg (by omega), ih]

theorem cacheFind_dropCached {h : HostCache} {w : Window} (ha : w.has a = true) :
    cacheFind (dropCached h w) a = none := by
  induction h with
  | nil => rfl
  | cons c h ih =>
    unfold dropCached at ih ⊢
    rw [List.filter_cons]
    split
    · rename_i e
      rw [cacheFind, if_neg (fun hc => by rw [hc, ha] at e; cases e), ih]
    · exact ih

theorem mem_of_cacheFind {h : HostCache} {v : CachedByte} (hf : cacheFind h a = some v) : (a, v) ∈ h := by
  induction h with
  | nil => cases hf
  | cons d h ih =>
    rw [cacheFind] at hf
    split at hf
    · rename_i e
      cases hf
      simp [← e]
    · simp [ih hf]

theorem cacheFind_of_mem {h : HostCache} {v : CachedByte} (hs : h.Pairwise (fun x y => x.1 < y.1)) (hm : (a, v) ∈ h) :
    cacheFind h a = some v := by
  induction h with
  | nil => cases hm
  | cons d h ih =>
    obtain ⟨h1, h2⟩ := List.pairwise_cons.mp hs
    rcases List.mem_cons.mp hm with rfl | hm
    · simp [cacheFind]
    · have : d.1 < a := h1 _ hm
      rw [cacheFind, if_neg (by omega), ih h2 hm]

/-- The bytes a clean writes are the dirty cached bytes of its window. -/
theorem mem_dirtyCells {h : HostCache} {w : Window} (hs : HostCache.wf h) {b : Byte} :
    (a, b) ∈ dirtyCells h w ↔ cacheFind h a = some ⟨b, true⟩ ∧ w.has a = true := by
  simp only [dirtyCells, List.mem_map, List.mem_filter, Bool.and_eq_true]
  constructor
  · rintro ⟨⟨a', ⟨b', d⟩⟩, ⟨hm, hw, hd⟩, he⟩
    cases he
    cases hd
    exact ⟨cacheFind_of_mem hs.1 hm, hw⟩
  · rintro ⟨hf, hw⟩
    exact ⟨(a, ⟨b, true⟩), ⟨mem_of_cacheFind hf, hw, rfl⟩, rfl⟩

end Sys2Proof.Machine
end

