-- ==== Sys2Proof/Laws/State.lean ====
section
/-! SUPPORT. One lemma per field per update of State, each true by unfolding, so that no proof unfolds a record update. -/

namespace Sys2Proof.Machine

/-! startCommand (10_state.md R45) -/

@[simp] theorem startCommand_ops (s : State) (c : Word) : (startCommand s c).ops = s.ops := rfl
@[simp] theorem startCommand_ie (s : State) (c : Word) : (startCommand s c).ie = s.ie := rfl
@[simp] theorem startCommand_done (s : State) (c : Word) : (startCommand s c).done = false := rfl
@[simp] theorem startCommand_err (s : State) (c : Word) : (startCommand s c).err = false := rfl
@[simp] theorem startCommand_ovr (s : State) (c : Word) : (startCommand s c).ovr = s.ovr := rfl
@[simp] theorem startCommand_errcode (s : State) (c : Word) : (startCommand s c).errcode = s.errcode := rfl
@[simp] theorem startCommand_pixOut (s : State) (c : Word) : (startCommand s c).pixOut = s.pixOut := rfl
@[simp] theorem startCommand_result0 (s : State) (c : Word) : (startCommand s c).result0 = s.result0 := rfl
@[simp] theorem startCommand_result1 (s : State) (c : Word) : (startCommand s c).result1 = s.result1 := rfl
@[simp] theorem startCommand_result2 (s : State) (c : Word) : (startCommand s c).result2 = s.result2 := rfl
@[simp] theorem startCommand_phase (s : State) (c : Word) : (startCommand s c).phase = .busy { cmd := c, ops := s.ops } := rfl
@[simp] theorem startCommand_mem (s : State) (c : Word) : (startCommand s c).mem = s.mem := rfl
@[simp] theorem startCommand_hostCache (s : State) (c : Word) : (startCommand s c).hostCache = s.hostCache := rfl
@[simp] theorem startCommand_platform (s : State) (c : Word) : (startCommand s c).platform = s.platform := rfl
@[simp] theorem startCommand_schedule (s : State) (c : Word) : (startCommand s c).schedule = s.schedule := rfl
@[simp] theorem startCommand_lastRead (s : State) (c : Word) : (startCommand s c).lastRead = s.lastRead := rfl
@[simp] theorem startCommand_freeCount (s : State) (c : Word) : (startCommand s c).freeCount = s.freeCount := rfl

/-! writeResult of RESULT0..2 (10_state.md R44) -/

@[simp] theorem writeResult_results_ops (s : State) (x y z : Nat) : (writeResult s (.results x y z)).ops = s.ops := rfl
@[simp] theorem writeResult_results_ie (s : State) (x y z : Nat) : (writeResult s (.results x y z)).ie = s.ie := rfl
@[simp] theorem writeResult_results_done (s : State) (x y z : Nat) : (writeResult s (.results x y z)).done = s.done := rfl
@[simp] theorem writeResult_results_err (s : State) (x y z : Nat) : (writeResult s (.results x y z)).err = s.err := rfl
@[simp] theorem writeResult_results_ovr (s : State) (x y z : Nat) : (writeResult s (.results x y z)).ovr = s.ovr := rfl
@[simp] theorem writeResult_results_errcode (s : State) (x y z : Nat) : (writeResult s (.results x y z)).errcode = s.errcode := rfl
@[simp] theorem writeResult_results_pixOut (s : State) (x y z : Nat) : (writeResult s (.results x y z)).pixOut = s.pixOut := rfl
@[simp] theorem writeResult_results_result0 (s : State) (x y z : Nat) : (writeResult s (.results x y z)).result0 = BitVec.ofNat 64 x := rfl
@[simp] theorem writeResult_results_result1 (s : State) (x y z : Nat) : (writeResult s (.results x y z)).result1 = BitVec.ofNat 64 y := rfl
@[simp] theorem writeResult_results_result2 (s : State) (x y z : Nat) : (writeResult s (.results x y z)).result2 = BitVec.ofNat 64 z := rfl
@[simp] theorem writeResult_results_phase (s : State) (x y z : Nat) : (writeResult s (.results x y z)).phase = s.phase := rfl
@[simp] theorem writeResult_results_mem (s : State) (x y z : Nat) : (writeResult s (.results x y z)).mem = s.mem := rfl
@[simp] theorem writeResult_results_hostCache (s : State) (x y z : Nat) : (writeResult s (.results x y z)).hostCache = s.hostCache := rfl
@[simp] theorem writeResult_results_platform (s : State) (x y z : Nat) : (writeResult s (.results x y z)).platform = s.platform := rfl
@[simp] theorem writeResult_results_schedule (s : State) (x y z : Nat) : (writeResult s (.results x y z)).schedule = s.schedule := rfl
@[simp] theorem writeResult_results_lastRead (s : State) (x y z : Nat) : (writeResult s (.results x y z)).lastRead = s.lastRead := rfl
@[simp] theorem writeResult_results_freeCount (s : State) (x y z : Nat) : (writeResult s (.results x y z)).freeCount = s.freeCount := rfl

/-! writeResult of PIX_OUT (10_state.md R43) -/

@[simp] theorem writeResult_pixel_ops (s : State) (p : Word) : (writeResult s (.pixel p)).ops = s.ops := rfl
@[simp] theorem writeResult_pixel_ie (s : State) (p : Word) : (writeResult s (.pixel p)).ie = s.ie := rfl
@[simp] theorem writeResult_pixel_done (s : State) (p : Word) : (writeResult s (.pixel p)).done = s.done := rfl
@[simp] theorem writeResult_pixel_err (s : State) (p : Word) : (writeResult s (.pixel p)).err = s.err := rfl
@[simp] theorem writeResult_pixel_ovr (s : State) (p : Word) : (writeResult s (.pixel p)).ovr = s.ovr := rfl
@[simp] theorem writeResult_pixel_errcode (s : State) (p : Word) : (writeResult s (.pixel p)).errcode = s.errcode := rfl
@[simp] theorem writeResult_pixel_pixOut (s : State) (p : Word) : (writeResult s (.pixel p)).pixOut = p := rfl
@[simp] theorem writeResult_pixel_result0 (s : State) (p : Word) : (writeResult s (.pixel p)).result0 = s.result0 := rfl
@[simp] theorem writeResult_pixel_result1 (s : State) (p : Word) : (writeResult s (.pixel p)).result1 = s.result1 := rfl
@[simp] theorem writeResult_pixel_result2 (s : State) (p : Word) : (writeResult s (.pixel p)).result2 = s.result2 := rfl
@[simp] theorem writeResult_pixel_phase (s : State) (p : Word) : (writeResult s (.pixel p)).phase = s.phase := rfl
@[simp] theorem writeResult_pixel_mem (s : State) (p : Word) : (writeResult s (.pixel p)).mem = s.mem := rfl
@[simp] theorem writeResult_pixel_hostCache (s : State) (p : Word) : (writeResult s (.pixel p)).hostCache = s.hostCache := rfl
@[simp] theorem writeResult_pixel_platform (s : State) (p : Word) : (writeResult s (.pixel p)).platform = s.platform := rfl
@[simp] theorem writeResult_pixel_schedule (s : State) (p : Word) : (writeResult s (.pixel p)).schedule = s.schedule := rfl
@[simp] theorem writeResult_pixel_lastRead (s : State) (p : Word) : (writeResult s (.pixel p)).lastRead = s.lastRead := rfl
@[simp] theorem writeResult_pixel_freeCount (s : State) (p : Word) : (writeResult s (.pixel p)).freeCount = s.freeCount := rfl

/-! completeOk (60_exceptions.md R195): the results are those of writeResult -/

@[simp] theorem completeOk_ops (s : State) (r : CmdResult) : (completeOk s r).ops = s.ops := by cases r <;> rfl
@[simp] theorem completeOk_ie (s : State) (r : CmdResult) : (completeOk s r).ie = s.ie := by cases r <;> rfl
@[simp] theorem completeOk_done (s : State) (r : CmdResult) : (completeOk s r).done = true := by cases r <;> rfl
@[simp] theorem completeOk_err (s : State) (r : CmdResult) : (completeOk s r).err = s.err := by cases r <;> rfl
@[simp] theorem completeOk_ovr (s : State) (r : CmdResult) : (completeOk s r).ovr = s.ovr := by cases r <;> rfl
@[simp] theorem completeOk_errcode (s : State) (r : CmdResult) : (completeOk s r).errcode = none := by cases r <;> rfl
@[simp] theorem completeOk_pixOut (s : State) (r : CmdResult) : (completeOk s r).pixOut = (writeResult s r).pixOut := by cases r <;> rfl
@[simp] theorem completeOk_result0 (s : State) (r : CmdResult) : (completeOk s r).result0 = (writeResult s r).result0 := by cases r <;> rfl
@[simp] theorem completeOk_result1 (s : State) (r : CmdResult) : (completeOk s r).result1 = (writeResult s r).result1 := by cases r <;> rfl
@[simp] theorem completeOk_result2 (s : State) (r : CmdResult) : (completeOk s r).result2 = (writeResult s r).result2 := by cases r <;> rfl
@[simp] theorem completeOk_phase (s : State) (r : CmdResult) : (completeOk s r).phase = .idle := by cases r <;> rfl
@[simp] theorem completeOk_mem (s : State) (r : CmdResult) : (completeOk s r).mem = s.mem := by cases r <;> rfl
@[simp] theorem completeOk_hostCache (s : State) (r : CmdResult) : (completeOk s r).hostCache = s.hostCache := by cases r <;> rfl
@[simp] theorem completeOk_platform (s : State) (r : CmdResult) : (completeOk s r).platform = s.platform := by cases r <;> rfl
@[simp] theorem completeOk_schedule (s : State) (r : CmdResult) : (completeOk s r).schedule = s.schedule := by cases r <;> rfl
@[simp] theorem completeOk_lastRead (s : State) (r : CmdResult) : (completeOk s r).lastRead = s.lastRead := by cases r <;> rfl
@[simp] theorem completeOk_freeCount (s : State) (r : CmdResult) : (completeOk s r).freeCount = s.freeCount := by cases r <;> rfl

/-! completeError (60_exceptions.md R196) -/

@[simp] theorem completeError_ops (s : State) (e : CmdError) : (completeError s e).ops = s.ops := rfl
@[simp] theorem completeError_ie (s : State) (e : CmdError) : (completeError s e).ie = s.ie := rfl
@[simp] theorem completeError_done (s : State) (e : CmdError) : (completeError s e).done = s.done := rfl
@[simp] theorem completeError_err (s : State) (e : CmdError) : (completeError s e).err = true := rfl
@[simp] theorem completeError_ovr (s : State) (e : CmdError) : (completeError s e).ovr = s.ovr := rfl
@[simp] theorem completeError_errcode (s : State) (e : CmdError) : (completeError s e).errcode = some e := rfl
@[simp] theorem completeError_pixOut (s : State) (e : CmdError) : (completeError s e).pixOut = s.pixOut := rfl
@[simp] theorem completeError_result0 (s : State) (e : CmdError) : (completeError s e).result0 = s.result0 := rfl
@[simp] theorem completeError_result1 (s : State) (e : CmdError) : (completeError s e).result1 = s.result1 := rfl
@[simp] theorem completeError_result2 (s : State) (e : CmdError) : (completeError s e).result2 = s.result2 := rfl
@[simp] theorem completeError_phase (s : State) (e : CmdError) : (completeError s e).phase = .idle := rfl
@[simp] theorem completeError_mem (s : State) (e : CmdError) : (completeError s e).mem = s.mem := rfl
@[simp] theorem completeError_hostCache (s : State) (e : CmdError) : (completeError s e).hostCache = s.hostCache := rfl
@[simp] theorem completeError_platform (s : State) (e : CmdError) : (completeError s e).platform = s.platform := rfl
@[simp] theorem completeError_schedule (s : State) (e : CmdError) : (completeError s e).schedule = s.schedule := rfl
@[simp] theorem completeError_lastRead (s : State) (e : CmdError) : (completeError s e).lastRead = s.lastRead := rfl
@[simp] theorem completeError_freeCount (s : State) (e : CmdError) : (completeError s e).freeCount = s.freeCount := rfl

/-! writeStatus (10_state.md R26) -/

@[simp] theorem writeStatus_ops (s : State) (v : Word) : (writeStatus s v).ops = s.ops := rfl
@[simp] theorem writeStatus_ie (s : State) (v : Word) : (writeStatus s v).ie = s.ie := rfl
@[simp] theorem writeStatus_done (s : State) (v : Word) : (writeStatus s v).done = (s.done && !v.getLsbD 1) := rfl
@[simp] theorem writeStatus_err (s : State) (v : Word) : (writeStatus s v).err = (s.err && !v.getLsbD 2) := rfl
@[simp] theorem writeStatus_ovr (s : State) (v : Word) : (writeStatus s v).ovr = (s.ovr && !v.getLsbD 3) := rfl
@[simp] theorem writeStatus_errcode (s : State) (v : Word) : (writeStatus s v).errcode = s.errcode := rfl
@[simp] theorem writeStatus_pixOut (s : State) (v : Word) : (writeStatus s v).pixOut = s.pixOut := rfl
@[simp] theorem writeStatus_result0 (s : State) (v : Word) : (writeStatus s v).result0 = s.result0 := rfl
@[simp] theorem writeStatus_result1 (s : State) (v : Word) : (writeStatus s v).result1 = s.result1 := rfl
@[simp] theorem writeStatus_result2 (s : State) (v : Word) : (writeStatus s v).result2 = s.result2 := rfl
@[simp] theorem writeStatus_phase (s : State) (v : Word) : (writeStatus s v).phase = s.phase := rfl
@[simp] theorem writeStatus_mem (s : State) (v : Word) : (writeStatus s v).mem = s.mem := rfl
@[simp] theorem writeStatus_hostCache (s : State) (v : Word) : (writeStatus s v).hostCache = s.hostCache := rfl
@[simp] theorem writeStatus_platform (s : State) (v : Word) : (writeStatus s v).platform = s.platform := rfl
@[simp] theorem writeStatus_schedule (s : State) (v : Word) : (writeStatus s v).schedule = s.schedule := rfl
@[simp] theorem writeStatus_lastRead (s : State) (v : Word) : (writeStatus s v).lastRead = s.lastRead := rfl
@[simp] theorem writeStatus_freeCount (s : State) (v : Word) : (writeStatus s v).freeCount = s.freeCount := rfl

/-! writeCtrl (10_state.md R32) -/

@[simp] theorem writeCtrl_ops (s : State) (v : Word) : (writeCtrl s v).ops = s.ops := rfl
@[simp] theorem writeCtrl_ie (s : State) (v : Word) : (writeCtrl s v).ie = v.getLsbD 0 := rfl
@[simp] theorem writeCtrl_done (s : State) (v : Word) : (writeCtrl s v).done = s.done := rfl
@[simp] theorem writeCtrl_err (s : State) (v : Word) : (writeCtrl s v).err = s.err := rfl
@[simp] theorem writeCtrl_ovr (s : State) (v : Word) : (writeCtrl s v).ovr = s.ovr := rfl
@[simp] theorem writeCtrl_errcode (s : State) (v : Word) : (writeCtrl s v).errcode = s.errcode := rfl
@[simp] theorem writeCtrl_pixOut (s : State) (v : Word) : (writeCtrl s v).pixOut = s.pixOut := rfl
@[simp] theorem writeCtrl_result0 (s : State) (v : Word) : (writeCtrl s v).result0 = s.result0 := rfl
@[simp] theorem writeCtrl_result1 (s : State) (v : Word) : (writeCtrl s v).result1 = s.result1 := rfl
@[simp] theorem writeCtrl_result2 (s : State) (v : Word) : (writeCtrl s v).result2 = s.result2 := rfl
@[simp] theorem writeCtrl_phase (s : State) (v : Word) : (writeCtrl s v).phase = s.phase := rfl
@[simp] theorem writeCtrl_mem (s : State) (v : Word) : (writeCtrl s v).mem = s.mem := rfl
@[simp] theorem writeCtrl_hostCache (s : State) (v : Word) : (writeCtrl s v).hostCache = s.hostCache := rfl
@[simp] theorem writeCtrl_platform (s : State) (v : Word) : (writeCtrl s v).platform = s.platform := rfl
@[simp] theorem writeCtrl_schedule (s : State) (v : Word) : (writeCtrl s v).schedule = s.schedule := rfl
@[simp] theorem writeCtrl_lastRead (s : State) (v : Word) : (writeCtrl s v).lastRead = s.lastRead := rfl
@[simp] theorem writeCtrl_freeCount (s : State) (v : Word) : (writeCtrl s v).freeCount = s.freeCount := rfl

/-! transferAll (20_memory.md R72) -/

@[simp] theorem transferAll_ops (s : State) (f : Frame) : (transferAll s f).ops = s.ops := rfl
@[simp] theorem transferAll_ie (s : State) (f : Frame) : (transferAll s f).ie = s.ie := rfl
@[simp] theorem transferAll_done (s : State) (f : Frame) : (transferAll s f).done = s.done := rfl
@[simp] theorem transferAll_err (s : State) (f : Frame) : (transferAll s f).err = s.err := rfl
@[simp] theorem transferAll_ovr (s : State) (f : Frame) : (transferAll s f).ovr = s.ovr := rfl
@[simp] theorem transferAll_errcode (s : State) (f : Frame) : (transferAll s f).errcode = s.errcode := rfl
@[simp] theorem transferAll_pixOut (s : State) (f : Frame) : (transferAll s f).pixOut = s.pixOut := rfl
@[simp] theorem transferAll_result0 (s : State) (f : Frame) : (transferAll s f).result0 = s.result0 := rfl
@[simp] theorem transferAll_result1 (s : State) (f : Frame) : (transferAll s f).result1 = s.result1 := rfl
@[simp] theorem transferAll_result2 (s : State) (f : Frame) : (transferAll s f).result2 = s.result2 := rfl
@[simp] theorem transferAll_phase (s : State) (f : Frame) : (transferAll s f).phase = s.phase := rfl
@[simp] theorem transferAll_mem (s : State) (f : Frame) : (transferAll s f).mem = writeCells s.mem f.writes := rfl
@[simp] theorem transferAll_hostCache (s : State) (f : Frame) : (transferAll s f).hostCache = s.hostCache := rfl
@[simp] theorem transferAll_platform (s : State) (f : Frame) : (transferAll s f).platform = s.platform := rfl
@[simp] theorem transferAll_schedule (s : State) (f : Frame) : (transferAll s f).schedule = s.schedule := rfl
@[simp] theorem transferAll_lastRead (s : State) (f : Frame) : (transferAll s f).lastRead = s.lastRead := rfl
@[simp] theorem transferAll_freeCount (s : State) (f : Frame) : (transferAll s f).freeCount = s.freeCount + 1 := rfl

/-! transferPart (20_memory.md R78) -/

@[simp] theorem transferPart_ops (s : State) (f : Frame) : (transferPart s f).ops = s.ops := rfl
@[simp] theorem transferPart_ie (s : State) (f : Frame) : (transferPart s f).ie = s.ie := rfl
@[simp] theorem transferPart_done (s : State) (f : Frame) : (transferPart s f).done = s.done := rfl
@[simp] theorem transferPart_err (s : State) (f : Frame) : (transferPart s f).err = s.err := rfl
@[simp] theorem transferPart_ovr (s : State) (f : Frame) : (transferPart s f).ovr = s.ovr := rfl
@[simp] theorem transferPart_errcode (s : State) (f : Frame) : (transferPart s f).errcode = s.errcode := rfl
@[simp] theorem transferPart_pixOut (s : State) (f : Frame) : (transferPart s f).pixOut = s.pixOut := rfl
@[simp] theorem transferPart_result0 (s : State) (f : Frame) : (transferPart s f).result0 = s.result0 := rfl
@[simp] theorem transferPart_result1 (s : State) (f : Frame) : (transferPart s f).result1 = s.result1 := rfl
@[simp] theorem transferPart_result2 (s : State) (f : Frame) : (transferPart s f).result2 = s.result2 := rfl
@[simp] theorem transferPart_phase (s : State) (f : Frame) : (transferPart s f).phase = s.phase := rfl
@[simp] theorem transferPart_mem (s : State) (f : Frame) : (transferPart s f).mem = writeCells s.mem (f.partialWrites s.freeCount) := rfl
@[simp] theorem transferPart_hostCache (s : State) (f : Frame) : (transferPart s f).hostCache = s.hostCache := rfl
@[simp] theorem transferPart_platform (s : State) (f : Frame) : (transferPart s f).platform = s.platform := rfl
@[simp] theorem transferPart_schedule (s : State) (f : Frame) : (transferPart s f).schedule = s.schedule := rfl
@[simp] theorem transferPart_lastRead (s : State) (f : Frame) : (transferPart s f).lastRead = s.lastRead := rfl
@[simp] theorem transferPart_freeCount (s : State) (f : Frame) : (transferPart s f).freeCount = s.freeCount + 1 := rfl

/-! abandonTransfer (70_reset_and_hazards.md R221) -/

@[simp] theorem abandonTransfer_ops (s : State) (f : Frame) : (abandonTransfer s f).ops = s.ops := rfl
@[simp] theorem abandonTransfer_ie (s : State) (f : Frame) : (abandonTransfer s f).ie = s.ie := rfl
@[simp] theorem abandonTransfer_done (s : State) (f : Frame) : (abandonTransfer s f).done = s.done := rfl
@[simp] theorem abandonTransfer_err (s : State) (f : Frame) : (abandonTransfer s f).err = s.err := rfl
@[simp] theorem abandonTransfer_ovr (s : State) (f : Frame) : (abandonTransfer s f).ovr = s.ovr := rfl
@[simp] theorem abandonTransfer_errcode (s : State) (f : Frame) : (abandonTransfer s f).errcode = s.errcode := rfl
@[simp] theorem abandonTransfer_pixOut (s : State) (f : Frame) : (abandonTransfer s f).pixOut = s.pixOut := rfl
@[simp] theorem abandonTransfer_result0 (s : State) (f : Frame) : (abandonTransfer s f).result0 = s.result0 := rfl
@[simp] theorem abandonTransfer_result1 (s : State) (f : Frame) : (abandonTransfer s f).result1 = s.result1 := rfl
@[simp] theorem abandonTransfer_result2 (s : State) (f : Frame) : (abandonTransfer s f).result2 = s.result2 := rfl
@[simp] theorem abandonTransfer_phase (s : State) (f : Frame) : (abandonTransfer s f).phase = s.phase := rfl
@[simp] theorem abandonTransfer_mem (s : State) (f : Frame) : (abandonTransfer s f).mem = writeCells s.mem (f.abandonedWrites s.platform s.freeCount) := rfl
@[simp] theorem abandonTransfer_hostCache (s : State) (f : Frame) : (abandonTransfer s f).hostCache = s.hostCache := rfl
@[simp] theorem abandonTransfer_platform (s : State) (f : Frame) : (abandonTransfer s f).platform = s.platform := rfl
@[simp] theorem abandonTransfer_schedule (s : State) (f : Frame) : (abandonTransfer s f).schedule = s.schedule := rfl
@[simp] theorem abandonTransfer_lastRead (s : State) (f : Frame) : (abandonTransfer s f).lastRead = s.lastRead := rfl
@[simp] theorem abandonTransfer_freeCount (s : State) (f : Frame) : (abandonTransfer s f).freeCount = s.freeCount + 1 := rfl

/-! resetRegisters (70_reset_and_hazards.md R220) -/

@[simp] theorem resetRegisters_ops (s : State) : (resetRegisters s).ops = OperandRegs.reset := rfl
@[simp] theorem resetRegisters_ie (s : State) : (resetRegisters s).ie = false := rfl
@[simp] theorem resetRegisters_done (s : State) : (resetRegisters s).done = false := rfl
@[simp] theorem resetRegisters_err (s : State) : (resetRegisters s).err = false := rfl
@[simp] theorem resetRegisters_ovr (s : State) : (resetRegisters s).ovr = false := rfl
@[simp] theorem resetRegisters_errcode (s : State) : (resetRegisters s).errcode = none := rfl
@[simp] theorem resetRegisters_pixOut (s : State) : (resetRegisters s).pixOut = 0#32 := rfl
@[simp] theorem resetRegisters_result0 (s : State) : (resetRegisters s).result0 = 0#64 := rfl
@[simp] theorem resetRegisters_result1 (s : State) : (resetRegisters s).result1 = 0#64 := rfl
@[simp] theorem resetRegisters_result2 (s : State) : (resetRegisters s).result2 = 0#64 := rfl
@[simp] theorem resetRegisters_phase (s : State) : (resetRegisters s).phase = .idle := rfl
@[simp] theorem resetRegisters_mem (s : State) : (resetRegisters s).mem = s.mem := rfl
@[simp] theorem resetRegisters_hostCache (s : State) : (resetRegisters s).hostCache = s.hostCache := rfl
@[simp] theorem resetRegisters_platform (s : State) : (resetRegisters s).platform = s.platform := rfl
@[simp] theorem resetRegisters_schedule (s : State) : (resetRegisters s).schedule = s.schedule := rfl
@[simp] theorem resetRegisters_lastRead (s : State) : (resetRegisters s).lastRead = s.lastRead := rfl
@[simp] theorem resetRegisters_freeCount (s : State) : (resetRegisters s).freeCount = s.freeCount := rfl

end Sys2Proof.Machine
end

