-- ==== Sys2Proof/Laws/Commands.lean ====
section
/-! SUPPORT. Once per shared operation, everything it can do: the completion of a command, the geometry checks, the frames
and the transfer, and from these what exec can answer. -/

namespace Sys2Proof.Machine

variable {s t : State} {o : OperandRegs} {m : Memory}

/-! Completion -/

theorem withCommand_busy {w : WorkingCopy} (h : s.phase = .busy w) (k : WorkingCopy → StepResult) :
    withCommand s k = k w := by
  unfold withCommand
  rw [h]

theorem withCommand_next {k : WorkingCopy → StepResult} (h : withCommand s k = .next t) :
    ∃ w, s.phase = .busy w ∧ k w = .next t := by
  unfold withCommand at h
  split at h
  · exact ⟨_, ‹_›, h⟩
  · cases h

/-- A command that touches no memory always completes. -/
theorem finish_next {r : Except CmdError CmdResult} (h : finish s r = .next t) :
    (∃ v, r = .ok v ∧ t = completeOk s v) ∨ ∃ e, r = .error e ∧ t = completeError s e := by
  cases r with
  | ok v => exact .inl ⟨v, rfl, by simpa [finish] using h.symm⟩
  | error e => exact .inr ⟨e, rfl, by simpa [finish] using h.symm⟩

/-- A frame past its checks completes with success or with BusError, or its windows are refused. -/
theorem runFrame_next {f : Frame} (h : runFrame s f = .next t) :
    f.onDevice s.platform = false ∧
      ((f.busFails s.platform s.freeCount = true ∧ t = completeError (transferPart s f) .busError) ∨
        (f.busFails s.platform s.freeCount = false ∧ t = completeOk (transferAll s f) f.result)) := by
  unfold runFrame at h
  split at h
  · cases h
  · rename_i hd
    refine ⟨by simpa using hd, ?_⟩
    split at h
    · exact .inl ⟨‹_›, by simpa using h.symm⟩
    · rename_i hb
      exact .inr ⟨by simpa using hb, by simpa using h.symm⟩

/-- A frame command ends with a check's error, or its frame runs. -/
theorem finishFrame_next {r : Except CmdError Frame} (h : finishFrame s r = .next t) :
    (∃ e, r = .error e ∧ t = completeError s e) ∨ ∃ f, r = .ok f ∧ runFrame s f = .next t := by
  cases r with
  | ok f => exact .inr ⟨f, rfl, h⟩
  | error e => exact .inl ⟨e, rfl, by simpa [finishFrame] using h.symm⟩

/-! Geometry -/

theorem stride_eq_rowBytes (W N : Nat) : stride W N = rowBytes W N := rfl

theorem le_rowBytes (W N : Nat) : W * N ≤ rowBytes W N := by unfold rowBytes; omega

theorem checkDepth_ok {n : Nat} : checkDepth o = .ok n ↔ o.bpp.toNat = 8 * n ∧ (n = 3 ∨ n = 4) := by
  unfold checkDepth u32
  split
  · simp only [reduceCtorEq, false_iff]; omega
  · simp only [Except.ok.injEq]; omega

theorem checkDepth_error {e : CmdError} :
    checkDepth o = .error e ↔ e = .unsupportedBitDepth ∧ o.bpp.toNat ≠ 24 ∧ o.bpp.toNat ≠ 32 := by
  unfold checkDepth u32
  split
  · simp only [Except.error.injEq]
    constructor
    · rintro rfl; exact ⟨rfl, by assumption⟩
    · rintro ⟨rfl, -⟩; rfl
  · simp only [reduceCtorEq, false_iff]; omega

theorem checkWidth_ok {n : Nat} : checkWidth o = .ok n ↔ o.width.toInt = n ∧ 1 ≤ n := by
  unfold checkWidth s32
  split
  · simp only [reduceCtorEq, false_iff]; omega
  · simp only [Except.ok.injEq]; omega

theorem checkWidth_error {e : CmdError} :
    checkWidth o = .error e ↔ e = .badDimension ∧ o.width.toInt < 1 := by
  unfold checkWidth s32
  split
  · simp only [Except.error.injEq]
    constructor
    · rintro rfl; exact ⟨rfl, by assumption⟩
    · rintro ⟨rfl, -⟩; rfl
  · simp only [reduceCtorEq, false_iff]; omega

/-- The geometry of a decode whose checks pass with `N`, `W` and `H`. -/
def decodeGeometryOf (o : OperandRegs) (N W H : Nat) : DecodeGeometry :=
  { bytesPerPixel := N, width := W, absHeight := H, topDown := decide (o.height.toInt < 0)
    stride := rowBytes W N, dataOffset := o.dataOffset.toNat
    extent := o.dataOffset.toNat + rowBytes W N * H, outLen := W * H * 4 }

/-- The geometry of an encode whose checks pass with `W` and `H`. -/
def encodeGeometryOf (W H : Nat) : EncodeGeometry :=
  { width := W, height := H, stride := rowBytes W 3, inLen := W * H * 4
    pixelDataSize := rowBytes W 3 * H, fileSize := 54 + rowBytes W 3 * H }

theorem decodeGeometry_of_shape {N W H : Nat} (h : DecodeShape o N W H) :
    decodeGeometry o = .ok (decodeGeometryOf o N W H) := by
  obtain ⟨hb, hn, hw, hw1, hh, hh1, hr⟩ := h
  have e1 : checkDepth o = .ok N := checkDepth_ok.mpr ⟨hb, hn⟩
  have e2 : checkWidth o = .ok W := checkWidth_ok.mpr ⟨hw, hw1⟩
  have e3 : ¬ (s32 o.height = 0 ∨ s32 o.height = -2147483648) := by unfold s32; omega
  simp only [decodeGeometry, e1, e2, bind, Except.bind, if_neg e3]
  simp only [decodeGeometryOf, s32, u32, hh, stride_eq_rowBytes]
  rfl

theorem decodeGeometry_ok {g : DecodeGeometry} (h : decodeGeometry o = .ok g) :
    ∃ N W H, DecodeShape o N W H ∧ g = decodeGeometryOf o N W H := by
  cases e1 : checkDepth o with
  | error e => simp [decodeGeometry, e1, bind, Except.bind] at h
  | ok N =>
    cases e2 : checkWidth o with
    | error e => simp [decodeGeometry, e1, e2, bind, Except.bind] at h
    | ok W =>
      have hd := checkDepth_ok.mp e1
      have hw := checkWidth_ok.mp e2
      have hs : DecodeShape o N W o.height.toInt.natAbs := by
        by_cases e3 : s32 o.height = 0 ∨ s32 o.height = -2147483648
        · simp [decodeGeometry, e1, e2, bind, Except.bind, if_pos e3] at h
        · unfold s32 at e3
          exact ⟨hd.1, hd.2, hw.1, hw.2, rfl, by omega, by omega⟩
      refine ⟨N, W, _, hs, ?_⟩
      rw [decodeGeometry_of_shape hs] at h
      exact (Except.ok.inj h).symm

theorem decodeGeometry_error {e : CmdError} (h : decodeGeometry o = .error e) :
    (e = .unsupportedBitDepth ∧ ¬ DepthOk o) ∨ (e = .badDimension ∧ DepthOk o ∧ DecodeDimsBad o) := by
  cases e1 : checkDepth o with
  | error e' =>
    obtain ⟨rfl, h1, h2⟩ := checkDepth_error.mp e1
    simp only [decodeGeometry, e1, bind, Except.bind, Except.error.injEq] at h
    refine .inl ⟨h.symm, ?_⟩
    rintro (hb | hb) <;> simp [hb] at h1 h2
  | ok N =>
    have hd := checkDepth_ok.mp e1
    have hok : DepthOk o := by
      rcases hd.2 with rfl | rfl
      · exact .inl (BitVec.eq_of_toNat_eq hd.1)
      · exact .inr (BitVec.eq_of_toNat_eq hd.1)
    refine .inr ?_
    cases e2 : checkWidth o with
    | error e' =>
      obtain ⟨rfl, hw⟩ := checkWidth_error.mp e2
      simp only [decodeGeometry, e1, e2, bind, Except.bind, Except.error.injEq] at h
      exact ⟨h.symm, hok, .inl hw⟩
    | ok W =>
      by_cases e3 : s32 o.height = 0 ∨ s32 o.height = -2147483648
      · simp only [decodeGeometry, e1, e2, bind, Except.bind, if_pos e3, Except.error.injEq] at h
        exact ⟨h.symm, hok, .inr e3⟩
      · simp [decodeGeometry, e1, e2, bind, Except.bind, if_neg e3] at h

theorem encodeGeometry_of_shape {W H : Nat} (h : EncodeShape o W H) :
    encodeGeometry o = .ok (encodeGeometryOf W H) := by
  obtain ⟨hw, hw1, hh, hh1⟩ := h
  have e2 : checkWidth o = .ok W := checkWidth_ok.mpr ⟨hw, hw1⟩
  have e3 : ¬ (s32 o.height < 1) := by unfold s32; omega
  have e4 : (s32 o.height).toNat = H := by unfold s32; omega
  simp only [encodeGeometry, e2, bind, Except.bind, if_neg e3]
  simp only [encodeGeometryOf, e4, stride_eq_rowBytes, Config.headerBytes]

theorem encodeGeometry_ok {g : EncodeGeometry} (h : encodeGeometry o = .ok g) :
    ∃ W H, EncodeShape o W H ∧ g = encodeGeometryOf W H := by
  cases e2 : checkWidth o with
  | error e => simp [encodeGeometry, e2, bind, Except.bind] at h
  | ok W =>
    have hw := checkWidth_ok.mp e2
    have hs : EncodeShape o W o.height.toInt.toNat := by
      by_cases e3 : s32 o.height < 1
      · simp [encodeGeometry, e2, bind, Except.bind, if_pos e3] at h
      · unfold s32 at e3
        exact ⟨hw.1, hw.2, by omega, by omega⟩
    refine ⟨W, _, hs, ?_⟩
    rw [encodeGeometry_of_shape hs] at h
    exact (Except.ok.inj h).symm

theorem encodeGeometry_error {e : CmdError} (h : encodeGeometry o = .error e) :
    e = .badDimension ∧ EncodeDimsBad o := by
  cases e2 : checkWidth o with
  | error e' =>
    obtain ⟨rfl, hw⟩ := checkWidth_error.mp e2
    simp only [encodeGeometry, e2, bind, Except.bind, Except.error.injEq] at h
    exact ⟨h.symm, .inl hw⟩
  | ok W =>
    by_cases e3 : s32 o.height < 1
    · simp only [encodeGeometry, e2, bind, Except.bind, if_pos e3, Except.error.injEq] at h
      exact ⟨h.symm, .inr e3⟩
    · simp [encodeGeometry, e2, bind, Except.bind, if_neg e3] at h

/-! The frames -/

theorem mem_rowMajor {W H : Nat} {p : Nat × Nat} : p ∈ rowMajor W H ↔ p.1 < H ∧ p.2 < W := by
  obtain ⟨y, x⟩ := p
  simp [rowMajor, List.mem_flatMap]

theorem rowMajor_nodup (W H : Nat) : (rowMajor W H).Nodup := by
  unfold rowMajor
  rw [List.nodup_flatMap]
  refine ⟨fun y _ => (List.nodup_range).map fun a b h => by simpa using h, ?_⟩
  refine (List.nodup_range).imp fun {a b} hab => ?_
  rintro ⟨y, x⟩ h1 h2
  simp only [List.mem_map, Prod.mk.injEq] at h1 h2
  obtain ⟨_, _, rfl, _⟩ := h1
  obtain ⟨_, _, e, _⟩ := h2
  exact hab e.symm

/-- Two pixels of a row-major buffer of 4-byte pixels share no byte. -/
theorem pixel_bytes_disjoint {W y x k y' x' k' : Nat} (hx : x < W) (hx' : x' < W) (hk : k < 4) (hk' : k' < 4)
    (h : (y * W + x) * 4 + k = (y' * W + x') * 4 + k') : y = y' ∧ x = x' ∧ k = k' := by
  have e : y * W + x = y' * W + x' := by omega
  have hy : y = y' := by
    have h1 : (y * W + x) / W = y := by
      rw [Nat.mul_comm, Nat.mul_add_div (by omega), Nat.div_eq_of_lt hx, Nat.add_zero]
    have h2 : (y' * W + x') / W = y' := by
      rw [Nat.mul_comm, Nat.mul_add_div (by omega), Nat.div_eq_of_lt hx', Nat.add_zero]
    rw [← h1, ← h2, e]
  subst hy
  exact ⟨rfl, by omega, by omega⟩

theorem decPix_getD (n : Nat) (b : List Byte) (k : Nat) (hk : k < 4) :
    (decPix n b).getD k 0#8 = if k < 3 then b.getD (2 - k) 0#8 else if n = 4 then b.getD 3 0#8 else 255#8 := by
  unfold decPix
  match k, hk with
  | 0, _ | 1, _ | 2, _ | 3, _ => simp

/-- The bytes DECODE writes: component `k` of pixel `(y, x)` at its place in the row-major buffer (41_decode.md R141). -/
theorem mem_decodeWrites {N W H : Nat} (hN : N = 3 ∨ N = 4) {c : Host.Cell} :
    c ∈ decodeWrites o (decodeGeometryOf o N W H) m ↔
      ∃ y < H, ∃ x < W, ∃ k < 4,
        c = (o.dstBase.toNat + (y * W + x) * 4 + k, decodedByte m o N W H y x k) := by
  have hbyte : ∀ y x k, k < 4 →
      (decPix N (readBytes m (decodeFrom o (decodeGeometryOf o N W H) y x) N)).getD k 0#8
        = decodedByte m o N W H y x k := by
    intro y x k hk
    have hfrom : decodeFrom o (decodeGeometryOf o N W H) y x = decodePixelAt o N W H y x := by
      simp only [decodeFrom, decodeGeometryOf, decodePixelAt, pixelArray, fileRowOf, srcRow, u32, decide_eq_true_eq]
    rw [decPix_getD N _ k hk, hfrom, decodedByte]
    split
    · rw [readBytes_getD _ (by omega)]
    · split
      · rw [readBytes_getD _ (by omega)]
      · rfl
  simp only [decodeWrites, List.mem_flatMap]
  constructor
  · rintro ⟨⟨y, x⟩, hp, hc⟩
    obtain ⟨hy, hx⟩ := mem_rowMajor.mp hp
    obtain ⟨k, hk, rfl⟩ := (mem_cellsAt 0#8).mp hc
    have hk4 : k < 4 := by simpa [decPix] using hk
    refine ⟨y, hy, x, hx, k, hk4, ?_⟩
    simp only [decodeTo, u32]
    rw [← hbyte y x k hk4]
    rfl
  · rintro ⟨y, hy, x, hx, k, hk, rfl⟩
    refine ⟨(y, x), mem_rowMajor.mpr ⟨hy, hx⟩, (mem_cellsAt 0#8).mpr ⟨k, by simpa [decPix] using hk, ?_⟩⟩
    simp only [decodeTo, u32]
    rw [← hbyte y x k hk]
    rfl

/-- A flattened family of cell lists names no address twice if each list does not and no two lists share one. -/
theorem flatMap_distinct {α : Type} {l : List α} {f : α → List Host.Cell} (hl : l.Nodup)
    (h1 : ∀ a ∈ l, (f a).Pairwise (fun x y => x.1 ≠ y.1))
    (h2 : ∀ a ∈ l, ∀ b ∈ l, a ≠ b → ∀ x ∈ f a, ∀ y ∈ f b, x.1 ≠ y.1) :
    (l.flatMap f).Pairwise (fun x y => x.1 ≠ y.1) := by
  induction l with
  | nil => simp
  | cons a l ih =>
    obtain ⟨ha, hl⟩ := List.nodup_cons.mp hl
    rw [List.flatMap_cons, List.pairwise_append]
    refine ⟨h1 a (by simp), ih hl (fun b hb => h1 b (by simp [hb]))
      (fun b hb c hc => h2 b (by simp [hb]) c (by simp [hc])), ?_⟩
    intro x hx y hy
    obtain ⟨b, hb, hy⟩ := List.mem_flatMap.mp hy
    exact h2 a (by simp) b (by simp [hb]) (fun e => ha (e ▸ hb)) x hx y hy

/-- DECODE writes no byte twice (41_decode.md R141). -/
theorem decodeWrites_distinct {N W H : Nat} :
    (decodeWrites o (decodeGeometryOf o N W H) m).Pairwise (fun x y => x.1 ≠ y.1) := by
  refine flatMap_distinct (rowMajor_nodup _ _) (fun _ _ => cellsAt_distinct _) ?_
  rintro ⟨y, x⟩ hp ⟨y', x'⟩ hp' hne c hc d hd e
  obtain ⟨k, hk, rfl⟩ := (mem_cellsAt 0#8).mp hc
  obtain ⟨k', hk', rfl⟩ := (mem_cellsAt 0#8).mp hd
  simp only [decPix, List.length_cons, List.length_nil, decodeTo] at hk hk' e
  have := pixel_bytes_disjoint (mem_rowMajor.mp hp).2 (mem_rowMajor.mp hp').2 hk hk'
    (show (y * W + x) * 4 + k = (y' * W + x') * 4 + k' by
      simp only [decodeGeometryOf] at e; omega)
  exact hne (Prod.ext this.1 this.2.1)

theorem row_major_lt {W H y x : Nat} (hy : y < H) (hx : x < W) : y * W + x < W * H := by
  calc y * W + x < y * W + W := by omega
    _ = (y + 1) * W := by rw [Nat.succ_mul]
    _ ≤ H * W := Nat.mul_le_mul_right _ hy
    _ = W * H := Nat.mul_comm _ _

theorem decodeWrites_inside {N W H : Nat} (hN : N = 3 ∨ N = 4) {c : Host.Cell}
    (h : c ∈ decodeWrites o (decodeGeometryOf o N W H) m) :
    o.dstBase.toNat ≤ c.1 ∧ c.1 < o.dstBase.toNat + W * H * 4 := by
  obtain ⟨y, hy, x, hx, k, hk, rfl⟩ := (mem_decodeWrites hN).mp h
  have := row_major_lt hy hx
  simp only
  omega

/-- The bytes ENCODE writes: byte `c` of file row `r` at its place in the pixel array (42_encode.md R171). -/
theorem mem_encodeWrites {W H : Nat} {c : Host.Cell} :
    c ∈ encodeWrites o (encodeGeometryOf W H) m ↔
      ∃ r < H, ∃ q < rowBytes W 3, c = (o.dstBase.toNat + r * rowBytes W 3 + q, encodedByte m o W H r q) := by
  have hle := le_rowBytes W 3
  simp only [encodeWrites, List.mem_flatMap, List.mem_range, List.mem_append, encodeRowPixels, encodeRowPadding,
    List.mem_map, List.mem_range'_1, encodeRowTo, dstRow, u32]
  constructor
  · rintro ⟨y, hy, (⟨x, hx, hc⟩ | ⟨p, ⟨hp1, hp2⟩, rfl⟩)⟩
    · obtain ⟨k, hk, rfl⟩ := (mem_cellsAt 0#8).mp hc
      simp only [encPix, List.length_cons, List.length_nil] at hk
      simp only [encodeGeometryOf] at hy hx hk ⊢
      refine ⟨H - 1 - y, by omega, x * 3 + k, by omega, ?_⟩
      refine Prod.ext (by simp only; omega) ?_
      have hq : (x * 3 + k) / 3 = x := by omega
      have hr : (x * 3 + k) % 3 = k := by omega
      have hyy : H - 1 - (H - 1 - y) = y := by omega
      simp only [encodedByte, if_pos (show x * 3 + k < 3 * W by omega), hq, hr, hyy, encodeFrom, u32]
      match k, hk with
      | 0, _ | 1, _ | 2, _ => simp [encPix, readBytes, Nat.add_assoc]
    · simp only [encodeGeometryOf] at hy hp1 hp2 ⊢
      refine ⟨H - 1 - y, by omega, p, by omega, ?_⟩
      simp only [encodedByte, if_neg (show ¬ p < 3 * W by omega)]
  · rintro ⟨r, hr, q, hq, rfl⟩
    refine ⟨H - 1 - r, by simp only [encodeGeometryOf]; omega, ?_⟩
    have hrr : H - 1 - (H - 1 - r) = r := by omega
    by_cases hc : q < 3 * W
    · refine .inl ⟨q / 3, by simp only [encodeGeometryOf]; omega, (mem_cellsAt 0#8).mpr ⟨q % 3, ?_, ?_⟩⟩
      · simp only [encPix, List.length_cons, List.length_nil]; omega
      · refine Prod.ext ?_ ?_
        · simp only [encodeGeometryOf, hrr]; omega
        · simp only [encodedByte, if_pos hc, encodeFrom, encodeGeometryOf, u32]
          have : q % 3 < 3 := by omega
          generalize q % 3 = k at this
          match k, this with
          | 0, _ | 1, _ | 2, _ => simp [encPix, readBytes, Nat.add_assoc]
    · refine .inr ⟨q, by simp only [encodeGeometryOf]; omega, ?_⟩
      simp only [encodedByte, if_neg hc, encodeGeometryOf, hrr]

theorem encodeWrites_inside {W H : Nat} {c : Host.Cell} (h : c ∈ encodeWrites o (encodeGeometryOf W H) m) :
    o.dstBase.toNat ≤ c.1 ∧ c.1 < o.dstBase.toNat + rowBytes W 3 * H := by
  obtain ⟨r, hr, q, hq, rfl⟩ := mem_encodeWrites.mp h
  have := row_major_lt hr hq
  simp only
  omega

/-- ENCODE writes no byte twice (42_encode.md R171). -/
theorem encodeWrites_distinct {W H : Nat} :
    (encodeWrites o (encodeGeometryOf W H) m).Pairwise (fun x y => x.1 ≠ y.1) := by
  have hle := le_rowBytes W 3
  -- where the bytes of one source row go
  have hrow : ∀ y, y < H → ∀ c ∈ encodeRowPixels o (encodeGeometryOf W H) m y ++ encodeRowPadding o (encodeGeometryOf W H) y,
      ∃ q < rowBytes W 3, c.1 = o.dstBase.toNat + ((H - 1 - y) * rowBytes W 3 + q) := by
    intro y hy c hc
    rcases List.mem_append.mp hc with hc | hc
    · obtain ⟨x, hx, hc⟩ := List.mem_flatMap.mp hc
      obtain ⟨k, hk, rfl⟩ := (mem_cellsAt 0#8).mp hc
      simp only [encPix, List.length_cons, List.length_nil] at hk
      simp only [List.mem_range, encodeGeometryOf] at hx
      exact ⟨x * 3 + k, by omega, by simp only [encodeRowTo, dstRow, encodeGeometryOf, u32]; omega⟩
    · obtain ⟨p, hp, rfl⟩ := List.mem_map.mp hc
      simp only [List.mem_range'_1, encodeGeometryOf] at hp
      exact ⟨p, by omega, by simp only [encodeRowTo, dstRow, encodeGeometryOf, u32]; omega⟩
  refine flatMap_distinct List.nodup_range ?_ ?_
  · intro y hy
    rw [List.pairwise_append]
    refine ⟨flatMap_distinct List.nodup_range (fun _ _ => cellsAt_distinct _) ?_, ?_, ?_⟩
    · intro x _ x' _ hne c hc d hd e
      obtain ⟨k, hk, rfl⟩ := (mem_cellsAt 0#8).mp hc
      obtain ⟨k', hk', rfl⟩ := (mem_cellsAt 0#8).mp hd
      simp only [encPix, List.length_cons, List.length_nil] at hk hk' e
      omega
    · unfold encodeRowPadding
      rw [List.pairwise_map]
      exact (List.nodup_range' (step := 1)).imp fun h => by simp only [ne_eq]; omega
    · intro c hc d hd e
      obtain ⟨x, hx, hc⟩ := List.mem_flatMap.mp hc
      obtain ⟨k, hk, rfl⟩ := (mem_cellsAt 0#8).mp hc
      obtain ⟨p, hp, rfl⟩ := List.mem_map.mp hd
      simp only [encPix, List.length_cons, List.length_nil] at hk
      simp only [List.mem_range, List.mem_range'_1, encodeGeometryOf] at hx hp e
      omega
  · intro y hy y' hy' hne c hc d hd e
    simp only [List.mem_range, encodeGeometryOf] at hy hy'
    obtain ⟨q, hq, hc⟩ := hrow y hy c hc
    obtain ⟨q', hq', hd⟩ := hrow y' hy' d hd
    have h : (H - 1 - y) * rowBytes W 3 + q = (H - 1 - y') * rowBytes W 3 + q' := by omega
    have h1 : ∀ a b, b < rowBytes W 3 → (a * rowBytes W 3 + b) / rowBytes W 3 = a := fun a b hb => by
      rw [Nat.mul_comm, Nat.mul_add_div (by omega), Nat.div_eq_of_lt hb, Nat.add_zero]
    have := h1 (H - 1 - y) q hq
    rw [h, h1 _ _ hq'] at this
    omega

/-- What holds of every frame past its checks: its destination lies in the address space, apart from its source; its writes
lie in the destination and name no address twice. -/
structure Frame.Sound (f : Frame) : Prop where
  inside : ∀ c ∈ f.writes, f.dst.lo ≤ c.1 ∧ c.1 < f.dst.hi
  distinct : f.writes.Pairwise (fun x y => x.1 ≠ y.1)
  inSpace : f.dst.hi ≤ Config.addressSpace
  apart : f.src.meets f.dst = false

theorem decodeFrame_ok {f : Frame} (h : decodeFrame o m = .ok f) :
    ∃ N W H, DecodeShape o N W H
      ∧ o.dataOffset.toNat + rowBytes W N * H ≤ o.srcLen.toNat ∧ W * H * 4 ≤ o.dstLen.toNat
      ∧ o.srcBase.toNat + (o.dataOffset.toNat + rowBytes W N * H) ≤ Config.addressSpace
      ∧ f = { src := decodeSrc o (decodeGeometryOf o N W H), dst := decodeDst o (decodeGeometryOf o N W H)
              uses := decodeUses o (decodeGeometryOf o N W H), writes := decodeWrites o (decodeGeometryOf o N W H) m
              result := decodeResult (decodeGeometryOf o N W H) }
      ∧ f.Sound := by
  cases e1 : decodeGeometry o with
  | error e => simp [decodeFrame, decodeChecked, e1, bind, Except.bind] at h
  | ok g =>
    obtain ⟨N, W, H, hs, rfl⟩ := decodeGeometry_ok e1
    simp only [decodeFrame, decodeChecked, e1, bind, Except.bind] at h
    split at h
    · cases h
    rename_i h1
    split at h1
    · cases h1
    cases h1
    split at h
    · cases h
    split at h
    · cases h
    split at h
    · cases h
    rename_i ht hl hr ho
    cases h
    refine ⟨N, W, H, hs, ?_, ?_, ?_, rfl, ?_, decodeWrites_distinct, ?_, Bool.eq_false_iff.mpr ho⟩
    · simpa [decodeGeometryOf, u32] using ht
    · simpa [decodeGeometryOf, u32] using hl
    · simp only [decodeGeometryOf, u32] at hr; omega
    · exact fun c hc => decodeWrites_inside hs.bytes hc
    · simp only [decodeDst, decodeGeometryOf, u32] at hr ⊢; omega

theorem encodeFrame_ok {f : Frame} (h : encodeFrame o m = .ok f) :
    ∃ W H, EncodeShape o W H
      ∧ W * H * 4 ≤ o.srcLen.toNat ∧ 54 + rowBytes W 3 * H ≤ 2 ^ 32 - 1 ∧ rowBytes W 3 * H ≤ o.dstLen.toNat
      ∧ o.srcBase.toNat + W * H * 4 ≤ Config.addressSpace
      ∧ f = { src := encodeSrc o (encodeGeometryOf W H), dst := encodeDst o (encodeGeometryOf W H)
              uses := encodeUses o (encodeGeometryOf W H), writes := encodeWrites o (encodeGeometryOf W H) m
              result := encodeResult (encodeGeometryOf W H) }
      ∧ f.Sound := by
  cases e1 : encodeGeometry o with
  | error e => simp [encodeFrame, encodeChecked, e1, bind, Except.bind] at h
  | ok g =>
    obtain ⟨W, H, hs, rfl⟩ := encodeGeometry_ok e1
    simp only [encodeFrame, encodeChecked, e1, bind, Except.bind] at h
    split at h
    · cases h
    rename_i h1
    split at h1
    · cases h1
    split at h1
    · cases h1
    cases h1
    split at h
    · cases h
    split at h
    · cases h
    split at h
    · cases h
    rename_i hb hz hl hr ho
    cases h
    refine ⟨W, H, hs, ?_, ?_, ?_, ?_, rfl, ?_, encodeWrites_distinct, ?_, Bool.eq_false_iff.mpr ho⟩
    · simp only [encodeGeometryOf, u32] at hb; omega
    · simp only [encodeGeometryOf] at hz; omega
    · simp only [encodeGeometryOf, u32] at hl; omega
    · simp only [encodeGeometryOf, u32] at hr; omega
    · exact fun c hc => encodeWrites_inside hc
    · simp only [encodeDst, encodeGeometryOf, u32] at hr ⊢; omega

/-! What exec can answer -/

/-- A command's own errors, of the block and raised before any memory access: neither BadCommand nor BusError. -/
def ownError (e : CmdError) : Prop := raisedByBlock e = true ∧ e ≠ .badCommand ∧ e ≠ .busError

theorem checkDepth_ownError {e : CmdError} (h : checkDepth o = .error e) : ownError e := by
  rw [(checkDepth_error.mp h).1]; exact ⟨rfl, by decide, by decide⟩

theorem checkWidth_ownError {e : CmdError} (h : checkWidth o = .error e) : ownError e := by
  rw [(checkWidth_error.mp h).1]; exact ⟨rfl, by decide, by decide⟩

theorem decodeGeometry_ownError {e : CmdError} (h : decodeGeometry o = .error e) : ownError e := by
  rcases decodeGeometry_error h with ⟨rfl, -⟩ | ⟨rfl, -⟩ <;> exact ⟨rfl, by decide, by decide⟩

theorem encodeGeometry_ownError {e : CmdError} (h : encodeGeometry o = .error e) : ownError e := by
  rw [(encodeGeometry_error h).1]; exact ⟨rfl, by decide, by decide⟩

theorem decodeChecked_ownError {e : CmdError} (h : decodeChecked o = .error e) : ownError e := by
  cases e1 : decodeGeometry o with
  | error e' =>
    simp only [decodeChecked, e1, bind, Except.bind, Except.error.injEq] at h
    exact h ▸ decodeGeometry_ownError e1
  | ok g =>
    simp only [decodeChecked, e1, bind, Except.bind] at h
    split at h <;> cases h
    exact ⟨rfl, by decide, by decide⟩

theorem encodeChecked_ownError {e : CmdError} (h : encodeChecked o = .error e) : ownError e := by
  cases e1 : encodeGeometry o with
  | error e' =>
    simp only [encodeChecked, e1, bind, Except.bind, Except.error.injEq] at h
    exact h ▸ encodeGeometry_ownError e1
  | ok g =>
    simp only [encodeChecked, e1, bind, Except.bind] at h
    split at h
    · cases h; exact ⟨rfl, by decide, by decide⟩
    · split at h <;> cases h
      exact ⟨rfl, by decide, by decide⟩

theorem decodeFrame_ownError {e : CmdError} (h : decodeFrame o m = .error e) : ownError e := by
  cases e1 : decodeChecked o with
  | error e' =>
    simp only [decodeFrame, e1, bind, Except.bind, Except.error.injEq] at h
    exact h ▸ decodeChecked_ownError e1
  | ok g =>
    simp only [decodeFrame, e1, bind, Except.bind] at h
    repeat' split at h
    all_goals cases h
    all_goals exact ⟨rfl, by decide, by decide⟩

theorem encodeFrame_ownError {e : CmdError} (h : encodeFrame o m = .error e) : ownError e := by
  cases e1 : encodeChecked o with
  | error e' =>
    simp only [encodeFrame, e1, bind, Except.bind, Except.error.injEq] at h
    exact h ▸ encodeChecked_ownError e1
  | ok g =>
    simp only [encodeFrame, e1, bind, Except.bind] at h
    repeat' split at h
    all_goals cases h
    all_goals exact ⟨rfl, by decide, by decide⟩

/-- A command that writes RESULT0..2 and touches no memory answers them or an error of its own. -/
def AnswersResults (r : Except CmdError CmdResult) : Prop :=
  (∃ x y z, r = .ok (.results x y z)) ∨ ∃ e, r = .error e ∧ ownError e

/-- A command that writes PIX_OUT answers it or an error of its own. -/
def AnswersPixel (r : Except CmdError CmdResult) : Prop :=
  (∃ p, r = .ok (.pixel p)) ∨ ∃ e, r = .error e ∧ ownError e

theorem strideCommand_answers : AnswersResults (strideCommand o) := by
  cases e1 : checkDepth o with
  | error e => exact .inr ⟨e, by simp [strideCommand, e1, bind, Except.bind], checkDepth_ownError e1⟩
  | ok n =>
    cases e2 : checkWidth o with
    | error e => exact .inr ⟨e, by simp [strideCommand, e1, e2, bind, Except.bind], checkWidth_ownError e2⟩
    | ok W => exact .inl ⟨_, _, _, by simp only [strideCommand, e1, e2, bind, Except.bind]; rfl⟩

theorem decCheckCommand_answers : AnswersResults (decCheckCommand o) := by
  cases e1 : decodeChecked o with
  | error e => exact .inr ⟨e, by simp [decCheckCommand, e1, bind, Except.bind], decodeChecked_ownError e1⟩
  | ok g => exact .inl ⟨_, _, _, by simp only [decCheckCommand, e1, bind, Except.bind, decodeResult]; rfl⟩

theorem encCheckCommand_answers : AnswersResults (encCheckCommand o) := by
  cases e1 : encodeChecked o with
  | error e => exact .inr ⟨e, by simp [encCheckCommand, e1, bind, Except.bind], encodeChecked_ownError e1⟩
  | ok g => exact .inl ⟨_, _, _, by simp only [encCheckCommand, e1, bind, Except.bind, encodeResult]; rfl⟩

theorem rowmapDecCommand_answers : AnswersResults (rowmapDecCommand o) := by
  cases e1 : decodeGeometry o with
  | error e => exact .inr ⟨e, by simp [rowmapDecCommand, e1, bind, Except.bind], decodeGeometry_ownError e1⟩
  | ok g =>
    by_cases h : u32 o.rowIndex ≥ g.absHeight
    · exact .inr ⟨.rowRange, by simp only [rowmapDecCommand, e1, bind, Except.bind, if_pos h],
        rfl, by decide, by decide⟩
    · exact .inl ⟨_, _, _, by simp only [rowmapDecCommand, e1, bind, Except.bind, if_neg h]; rfl⟩

theorem rowmapEncCommand_answers : AnswersResults (rowmapEncCommand o) := by
  cases e1 : encodeGeometry o with
  | error e => exact .inr ⟨e, by simp [rowmapEncCommand, e1, bind, Except.bind], encodeGeometry_ownError e1⟩
  | ok g =>
    by_cases h : u32 o.rowIndex ≥ g.height
    · exact .inr ⟨.rowRange, by simp only [rowmapEncCommand, e1, bind, Except.bind, if_pos h],
        rfl, by decide, by decide⟩
    · exact .inl ⟨_, _, _, by simp only [rowmapEncCommand, e1, bind, Except.bind, if_neg h]; rfl⟩

theorem pixDecCommand_answers : AnswersPixel (pixDecCommand o) := by
  cases e1 : checkDepth o with
  | error e => exact .inr ⟨e, by simp [pixDecCommand, e1, bind, Except.bind], checkDepth_ownError e1⟩
  | ok n => exact .inl ⟨_, by simp only [pixDecCommand, e1, bind, Except.bind]; rfl⟩

theorem pixEncCommand_answers : AnswersPixel (pixEncCommand o) := .inl ⟨_, rfl⟩

/-- Everything a completion can be, of a command in progress with working copy `w`. -/
inductive Completion (i : Instr) (s : State) (w : WorkingCopy) : State → Prop where
  /-- Success of a command that writes RESULT0..2 and touches no memory. -/
  | results (x y z : Nat) (h : i ≠ .pixDec ∧ i ≠ .pixEnc ∧ i ≠ .decode ∧ i ≠ .encode) :
      Completion i s w (completeOk s (.results x y z))
  /-- Success of PIX_DEC or PIX_ENC. -/
  | pixel (p : Word) (h : i = .pixDec ∨ i = .pixEnc) : Completion i s w (completeOk s (.pixel p))
  /-- A check failed. -/
  | error (e : CmdError) (h : ownError e) : Completion i s w (completeError s e)
  /-- Success of a frame command. -/
  | frame (f : Frame) (x y z : Nat) (hi : i = .decode ∧ decodeFrame w.ops s.mem = .ok f ∨ i = .encode ∧ encodeFrame w.ops s.mem = .ok f)
      (hf : f.Sound) (hr : f.result = .results x y z) : Completion i s w (completeOk (transferAll s f) (.results x y z))
  /-- BusError of a frame command. -/
  | bus (f : Frame) (hi : i = .decode ∧ decodeFrame w.ops s.mem = .ok f ∨ i = .encode ∧ encodeFrame w.ops s.mem = .ok f)
      (hf : f.Sound) : Completion i s w (completeError (transferPart s f) .busError)

theorem completion_of_results {i : Instr} {w : WorkingCopy} {r : Except CmdError CmdResult} (ha : AnswersResults r)
    (hi : i ≠ .pixDec ∧ i ≠ .pixEnc ∧ i ≠ .decode ∧ i ≠ .encode) (h : finish s r = .next t) : Completion i s w t := by
  rcases finish_next h with ⟨v, rfl, rfl⟩ | ⟨e, rfl, rfl⟩
  · rcases ha with ⟨x, y, z, hv⟩ | ⟨_, hv, -⟩ <;> cases hv
    exact .results x y z hi
  · rcases ha with ⟨_, _, _, hv⟩ | ⟨_, hv, he⟩ <;> cases hv
    exact .error e he

theorem completion_of_pixel {i : Instr} {w : WorkingCopy} {r : Except CmdError CmdResult} (ha : AnswersPixel r)
    (hi : i = .pixDec ∨ i = .pixEnc) (h : finish s r = .next t) : Completion i s w t := by
  rcases finish_next h with ⟨v, rfl, rfl⟩ | ⟨e, rfl, rfl⟩
  · rcases ha with ⟨p, hv⟩ | ⟨_, hv, -⟩ <;> cases hv
    exact .pixel p hi
  · rcases ha with ⟨_, hv⟩ | ⟨_, hv, he⟩ <;> cases hv
    exact .error e he

/-- What a command can answer when it goes on: one of the completions, and it was in progress. -/
theorem exec_next {i : Instr} (h : exec i s = .next t) : ∃ w, s.phase = .busy w ∧ Completion i s w t := by
  cases i with
  | stride =>
    obtain ⟨w, hw, h⟩ := withCommand_next h
    exact ⟨w, hw, completion_of_results strideCommand_answers (by decide) h⟩
  | decCheck =>
    obtain ⟨w, hw, h⟩ := withCommand_next h
    exact ⟨w, hw, completion_of_results decCheckCommand_answers (by decide) h⟩
  | encCheck =>
    obtain ⟨w, hw, h⟩ := withCommand_next h
    exact ⟨w, hw, completion_of_results encCheckCommand_answers (by decide) h⟩
  | rowmapDec =>
    obtain ⟨w, hw, h⟩ := withCommand_next h
    exact ⟨w, hw, completion_of_results rowmapDecCommand_answers (by decide) h⟩
  | rowmapEnc =>
    obtain ⟨w, hw, h⟩ := withCommand_next h
    exact ⟨w, hw, completion_of_results rowmapEncCommand_answers (by decide) h⟩
  | pixDec =>
    obtain ⟨w, hw, h⟩ := withCommand_next h
    exact ⟨w, hw, completion_of_pixel pixDecCommand_answers (.inl rfl) h⟩
  | pixEnc =>
    obtain ⟨w, hw, h⟩ := withCommand_next h
    exact ⟨w, hw, completion_of_pixel pixEncCommand_answers (.inr rfl) h⟩
  | decode =>
    obtain ⟨w, hw, h⟩ := withCommand_next h
    refine ⟨w, hw, ?_⟩
    rcases finishFrame_next h with ⟨e, he, rfl⟩ | ⟨f, hf, h⟩
    · exact .error e (decodeFrame_ownError he)
    · obtain ⟨N, W, H, -, -, -, -, hrec, hs⟩ := decodeFrame_ok hf
      obtain ⟨-, ⟨-, rfl⟩ | ⟨-, rfl⟩⟩ := runFrame_next h
      · exact .bus f (.inl ⟨rfl, hf⟩) hs
      · have hr : f.result = decodeResult (decodeGeometryOf w.ops N W H) := by rw [hrec]
        rw [hr]
        exact .frame f _ _ _ (.inl ⟨rfl, hf⟩) hs hr
  | encode =>
    obtain ⟨w, hw, h⟩ := withCommand_next h
    refine ⟨w, hw, ?_⟩
    rcases finishFrame_next h with ⟨e, he, rfl⟩ | ⟨f, hf, h⟩
    · exact .error e (encodeFrame_ownError he)
    · obtain ⟨W, H, -, -, -, -, -, hrec, hs⟩ := encodeFrame_ok hf
      obtain ⟨-, ⟨-, rfl⟩ | ⟨-, rfl⟩⟩ := runFrame_next h
      · exact .bus f (.inr ⟨rfl, hf⟩) hs
      · have hr : f.result = encodeResult (encodeGeometryOf W H) := by rw [hrec]
        rw [hr]
        exact .frame f _ _ _ (.inr ⟨rfl, hf⟩) hs hr

/-! Frames whose checks pass -/

theorem DecodeShape.sizes {N W H : Nat} (h : DecodeShape o N W H) : 4 ≤ rowBytes W N * H ∧ 4 ≤ W * H * 4 := by
  obtain ⟨-, hN, -, hW, -, hH, -⟩ := h
  have h1 : 4 ≤ rowBytes W N := by
    unfold rowBytes
    rcases hN with rfl | rfl <;> omega
  exact ⟨Nat.le_trans h1 (Nat.le_mul_of_pos_right _ hH), by have := Nat.mul_pos hW hH; omega⟩

theorem EncodeShape.sizes {W H : Nat} (h : EncodeShape o W H) : 4 ≤ rowBytes W 3 * H ∧ 4 ≤ W * H * 4 := by
  obtain ⟨-, hW, -, hH⟩ := h
  have h1 : 4 ≤ rowBytes W 3 := by unfold rowBytes; omega
  exact ⟨Nat.le_trans h1 (Nat.le_mul_of_pos_right _ hH), by have := Nat.mul_pos hW hH; omega⟩

/-- The frame of a decode that passes every check. -/
theorem decodeFrame_passes {N W H : Nat} (h : DecodePasses s o N W H) (m : Memory) :
    decodeFrame o m = .ok
      { src := decodeSrc o (decodeGeometryOf o N W H), dst := decodeDst o (decodeGeometryOf o N W H)
        uses := decodeUses o (decodeGeometryOf o N W H), writes := decodeWrites o (decodeGeometryOf o N W H) m
        result := decodeResult (decodeGeometryOf o N W H) } := by
  have hp := h.shape.sizes
  obtain ⟨hs, h1, h2, h3, h4, h5, -, -⟩ := h
  simp only [decodeFrame, decodeChecked, decodeGeometry_of_shape hs, bind, Except.bind]
  rw [if_neg (show ¬ (decodeGeometryOf o N W H).extent > u32 o.srcLen by simp only [decodeGeometryOf, u32]; omega)]
  simp only []
  rw [if_neg (show ¬ (decodeGeometryOf o N W H).outLen > u32 o.dstLen by simp only [decodeGeometryOf, u32]; omega),
    if_neg, if_neg]
  · simp only [decodeGeometryOf, u32, pixelArray, Window.meets_iff, decodeSrc, decodeDst] at *
    omega
  · simp only [decodeGeometryOf, u32, pixelArray, Config.addressSpace] at *
    omega

/-- The frame of an encode that passes every check. -/
theorem encodeFrame_passes {W H : Nat} (h : EncodePasses s o W H) (m : Memory) :
    encodeFrame o m = .ok
      { src := encodeSrc o (encodeGeometryOf W H), dst := encodeDst o (encodeGeometryOf W H)
        uses := encodeUses o (encodeGeometryOf W H), writes := encodeWrites o (encodeGeometryOf W H) m
        result := encodeResult (encodeGeometryOf W H) } := by
  have hp := h.shape.sizes
  obtain ⟨hs, h0, hz, h2, h3, h4, h5, -, -⟩ := h
  simp only [encodeFrame, encodeChecked, encodeGeometry_of_shape hs, bind, Except.bind]
  rw [if_neg (show ¬ u32 o.srcLen < (encodeGeometryOf W H).inLen by simp only [encodeGeometryOf, u32]; omega),
    if_neg (show ¬ (encodeGeometryOf W H).fileSize > 2 ^ 32 - 1 by simp only [encodeGeometryOf]; omega)]
  simp only []
  rw [if_neg (show ¬ (encodeGeometryOf W H).pixelDataSize > u32 o.dstLen by simp only [encodeGeometryOf, u32]; omega),
    if_neg, if_neg]
  · simp only [encodeGeometryOf, u32, Window.meets_iff, encodeSrc, encodeDst] at *
    omega
  · simp only [encodeGeometryOf, u32, Config.addressSpace] at *
    omega

/-! ENCODE's loops, turn by turn -/

/-- ENCODE's writes are those of its turns, each with what it reads from the memory before. -/
theorem encodeWrites_eq_units (o : OperandRegs) (g : EncodeGeometry) (m : Memory) :
    encodeWrites o g m = (encodeUnits g).flatMap (encodeUnitCells o g m) := by
  have single : ∀ (f : Nat → Host.Cell) (l : List Nat), l.map f = l.flatMap fun p => [f p] := fun f l => by
    induction l with
    | nil => rfl
    | cons p l ih => simp [ih]
  simp only [encodeWrites, encodeUnits, List.flatMap_assoc, List.flatMap_append, List.flatMap_map, encodeRowPixels,
    encodeRowPadding, encodeUnitCells, single]

/-! A command's completion does not depend on memory but through its frame -/

theorem finish_mem (s : State) (m : Memory) (r : Except CmdError CmdResult) :
    finish { s with mem := m } r = mapNext (fun t => { t with mem := m }) (finish s r) := by
  cases r with
  | ok r => cases r <;> rfl
  | error => rfl

end Sys2Proof.Machine
end

