-- ==== Sys2Proof/Laws/HostPort.lean ====
section
/-! SUPPORT. Once per operation of the agents outside the block, everything it can do: register accesses, memory accesses
and their stops, reset, and the block's turn. -/

namespace Sys2Proof.Machine

variable {s t : State} {o : OperandRegs} {m : Memory} {a : Nat}

/-! Running -/

theorem run_succ {n : Nat} (h : step s = .next t) : core.run (n + 1) s = core.run n t := by
  have h' : core.step s = .next t := h
  simp only [Host.Core.run, h']

/-- What the block's turn can answer while a command runs. -/
theorem blockTurn_next {w : WorkingCopy} (hw : s.phase = .busy w) (h : blockTurn s = .next t) :
    (∃ i, decode w.cmd = .instr i ∧ exec i s = .next t) ∨ t = completeError s .badCommand := by
  simp only [blockTurn, hw] at h
  split at h
  · exact .inl ⟨_, ‹_›, h⟩
  · cases h
    exact .inr rfl

/-! Register accesses -/

theorem windowOffset_some {p : Platform} {size : AccessSize}
    (h : size = .word ∧ p.blockBase ≤ a ∧ a < p.blockBase + 0x80 ∧ (a - p.blockBase) % 4 = 0) :
    windowOffset p a size = some (a - p.blockBase) := by
  unfold windowOffset Config.registerWindowSize
  exact if_pos ⟨h.1, h.2.1, by omega, h.2.2.2⟩

theorem windowOffset_none {p : Platform} {size : AccessSize}
    (h : ¬ (size = .word ∧ p.blockBase ≤ a ∧ a < p.blockBase + 0x80 ∧ (a - p.blockBase) % 4 = 0)) :
    windowOffset p a size = none := by
  unfold windowOffset Config.registerWindowSize
  exact if_neg fun h' => h ⟨h'.1, h'.2.1, by omega, h'.2.2.2⟩

theorem windowOffset_base {p : Platform} {offset : Nat} (h : offset < 0x80) (h4 : offset % 4 = 0) :
    windowOffset p (p.blockBase + offset) .word = some offset := by
  rw [windowOffset_some ⟨rfl, by omega, by omega, by rw [Nat.add_sub_cancel_left]; exact h4⟩, Nat.add_sub_cancel_left]

theorem lo32_toNat (v : DWord) : (lo32 v).toNat = v.toNat % 2 ^ 32 := by simp [lo32]

theorem hi32_toNat (v : DWord) : (hi32 v).toNat = v.toNat / 2 ^ 32 := by
  simp [hi32, Nat.shiftRight_eq_div_pow]
  have := v.isLt
  omega

/-- A register write never touches memory, the cache, the platform or the schedule. -/
theorem writeOffset_frame (s : State) (offset : Nat) (v : Word) :
    (writeOffset s offset v).mem = s.mem ∧ (writeOffset s offset v).hostCache = s.hostCache
    ∧ (writeOffset s offset v).platform = s.platform ∧ (writeOffset s offset v).schedule = s.schedule := by
  unfold writeOffset
  split
  · rename_i r _
    cases r <;> simp [writeReg, acceptCommand, startCommand, writeStatus, writeCtrl]
    split <;> simp
  · simp

/-- The fields of a STATUS read (10_state.md R26). -/
theorem statusWord_fields (s : State) :
    (statusWord s).getLsbD 0 = busyFlag s ∧ (statusWord s).getLsbD 1 = s.done ∧ (statusWord s).getLsbD 2 = s.err
    ∧ (statusWord s).getLsbD 3 = s.ovr ∧ (statusWord s).extractLsb' 8 8 = errcodeField s.errcode := by
  unfold statusWord
  generalize busyFlag s = b
  generalize s.done = d
  generalize s.err = e
  generalize s.ovr = o
  generalize errcodeField s.errcode = c
  revert c
  cases b <;> cases d <;> cases e <;> cases o <;> decide

/-! Memory accesses of the agents -/

theorem accessStop_none {allowed : Nat → Bool} (h : accessStop s allowed a = none) :
    a < Config.addressSpace ∧ allowed a = true ∧ s.platform.isDevice a = false := by
  unfold accessStop at h
  split at h
  · cases h
  · split at h
    · cases h
    · split at h
      · cases h
      · simp_all

/-- A stop is a fault or a refusal, never a next state. -/
theorem accessStop_stops {allowed : Nat → Bool} {r : StepResult} (h : accessStop s allowed a = some r) : r ≠ .next t := by
  unfold accessStop at h
  split at h
  · cases h; nofun
  · split at h
    · cases h; nofun
    · split at h
      · cases h; nofun
      · cases h

theorem accessesStop_stops {allowed : Nat → Bool} {as : List Nat} {r : StepResult}
    (h : accessesStop s allowed as = some r) : r ≠ .next t := by
  induction as with
  | nil => cases h
  | cons b as ih =>
    simp only [accessesStop] at h
    split at h
    · cases h
      exact accessStop_stops ‹_›
    · exact ih h

theorem accessesStop_none {allowed : Nat → Bool} {as : List Nat} (h : accessesStop s allowed as = none) :
    ∀ b ∈ as, b < Config.addressSpace ∧ allowed b = true ∧ s.platform.isDevice b = false := by
  induction as with
  | nil => simp
  | cons c as ih =>
    simp only [accessesStop] at h
    split at h
    · cases h
    · intro b hb
      rcases List.mem_cons.mp hb with rfl | hb
      · exact accessStop_none ‹_›
      · exact ih h b hb

/-- Accesses at rising addresses stop at the first one that the exclusion forbids. -/
theorem accessesStop_first {allowed : Nat → Bool} {n k : Nat} (hk : k < n) (ha : a + k < Config.addressSpace)
    (hal : allowed (a + k) = false)
    (h : ∀ j < k, allowed (a + j) = true ∧ s.platform.isDevice (a + j) = false) :
    accessesStop s allowed (List.range' a n) = some (.fault (.windowExclusion (a + k))) := by
  induction k generalizing a n with
  | zero =>
    obtain ⟨n, rfl⟩ : ∃ m, n = m + 1 := ⟨n - 1, by omega⟩
    rw [Nat.add_zero] at hal ha ⊢
    rw [List.range'_succ, accessesStop, accessStop, if_neg (by omega), hal]
    rfl
  | succ k ih =>
    obtain ⟨n, rfl⟩ : ∃ m, n = m + 1 := ⟨n - 1, by omega⟩
    obtain ⟨h0, h1⟩ := h 0 (by omega)
    rw [Nat.add_zero] at h0 h1
    have hn : accessStop s allowed a = none := by
      rw [accessStop, if_neg (by omega), h0, h1]
      rfl
    have e : ∀ j, a + 1 + j = a + (j + 1) := fun j => by omega
    rw [List.range'_succ, accessesStop, hn, ← e k]
    exact ih (by omega) (by omega) (by rw [e]; exact hal) fun j hj => by rw [e]; exact h (j + 1) (by omega)

/-- Accesses of which the exclusion forbids one, none of them outside the space or on a device, fault. -/
theorem accessesStop_excluded {allowed : Nat → Bool} {as : List Nat} (ha : a ∈ as) (hal : allowed a = false)
    (h : ∀ b ∈ as, b < Config.addressSpace ∧ s.platform.isDevice b = false) :
    ∃ b, accessesStop s allowed as = some (.fault (.windowExclusion b)) ∧ allowed b = false := by
  induction as with
  | nil => cases ha
  | cons c as ih =>
    obtain ⟨h0, h1⟩ := h c (by simp)
    cases hc : allowed c with
    | false =>
      refine ⟨c, ?_, hc⟩
      rw [accessesStop, accessStop, if_neg (by omega), hc]
      rfl
    | true =>
      have hn : accessStop s allowed c = none := by
        rw [accessStop, if_neg (by omega), hc, h1]
        rfl
      rcases List.mem_cons.mp ha with rfl | ha
      · rw [hc] at hal
        cases hal
      · obtain ⟨b, hb⟩ := ih ha fun b hb => h b (by simp [hb])
        exact ⟨b, by rw [accessesStop, hn]; exact hb⟩

/-! Frames on the platform -/

theorem onDevice_false {f : Frame} {p : Platform}
    (h : ∀ a, f.src.has a = true ∨ f.dst.has a = true → p.isDevice a = false) : f.onDevice p = false := by
  unfold Frame.onDevice
  rw [List.any_eq_false]
  intro d hd hm
  have common : ∀ w : Window, d.meets w = true → ∃ a, d.has a = true ∧ w.has a = true := by
    intro w hw
    simp only [Window.meets_iff] at hw
    refine ⟨max d.lo w.lo, ?_, ?_⟩ <;> simp only [Window.has_iff] <;> omega
  have dev : ∀ a, d.has a = true → p.isDevice a = true := fun a ha => List.any_eq_true.mpr ⟨d, hd, ha⟩
  rcases Bool.or_eq_true _ _ ▸ hm with hm | hm
  · obtain ⟨a, h1, h2⟩ := common _ hm
    exact absurd (dev a h1) (by simp [h a (.inl h2)])
  · obtain ⟨a, h1, h2⟩ := common _ hm
    exact absurd (dev a h1) (by simp [h a (.inr h2)])

theorem onDevice_true {f : Frame} {p : Platform} (hd : p.isDevice a = true)
    (h : f.src.has a = true ∨ f.dst.has a = true) : f.onDevice p = true := by
  obtain ⟨d, hd, ha⟩ := List.any_eq_true.mp hd
  refine List.any_eq_true.mpr ⟨d, hd, ?_⟩
  simp only [Bool.or_eq_true, Window.meets_iff, Window.has_iff] at *
  omega

/-! Frames that do not finish -/

/-- Each byte after an unfinished transfer is the old one or the one the command would have written. -/
theorem partialWrites_old_or_new {f : Frame} (hm : Memory.wf m) (hf : f.Sound) (n a : Nat) :
    memRead (writeCells m (f.partialWrites n)) a = memRead m a
      ∨ memRead (writeCells m (f.partialWrites n)) a = memRead (writeCells m f.writes) a := by
  by_cases h : ∃ b, (a, b) ∈ f.partialWrites n
  · obtain ⟨b, hb⟩ := h
    right
    rw [memRead_writeCells_mem hm.1 (show (f.partialWrites n).Pairwise _ from hf.distinct.filter _) hb,
      memRead_writeCells_mem hm.1 hf.distinct (List.mem_filter.mp hb).1]
  · left
    exact memRead_writeCells_other fun c hc e => h ⟨c.2, by rw [← e]; exact hc⟩

theorem partialWrites_outside {f : Frame} (hf : f.Sound) (n a : Nat) (h : f.dst.has a = false) :
    memRead (writeCells m (f.partialWrites n)) a = memRead m a := by
  refine memRead_writeCells_other fun c hc e => ?_
  have := hf.inside c (List.mem_filter.mp hc).1
  simp only [Window.has_false] at h
  omega

/-- On ordinary memory a reset leaves what a BusError leaves: each byte old or new. -/
theorem abandonedWrites_ordinary {f : Frame} {p : Platform} (h : f.onDevice p = false) (n : Nat) :
    f.abandonedWrites p n = f.partialWrites n := by
  rw [Frame.abandonedWrites, h]
  rfl

theorem abandonedWrites_inside {f : Frame} (hf : f.Sound) (p : Platform) (n : Nat) :
    ∀ c ∈ f.abandonedWrites p n, f.dst.lo ≤ c.1 ∧ c.1 < f.dst.hi := by
  have inside : ∀ c ∈ f.partialWrites n, f.dst.lo ≤ c.1 ∧ c.1 < f.dst.hi :=
    fun c hc => hf.inside c (List.mem_filter.mp hc).1
  unfold Frame.abandonedWrites
  split
  · intro c hc
    obtain ⟨d, hd, rfl⟩ := List.mem_map.mp hc
    exact inside d hd
  · exact inside

theorem abandonedWrites_outside {f : Frame} (hf : f.Sound) (p : Platform) (n a : Nat) (h : f.dst.has a = false) :
    memRead (writeCells m (f.abandonedWrites p n)) a = memRead m a := by
  refine memRead_writeCells_other fun c hc e => ?_
  have := abandonedWrites_inside hf p n c hc
  simp only [Window.has_false] at h
  omega

theorem abandonTransfer_wf {f : Frame} (hm : Memory.wf s.mem) (hf : f.Sound) :
    Memory.wf (abandonTransfer s f).mem :=
  writeCells_wf hm fun c hc => by
    have := abandonedWrites_inside hf s.platform s.freeCount c hc
    have := hf.inSpace
    omega

/-- Writes of a frame, all or some of them, leave every byte of its source window. -/
theorem writes_keep_source {f : Frame} (hf : f.Sound) (hne : f.dst.lo < f.dst.hi) (ha : f.src.has a = true)
    {cs : List Host.Cell} (hc : ∀ c ∈ cs, c ∈ f.writes) : memRead (writeCells m cs) a = memRead m a := by
  refine memRead_writeCells_other fun c hcc => ?_
  have h1 := hf.inside c (hc c hcc)
  have h2 : ¬ f.src.meets f.dst = true := by rw [hf.apart]; nofun
  simp only [Window.meets_iff, Window.has_iff] at h2 ha
  omega

theorem readBytes_congr {m' : Memory} {n : Nat} (h : ∀ k < n, memRead m (a + k) = memRead m' (a + k)) :
    readBytes m a n = readBytes m' a n := by
  induction n generalizing a with
  | zero => rfl
  | succ n ih =>
    rw [readBytes, readBytes, show memRead m a = memRead m' a from h 0 (by omega), ih fun k hk => ?_]
    have := h (k + 1) (by omega)
    rwa [show a + (k + 1) = a + 1 + k by omega] at this

/-! Windows of the command in progress, and reset -/

theorem runningWindows_of {w : WorkingCopy} {src dst : Window} (hw : s.phase = .busy w) (h : RunningFrame w src dst) :
    runningWindows s = some (src, dst) := by
  rcases h with ⟨hc, N, W, H, hs, rfl, rfl⟩ | ⟨hc, W, H, hs, rfl, rfl⟩
  · have : (decode w.cmd).toOption = some .decode := by rw [hc]; decide
    simp only [runningWindows, hw, this, decodeGeometry_of_shape hs, decodeSrc, decodeDst, decodeGeometryOf, u32,
      pixelArray, Nat.add_assoc]
  · have : (decode w.cmd).toOption = some .encode := by rw [hc]; decide
    simp only [runningWindows, hw, this, encodeGeometry_of_shape hs, encodeSrc, encodeDst, encodeGeometryOf, u32]

theorem runningFrame_sound {f : Frame} (h : runningFrame s = some f) : f.Sound := by
  unfold runningFrame at h
  split at h
  · cases h
  · split at h
    · rename_i w _ _ _
      cases hd : decodeFrame w.ops s.mem <;> rw [hd] at h <;> cases h
      obtain ⟨_, _, _, _, _, _, _, _, hS⟩ := decodeFrame_ok hd
      exact hS
    · rename_i w _ _ _
      cases hd : encodeFrame w.ops s.mem <;> rw [hd] at h <;> cases h
      obtain ⟨_, _, _, _, _, _, _, _, hS⟩ := encodeFrame_ok hd
      exact hS
    · cases h

/-- What a reset answers: a next state, from every state. -/
theorem applyReset_eq (s : State) :
    runningFrame s = none ∧ applyReset s = .next (resetRegisters s)
      ∨ ∃ f, runningFrame s = some f ∧ applyReset s = .next (resetRegisters (abandonTransfer s f)) := by
  unfold applyReset
  cases h : runningFrame s with
  | none => exact .inl ⟨rfl, rfl⟩
  | some f => exact .inr ⟨f, rfl, rfl⟩

theorem readReg_resetRegisters (s : State) {r : Reg} (h : r ≠ .id) : readReg (resetRegisters s) r = 0#32 := by
  cases r <;> first
    | exact absurd rfl h
    | rfl
    | (simp [readReg, statusWord, ctrlWord, busyFlag, hi32, errcodeField]; try decide)

end Sys2Proof.Machine
end

