-- ==== Sys2Proof/Laws/PerInstr.lean ====
section
/-! SUPPORT. Facts about every command as a term of Instr, one lemma per constructor. -/

namespace Sys2Proof.Laws.Encoding

/-- A command is well formed, its word is legal, and the decoder reads the command back (30_encoding.md R90, R92). -/
def Statement (i : Instr) : Prop :=
  i.wellFormed = true ∧ (cmdFields (encode i)).wellFormed = true ∧ decode (encode i) = .instr i

theorem stride : Statement .stride := ⟨rfl, by decide, by decide⟩

theorem decCheck : Statement .decCheck := ⟨rfl, by decide, by decide⟩

theorem decode : Statement .decode := ⟨rfl, by decide, by decide⟩

theorem encCheck : Statement .encCheck := ⟨rfl, by decide, by decide⟩

theorem encode : Statement .encode := ⟨rfl, by decide, by decide⟩

theorem rowmapDec : Statement .rowmapDec := ⟨rfl, by decide, by decide⟩

theorem rowmapEnc : Statement .rowmapEnc := ⟨rfl, by decide, by decide⟩

theorem pixDec : Statement .pixDec := ⟨rfl, by decide, by decide⟩

theorem pixEnc : Statement .pixEnc := ⟨rfl, by decide, by decide⟩

end Sys2Proof.Laws.Encoding
end

