-- ==== Sys2Proof/Tests/Slice0.lean ====
section
/-! SUPPORT. Tests of the model, each a named theorem: words written out bit by bit from 30_encoding.md R90 and R92, the
checks of WellFormed, single steps with the values of 95_test_vectors.md (its vector is named at each test), and for every
statement with hypotheses a concrete state and operands that meet them together. -/

namespace Sys2Proof.Tests

open Sys2Proof.Machine

/-! Small states -/

/-- A command in progress, nothing scheduled, on the platform of reset. -/
def running (c : Word) (o : OperandRegs) : State := { State.reset with phase := .busy { cmd := c, ops := o } }

/-- The same with memory contents. -/
def runningOn (m : Memory) (c : Word) (o : OperandRegs) : State := { running c o with mem := m }

/-- A state with events scheduled. -/
def soon (s : State) (es : List Event) : State := { s with schedule := es }

/-- Memory holding the given bytes. -/
def memoryAt (a : Nat) (bytes : List Byte) : Memory := writeCells [] (cellsAt a bytes)

/-- What a test looks at after a step. -/
def results : StepResult → Option (DWord × DWord × DWord × Word × Word)
  | .next t => some (t.result0, t.result1, t.result2, t.pixOut, statusWord t)
  | _ => none

/-- The bytes at an address after a step. -/
def bytesAfter (a n : Nat) : StepResult → List Byte
  | .next t => readBytes t.mem a n
  | _ => []

/-- STATUS after a step. -/
def statusAfter : StepResult → Option Word
  | .next t => some (statusWord t)
  | _ => none

/-- IRQ after a step. -/
def irqAfter : StepResult → Option Bool
  | .next t => some (irq t)
  | _ => none

/-- Operands of the one-pixel decode of vector W3 and program P2. -/
def onePixel : OperandRegs :=
  { OperandRegs.reset with
    bpp := 24#32, width := 1#32, height := 1#32, dataOffset := 54#32, srcBase := 0x1000#32, srcLen := 58#32,
    dstBase := 0x2000#32, dstLen := 4#32 }

/-- The pixel array of vector W3, `00 00 FF 00` after 54 header bytes. -/
def onePixelMemory : Memory := memoryAt 0x1036 [0x00#8, 0x00#8, 0xFF#8, 0x00#8]

/-- Operands of the one-pixel encode of vector W4. -/
def onePixelEncode : OperandRegs :=
  { OperandRegs.reset with
    width := 1#32, height := 1#32, srcBase := 0x2000#32, srcLen := 4#32, dstBase := 0x3036#32, dstLen := 4#32 }

/-- Operands of the decode of vector W5. -/
def bottomUp : OperandRegs :=
  { OperandRegs.reset with
    bpp := 24#32, width := 2#32, height := 2#32, srcBase := 0x100#32, srcLen := 16#32, dstBase := 0x200#32,
    dstLen := 16#32 }

/-- The pixel array of vector W5. -/
def bottomUpMemory : Memory :=
  memoryAt 0x100 [0x01#8, 0x02#8, 0x03#8, 0x04#8, 0x05#8, 0x06#8, 0x00#8, 0x00#8,
    0x11#8, 0x12#8, 0x13#8, 0x14#8, 0x15#8, 0x16#8, 0x00#8, 0x00#8]

/-- Operands of the encode of vector VN2. -/
def twoByTwo : OperandRegs :=
  { OperandRegs.reset with
    width := 2#32, height := 2#32, srcBase := 0x3000#32, srcLen := 16#32, dstBase := 0x6036#32, dstLen := 16#32 }

/-- The RGBA buffer of vector VN2 and a destination filled with 0xEE. -/
def twoByTwoMemory : Memory :=
  writeCells (memoryAt 0x3000 [0xA0#8, 0xA1#8, 0xA2#8, 0xA3#8, 0xB0#8, 0xB1#8, 0xB2#8, 0xB3#8,
    0xC0#8, 0xC1#8, 0xC2#8, 0xC3#8, 0xD0#8, 0xD1#8, 0xD2#8, 0xD3#8])
    (cellsAt 0x6036 (List.replicate 16 0xEE#8))

/-- The platform of reset but for one refused read (vector VF14: a read of `sb + 54`). -/
def refusingPlatform : Platform := { Platform.reset with refused := [⟨.read, ⟨0x1036, 0x1037⟩⟩] }

/-- The platform of reset but for one refused write. -/
def refusingWrites : Platform := { Platform.reset with refused := [⟨.write, ⟨0x2003, 0x2004⟩⟩] }

/-- The platform of reset with a device region on the destination of the one-pixel decode. -/
def devicePlatform : Platform := { Platform.reset with devices := [⟨0x2003, 0x2010⟩] }

/-! Decoding: each word bit by bit, RSV = 0 above OP (30_encoding.md R90, R92) -/

theorem test_decode_stride : decode 0b00000000000000000000000000000001#32 = .instr .stride := by decide
theorem test_decode_decCheck : decode 0b00000000000000000000000000000010#32 = .instr .decCheck := by decide
theorem test_decode_decode : decode 0b00000000000000000000000000000011#32 = .instr .decode := by decide
theorem test_decode_encCheck : decode 0b00000000000000000000000000000100#32 = .instr .encCheck := by decide
theorem test_decode_encode : decode 0b00000000000000000000000000000101#32 = .instr .encode := by decide
theorem test_decode_rowmapDec : decode 0b00000000000000000000000000000110#32 = .instr .rowmapDec := by decide
theorem test_decode_rowmapEnc : decode 0b00000000000000000000000000000111#32 = .instr .rowmapEnc := by decide
theorem test_decode_pixDec : decode 0b00000000000000000000000000001000#32 = .instr .pixDec := by decide
theorem test_decode_pixEnc : decode 0b00000000000000000000000000001001#32 = .instr .pixEnc := by decide

/-- VC2, VC4, VC5: a reserved OP, and a reserved bit beside a defined OP. -/
theorem test_decode_rejects_by_name :
    decode 0b00000000000000000000000000001010#32 = .illegal .reservedOp
      ∧ decode 0b00000000000000000000000000010001#32 = .illegal .reservedBits
      ∧ decode 0b10000000000000000000000000001001#32 = .illegal .reservedBits := by decide

theorem test_decodeTableWord :
    decodeTableWord 32 3 = some .decode ∧ decodeTableWord 32 0x13 = none ∧ decodeTableWord 8 0x103 = some .decode := by
  decide

/-! WellFormed: an ill-formed word for each check -/

theorem test_wellFormed_refuses_reserved_bits :
    (CmdWord.mk 1#28 1#4).rsvIsZero = false ∧ (CmdWord.mk 1#28 1#4).wellFormed = false
      ∧ (CmdWord.mk 0x8000000#28 9#4).wellFormed = false := by decide

theorem test_wellFormed_refuses_undefined_op :
    (CmdWord.mk 0#28 0x0#4).opIsDefined = false ∧ (CmdWord.mk 0#28 0x0#4).wellFormed = false
      ∧ (CmdWord.mk 0#28 0xA#4).wellFormed = false ∧ (CmdWord.mk 0#28 0xF#4).wellFormed = false := by decide

/-! One step of each command -/

/-- VS9: the widest row, whose stride needs 33 bits. -/
theorem test_stride_widest :
    results (step (running 1#32 { OperandRegs.reset with bpp := 24#32, width := 0x7FFFFFFF#32 }))
      = some (0x180000000#64, 0x17FFFFFFD#64, 3#64, 0#32, 0x2#32) := by decide

/-- VS16: depth is checked before dimension. -/
theorem test_stride_checks_depth_first :
    results (step (running 1#32 { OperandRegs.reset with bpp := 16#32 })) = some (0#64, 0#64, 0#64, 0#32, 0x504#32) := by
  decide

/-- VD9: an extent equal to SRC_LEN passes. -/
theorem test_decCheck_extent_equals_length :
    results (step (running 2#32 { OperandRegs.reset with
      bpp := 32#32, width := 1#32, height := 1#32, dataOffset := 0xFFFFFFFB#32, srcLen := 0xFFFFFFFF#32 }))
      = some (4#64, 0xFFFFFFFF#64, 4#64, 0#32, 0x2#32) := by decide

/-- VD8: the extent is exact, no wrap hides the truncation. -/
theorem test_decCheck_extent_is_exact :
    statusAfter (step (running 2#32 { OperandRegs.reset with
      bpp := 32#32, width := 0x7FFFFFFF#32, height := 0x7FFFFFFF#32, dataOffset := 54#32, srcLen := 0xFFFFFFFF#32 }))
      = some 0x604#32 := by decide

/-- W5 (VF2): a bottom-up decode reverses the rows. -/
theorem test_decode_bottom_up :
    bytesAfter 0x200 16 (step (runningOn bottomUpMemory 3#32 bottomUp))
      = [0x13#8, 0x12#8, 0x11#8, 0xFF#8, 0x16#8, 0x15#8, 0x14#8, 0xFF#8,
         0x03#8, 0x02#8, 0x01#8, 0xFF#8, 0x06#8, 0x05#8, 0x04#8, 0xFF#8] := by
  decide

/-- VF14: a refused read ends the command with BusError. -/
theorem test_decode_bus_error :
    results (step { runningOn onePixelMemory 3#32 onePixel with platform := refusingPlatform })
      = some (0#64, 0#64, 0#64, 0#32, 0x1704#32) := by rfl

/-- VE6: the largest file of one column that fits. -/
theorem test_encCheck_largest_file :
    results (step (running 4#32 { OperandRegs.reset with width := 1#32, height := 0x3FFFFFF2#32, srcLen := 0xFFFFFFFF#32 }))
      = some (4#64, 0xFFFFFFC8#64, 0xFFFFFFFE#64, 0#32, 0x2#32) := by decide

/-- VE7: one row more than VE6 allows. -/
theorem test_encCheck_size_overflow :
    statusAfter (step (running 4#32
      { OperandRegs.reset with width := 1#32, height := 0x3FFFFFF3#32, srcLen := 0xFFFFFFFF#32 })) = some 0x1104#32 := by
  decide

/-- VN2: rows bottom-up, and zero padding over the fill. -/
theorem test_encode_bottom_up_with_padding :
    bytesAfter 0x6036 16 (step (runningOn twoByTwoMemory 5#32 twoByTwo))
      = [0xC2#8, 0xC1#8, 0xC0#8, 0xD2#8, 0xD1#8, 0xD0#8, 0x00#8, 0x00#8,
         0xA2#8, 0xA1#8, 0xA0#8, 0xB2#8, 0xB1#8, 0xB0#8, 0x00#8, 0x00#8] := by
  decide

/-- VN6: BufferTooSmall comes before DstTooSmall. -/
theorem test_encode_buffer_before_destination :
    results (step (runningOn twoByTwoMemory 5#32 { twoByTwo with srcLen := 15#32, dstLen := 15#32 }))
      = some (0#64, 0#64, 0#64, 0#32, 0x704#32) := by decide

/-- VR1: the first output row of a bottom-up image is the last file row. -/
theorem test_rowmapDec_bottom_up :
    results (step (running 6#32 { OperandRegs.reset with
      bpp := 24#32, width := 1#32, height := 3#32, dataOffset := 54#32, rowIndex := 0#32 }))
      = some (2#64, 62#64, 0#64, 0#32, 0x2#32) := by decide

/-- VR6: a top-down image keeps its rows. -/
theorem test_rowmapDec_top_down :
    results (step (running 6#32 { OperandRegs.reset with
      bpp := 24#32, width := 1#32, height := 0xFFFFFFFD#32, dataOffset := 54#32, rowIndex := 2#32 }))
      = some (2#64, 62#64, 8#64, 0#32, 0x2#32) := by decide

/-- VQ1: the top row goes to the last file row. -/
theorem test_rowmapEnc_first_row :
    results (step (running 7#32 { OperandRegs.reset with width := 2#32, height := 3#32, rowIndex := 0#32 }))
      = some (2#64, 0#64, 16#64, 0#32, 0x2#32) := by decide

/-- VQ4: ROW_INDEX = HEIGHT is out of range. -/
theorem test_rowmapEnc_row_range :
    statusAfter (step (running 7#32 { OperandRegs.reset with width := 2#32, height := 3#32, rowIndex := 3#32 }))
      = some 0x1504#32 := by decide

/-- VP3: a 24-bit pixel gets alpha 0xFF. -/
theorem test_pixDec_24 :
    results (step (running 8#32 { OperandRegs.reset with bpp := 24#32, pixIn := 0x00332211#32 }))
      = some (0#64, 0#64, 0#64, 0xFF112233#32, 0x2#32) := by decide

/-- VP4: a 32-bit pixel keeps its alpha. -/
theorem test_pixDec_32 :
    results (step (running 8#32 { OperandRegs.reset with bpp := 32#32, pixIn := 0x80332211#32 }))
      = some (0#64, 0#64, 0#64, 0x80112233#32, 0x2#32) := by decide

/-- VX2: alpha is discarded. -/
theorem test_pixEnc_discards_alpha :
    results (step (running 9#32 { OperandRegs.reset with pixIn := 0x80112233#32 }))
      = some (0#64, 0#64, 0#64, 0x00332211#32, 0x2#32) := by decide

/-- VC4: a reserved bit makes the word illegal, though OP = 1. -/
theorem test_illegal_word : statusAfter (step (running 0x11#32 onePixel)) = some 0x1604#32 := by decide

/-! The register window, the interrupt and reset -/

/-- VI5: acceptance clears ERR and keeps ERRCODE. -/
theorem test_acceptance_keeps_errcode :
    statusAfter (step (soon { State.reset with err := true, errcode := some .unsupportedBitDepth }
      [.regWrite 0x04 .word 9#32])) = some 0x501#32 := by decide

/-- VI7: a CMD write while BUSY is dropped and sets OVR. -/
theorem test_dropped_command_sets_ovr :
    statusAfter (core.run 2 (soon (running 9#32 OperandRegs.reset) [.regWrite 0x04 .word 1#32, .blockStep]))
      = some 0xA#32 := by decide

/-- VI1: IRQ rises at the completion when IE is set. -/
theorem test_irq_rises : irqAfter (step { running 9#32 OperandRegs.reset with ie := true }) = some true := by decide

/-- VA6: only bit 0 of CTRL is held. -/
theorem test_ctrl_holds_one_bit :
    (match core.run 2 (soon State.reset [.regWrite 0x0C .word 0xFFFFFFFF#32, .regRead 0x0C .word]) with
      | .next t => t.lastRead
      | _ => none) = some 1#32 := by decide

/-- VA1: ID, with the window based away from zero. -/
theorem test_id_reads_its_constant :
    (match step (soon { State.reset with platform := { Platform.reset with blockBase := 0x40000000 } }
        [.regRead 0x40000000 .word]) with
      | .next t => t.lastRead
      | _ => none) = some 0x424D0001#32 := by decide

/-- VT6: reset clears OVR. -/
theorem test_reset_clears_ovr : statusAfter (step (soon { State.reset with ovr := true } [.reset])) = some 0#32 := by decide

/-- R231: the host writing a source byte of a running decode faults. -/
theorem test_window_exclusion :
    (match step (soon (runningOn onePixelMemory 3#32 onePixel) [.memWrite .host 0x1039 [1#8]]) with
      | .fault r => some r
      | _ => none) = some (.windowExclusion 0x1039) := by decide

/-- P4 step 13: the header bytes the host writes for a 2×2 file. -/
theorem test_file_header :
    fileHeader 2#32 2#32 16#32 70#32
      = [0x42#8, 0x4D#8, 0x46#8, 0x00#8, 0x00#8, 0x00#8, 0x00#8, 0x00#8, 0x00#8, 0x00#8, 0x36#8, 0x00#8, 0x00#8, 0x00#8,
         0x28#8, 0x00#8, 0x00#8, 0x00#8, 0x02#8, 0x00#8, 0x00#8, 0x00#8, 0x02#8, 0x00#8, 0x00#8, 0x00#8, 0x01#8, 0x00#8,
         0x18#8, 0x00#8, 0x00#8, 0x00#8, 0x00#8, 0x00#8, 0x10#8, 0x00#8, 0x00#8, 0x00#8, 0x13#8, 0x0B#8, 0x00#8, 0x00#8,
         0x13#8, 0x0B#8, 0x00#8, 0x00#8, 0x00#8, 0x00#8, 0x00#8, 0x00#8, 0x00#8, 0x00#8, 0x00#8, 0x00#8] := by decide

/-- The next step of a state with a fetched word runs that command, straight after reset (VX5, VT2). -/
theorem test_withFetchWord :
    statusAfter (step (State.reset.withFetchWord 32 9)) = some 0x2#32
      ∧ statusAfter (step (State.reset.withFetchWord 32 1)) = some 0x504#32 := by decide

/-! Witnesses: for each statement with hypotheses, states and operands that meet them together, each clause at a boundary -/

/-- A state of reset but for memory, phase, IE, platform and schedule is legal. -/
theorem legal_like_reset (s : State) (hm : Memory.wf s.mem) (hc : HostCache.wf s.hostCache) (hd : s.done = false)
    (he : s.err = false) (hn : s.errcode = none) : Legal s :=
  ⟨hm, hc, by simp [hd], fun _ _ => ⟨hd, he⟩, fun _ => hn, by simp [he], by simp [hn]⟩

theorem ok_of_isOk {α β : Type} {r : Except α β} (h : r.isOk = true) : ∃ v, r = .ok v := by
  cases r with
  | ok v => exact ⟨v, rfl⟩
  | error => cases h

/-- Whether a step answers a next state with the given ERRCODE field. -/
def nextWith (e : Option CmdError) (r : StepResult) : Bool :=
  match r with
  | .next t => t.errcode == e
  | _ => false

theorem next_of_nextWith {e : Option CmdError} {r : StepResult} (h : nextWith e r = true) :
    ∃ t, r = .next t ∧ t.errcode = e := by
  cases r with
  | next t => exact ⟨t, rfl, by simpa [nextWith] using h⟩
  | fault => cases h
  | refused => cases h

/-- The smallest image, and the tallest one. -/
theorem onePixel_shape : DecodeShape onePixel 3 1 1 := by constructor <;> decide

theorem tallest_shape :
    DecodeShape { onePixel with bpp := 32#32, width := 0x7FFFFFFF#32, height := 0x80000001#32 } 4 0x7FFFFFFF 0x7FFFFFFF := by
  constructor <;> decide

theorem onePixelEncode_shape : EncodeShape onePixelEncode 1 1 := by constructor <;> decide

theorem largest_encode_shape :
    EncodeShape { onePixelEncode with width := 0x7FFFFFFF#32, height := 0x7FFFFFFF#32 } 0x7FFFFFFF 0x7FFFFFFF := by
  constructor <;> decide

/-- The operand checks that hold of the one-pixel decode on any platform without a device there. -/
theorem onePixel_passes (s : State) (h : s.platform.devices = []) : DecodePasses s onePixel 3 1 1 :=
  ⟨onePixel_shape, by decide, by decide, by decide, by decide, by decide,
    fun _ _ _ => by simp [Platform.isDevice, h], fun _ _ _ => by simp [Platform.isDevice, h]⟩

theorem onePixelEncode_passes (s : State) (h : s.platform.devices = []) : EncodePasses s onePixelEncode 1 1 :=
  ⟨onePixelEncode_shape, by decide, by decide, by decide, by decide, by decide, by decide,
    fun _ _ _ => by simp [Platform.isDevice, h], fun _ _ _ => by simp [Platform.isDevice, h]⟩

theorem resetPlatform_admits (s : State) (h : s.platform.refused = []) (k : AccessKind) (lo hi : Nat) :
    BusAdmits s k lo hi := fun _ _ _ => by simp [Platform.admits, h]

theorem onePixel_legal (c : Word) (o : OperandRegs) (p : Platform) (es : List Event) :
    Legal { soon (runningOn onePixelMemory c o) es with platform := p } :=
  legal_like_reset _ (show Memory.wf onePixelMemory by decide) (show HostCache.wf [] by decide) rfl rfl rfl

theorem test_witness_DecodeAndEncodeAgree :
    Instr.pixEnc.wellFormed = true ∧ decode 0x00000009#32 = .instr .pixEnc := by decide

theorem test_witness_StepRunsTheCommandInProgress :
    (running 3#32 onePixel).phase = .busy ⟨3#32, onePixel⟩ ∧ decode 3#32 = .instr .decode
      ∧ (running 3#32 onePixel).schedule = []
      ∧ (soon (running 3#32 onePixel) [.blockStep, .reset]).schedule = .blockStep :: [.reset] := by decide

theorem test_witness_IllegalWordCompletesWithBadCommand :
    (running 10#32 onePixel).phase = .busy ⟨10#32, onePixel⟩ ∧ (running 10#32 onePixel).schedule = []
      ∧ (soon (running 0#32 onePixel) [.blockStep, .reset]).phase = .busy ⟨0#32, onePixel⟩
      ∧ (soon (running 0#32 onePixel) [.blockStep, .reset]).schedule = .blockStep :: [.reset]
      ∧ ¬ (1 ≤ (10#32).toNat ∧ (10#32).toNat ≤ 9) ∧ ¬ (1 ≤ (0#32).toNat ∧ (0#32).toNat ≤ 9) := by decide

/-- IDLE; a decode that passes its checks and whose destination starts a device region. -/
theorem test_witness_ResetInputSetsEveryRegister :
    (soon State.reset [.reset]).schedule = .reset :: []
      ∧ ({ soon (runningOn onePixelMemory 3#32 onePixel) [.reset] with platform := devicePlatform } : State).schedule
        = .reset :: [] := ⟨rfl, rfl⟩

/-- R194, R221: a reset ends a decode with a device under its destination. -/
theorem test_reset_wins_on_a_device :
    let s : State := { soon (runningOn onePixelMemory 3#32 onePixel) [.reset] with platform := devicePlatform }
    (runningFrame s).map (fun f => f.onDevice s.platform) = some true ∧ ∃ t, step s = .next t ∧ t.phase = .idle :=
  ⟨by decide, (applyReset_eq { (runningOn onePixelMemory 3#32 onePixel) with platform := devicePlatform }).elim
    (fun h => ⟨_, h.2, rfl⟩) fun ⟨_, h⟩ => ⟨_, h.2, rfl⟩⟩

theorem test_witness_ResetStateReadsTheResetValues : 0x7C ≠ 0x00 := by decide

/-- A decode and an encode on ordinary memory, and the decode with a device under its destination. -/
theorem test_witness_ResetDuringAFrameCommandAbandonsIt :
    let s := soon (runningOn onePixelMemory 3#32 onePixel) [.reset]
    let u := soon (runningOn onePixelMemory 5#32 onePixelEncode) [.reset]
    let v : State := { s with platform := devicePlatform }
    Legal s ∧ s.phase = .busy ⟨3#32, onePixel⟩ ∧ s.schedule = .reset :: [] ∧ (∀ a, s.platform.isDevice a = false)
      ∧ (∃ f, decodeFrame onePixel s.mem = .ok f)
      ∧ Legal u ∧ u.phase = .busy ⟨5#32, onePixelEncode⟩ ∧ u.schedule = .reset :: []
      ∧ (∀ a, u.platform.isDevice a = false) ∧ (∃ f, encodeFrame onePixelEncode u.mem = .ok f)
      ∧ Legal v ∧ v.phase = .busy ⟨3#32, onePixel⟩ ∧ v.schedule = .reset :: [] ∧ ∃ f, decodeFrame onePixel v.mem = .ok f :=
  ⟨onePixel_legal _ _ Platform.reset [.reset], rfl, rfl, fun _ => rfl, ok_of_isOk (by decide),
    onePixel_legal _ _ Platform.reset [.reset], rfl, rfl, fun _ => rfl, ok_of_isOk (by decide),
    onePixel_legal _ _ devicePlatform [.reset], rfl, rfl, ok_of_isOk (by decide)⟩

/-- A command that is no frame command, and a decode whose DST_LEN is one byte short. -/
theorem test_witness_ResetOtherwiseLeavesMemory :
    let s := soon (runningOn onePixelMemory 2#32 onePixel) [.reset]
    let u := soon (runningOn onePixelMemory 3#32 { onePixel with dstLen := 3#32 }) [.reset]
    let noFrame := fun s : State => ∀ w f, s.phase = .busy w →
      ¬ (w.cmd = 0x00000003#32 ∧ decodeFrame w.ops s.mem = .ok f)
      ∧ ¬ (w.cmd = 0x00000005#32 ∧ encodeFrame w.ops s.mem = .ok f)
    (s.schedule = .reset :: [] ∧ noFrame s) ∧ u.schedule = .reset :: [] ∧ noFrame u := by
  refine ⟨⟨rfl, ?_⟩, rfl, ?_⟩
  · intro w f hw
    cases hw
    exact ⟨fun h => absurd h.1 (by decide), fun h => absurd h.1 (by decide)⟩
  · intro w f hw
    cases hw
    refine ⟨fun h => ?_, fun h => absurd h.1 (by decide)⟩
    have : (decodeFrame { onePixel with dstLen := 3#32 } onePixelMemory).isOk = false := by decide
    rw [show decodeFrame { onePixel with dstLen := 3#32 } onePixelMemory = .ok f from h.2] at this
    cases this

/-- One running command before a CMD write, before its completion and a CMD write, and before a reset and its turn. -/
theorem test_witness_SequenceOrdersCommandsCompletionsAndResets :
    let cmdWrite := Event.regWrite 0x04 .word 9#32
    let s := soon (running 1#32 onePixel) [cmdWrite]
    let u := soon (running 1#32 onePixel) [.blockStep, cmdWrite]
    let v := soon (running 1#32 onePixel) [.reset, .blockStep]
    s.phase = .busy ⟨1#32, onePixel⟩ ∧ s.schedule = .regWrite (s.platform.blockBase + 0x04) .word 9#32 :: []
      ∧ u.phase = .busy ⟨1#32, onePixel⟩
      ∧ u.schedule = .blockStep :: .regWrite (u.platform.blockBase + 0x04) .word 9#32 :: [] ∧ (∃ t, step u = .next t)
      ∧ v.phase = .busy ⟨1#32, onePixel⟩ ∧ v.schedule = .reset :: .blockStep :: [] :=
  ⟨rfl, rfl, rfl, rfl, ⟨_, rfl⟩, rfl, rfl⟩

theorem test_witness_CmdWriteIsAcceptedOrDropped :
    let s := soon State.reset [.regWrite 0x04 .word 1#32]
    let u := soon (running 1#32 onePixel) [.regWrite 0x04 .word 1#32]
    s.schedule = .regWrite (s.platform.blockBase + 0x04) .word 1#32 :: [] ∧ s.phase = .idle
      ∧ u.schedule = .regWrite (u.platform.blockBase + 0x04) .word 1#32 :: [] ∧ u.phase = .busy ⟨1#32, onePixel⟩
      ∧ 0x34 ∈ [0x10, 0x14, 0x18, 0x1C, 0x20, 0x24, 0x28, 0x2C, 0x30, 0x34]
      ∧ (soon (running 1#32 onePixel) [.regWrite 0x34 .word 5#32]).schedule
        = .regWrite (u.platform.blockBase + 0x34) .word 5#32 :: [] := by
  decide

theorem test_witness_ConfigurationWriteUpdatesOneRegister :
    let s := soon State.reset [.regWrite 0x10 .word 5#32]
    let u := soon (running 1#32 onePixel) [.regWrite 0x34 .word 5#32]
    0x10 ∈ [0x10, 0x14, 0x18, 0x1C, 0x20, 0x24, 0x28, 0x2C, 0x30, 0x34]
      ∧ s.schedule = .regWrite (s.platform.blockBase + 0x10) .word 5#32 :: []
      ∧ 0x34 ∈ [0x10, 0x14, 0x18, 0x1C, 0x20, 0x24, 0x28, 0x2C, 0x30, 0x34]
      ∧ u.schedule = .regWrite (u.platform.blockBase + 0x34) .word 5#32 :: [] := by decide

theorem test_witness_StatusReadsItsFieldsAndClearsByWritingOnes :
    (soon State.reset [.regRead 0x08 .word]).schedule = .regRead (State.reset.platform.blockBase + 0x08) .word :: []
      ∧ (soon State.reset [.regWrite 0x08 .word 2#32]).schedule
        = .regWrite (State.reset.platform.blockBase + 0x08) .word 2#32 :: [] := by decide

theorem test_witness_CtrlHoldsTheInterruptEnable :
    (soon State.reset [.regRead 0x0C .word]).schedule = .regRead (State.reset.platform.blockBase + 0x0C) .word :: []
      ∧ (soon State.reset [.regWrite 0x0C .word 1#32]).schedule
        = .regWrite (State.reset.platform.blockBase + 0x0C) .word 1#32 :: [] := by decide

theorem test_witness_RegisterReadsHaveNoSideEffects :
    0x00 < 0x80 ∧ 0x00 % 4 = 0 ∧ 0x7C < 0x80 ∧ 0x7C % 4 = 0
      ∧ (soon State.reset [.regRead 0x00 .word]).schedule = .regRead (State.reset.platform.blockBase + 0x00) .word :: []
      ∧ (soon State.reset [.regRead 0x7C .word]).schedule = .regRead (State.reset.platform.blockBase + 0x7C) .word :: [] := by
  decide

theorem test_witness_ReservedAndReadOnlyOffsetsIgnoreWrites :
    0x7C ∈ [0x3C, 0x58, 0x5C, 0x60, 0x64, 0x68, 0x6C, 0x70, 0x74, 0x78, 0x7C]
      ∧ (soon State.reset [.regRead 0x7C .word]).schedule = .regRead (State.reset.platform.blockBase + 0x7C) .word :: []
      ∧ (soon State.reset [.regWrite 0x7C .word 1#32]).schedule
        = .regWrite (State.reset.platform.blockBase + 0x7C) .word 1#32 :: []
      ∧ 0x00 ∈ [0x3C, 0x58, 0x5C, 0x60, 0x64, 0x68, 0x6C, 0x70, 0x74, 0x78, 0x7C, 0x00, 0x38, 0x40, 0x44, 0x48, 0x4C,
          0x50, 0x54]
      ∧ (soon State.reset [.regWrite 0x00 .word 1#32]).schedule
        = .regWrite (State.reset.platform.blockBase + 0x00) .word 1#32 :: []
      ∧ (soon State.reset [.regWrite 0x04 .word 1#32]).schedule
        = .regWrite (State.reset.platform.blockBase + 0x04) .word 1#32 :: [] := by decide

/-- The last word of the window is inside, the first byte past it and an odd halfword are not. -/
theorem test_witness_OnlyAlignedWordRegisterAccessesHaveMeaning :
    (soon State.reset [.regRead 0x7C .word]).schedule = .regRead 0x7C .word :: []
      ∧ (AccessSize.word = .word ∧ State.reset.platform.blockBase ≤ 0x7C ∧ 0x7C < State.reset.platform.blockBase + 0x80
        ∧ (0x7C - State.reset.platform.blockBase) % 4 = 0)
      ∧ (soon State.reset [.regWrite 0x80 .word 1#32]).schedule = .regWrite 0x80 .word 1#32 :: []
      ∧ ¬ (AccessSize.word = .word ∧ State.reset.platform.blockBase ≤ 0x80 ∧ 0x80 < State.reset.platform.blockBase + 0x80
        ∧ (0x80 - State.reset.platform.blockBase) % 4 = 0)
      ∧ ¬ (AccessSize.half = .word ∧ State.reset.platform.blockBase ≤ 0x10 ∧ 0x10 < State.reset.platform.blockBase + 0x80
        ∧ (0x10 - State.reset.platform.blockBase) % 4 = 0) := by decide

theorem test_witness_IrqRisesAtCompletionAndFallsWhenCleared :
    Legal (running 9#32 onePixel) ∧ (running 9#32 onePixel).phase = .busy ⟨9#32, onePixel⟩
      ∧ (running 9#32 onePixel).schedule = [] ∧ (∃ t, step (running 9#32 onePixel) = .next t)
      ∧ (∃ rest, (soon (running 9#32 onePixel) [.blockStep]).schedule = .blockStep :: rest)
      ∧ (∃ t, step (soon (running 9#32 onePixel) [.blockStep]) = .next t)
      ∧ (∃ t, step (soon State.reset [.regWrite (State.reset.platform.blockBase + 0x08) .word 6#32]) = .next t)
      ∧ (6#32).getLsbD 1 = true ∧ (6#32).getLsbD 2 = true
      ∧ (∃ t, step (soon State.reset [.regWrite (State.reset.platform.blockBase + 0x04) .word 9#32]) = .next t)
      ∧ (∃ t, step (soon State.reset [.reset]) = .next t)
      ∧ (∃ t, step (soon State.reset [.regWrite (State.reset.platform.blockBase + 0x0C) .word 0#32]) = .next t)
      ∧ (0#32).getLsbD 0 = false :=
  ⟨legal_like_reset _ (by decide) (by decide) rfl rfl rfl, rfl, rfl, ⟨_, rfl⟩, ⟨_, rfl⟩, ⟨_, rfl⟩, ⟨_, rfl⟩, by decide,
    by decide, ⟨_, rfl⟩, ⟨_, rfl⟩, ⟨_, rfl⟩,
    by decide⟩

/-- `q = 1` is the least multiple for one 24-bit pixel. -/
theorem test_witness_StrideIsTheLeastMultipleOfFour : 1 ≤ 1 ∧ (3 = 3 ∨ 3 = 4) ∧ 1 * 3 ≤ 1 * 4 := by decide

theorem test_witness_RowMapsAreTheirOwnInverses : 0 < 1 ∧ 2 < 3 := by decide

/-- The largest images, their last rows, and the widest row of STRIDE. -/
theorem test_witness_EveryQuantityFitsSixtyFourBits :
    let tall := { onePixel with bpp := 32#32, width := 0x7FFFFFFF#32, height := 0x80000001#32 }
    let large := { onePixelEncode with width := 0x7FFFFFFF#32, height := 0x7FFFFFFF#32 }
    (∃ g, decodeGeometry tall = .ok g ∧ 0x7FFFFFFE < g.absHeight)
      ∧ (∃ g, encodeGeometry large = .ok g ∧ 0x7FFFFFFE < g.height)
      ∧ ∃ x y z, strideCommand tall = .ok (.results x y z) :=
  ⟨⟨_, rfl, by decide⟩, ⟨_, rfl, by decide⟩, _, _, _, rfl⟩

theorem test_witness_StrideReportsStrideRowBytesAndPadding :
    ¬ DepthOk { onePixel with bpp := 25#32 } ∧ DepthOk onePixel ∧ (0#32 : Word).toInt < 1
      ∧ onePixel.bpp.toNat = 8 * 3 ∧ onePixel.width.toInt = (1 : Nat) ∧ 1 ≤ 1
      ∧ (0x7FFFFFFF#32).toInt = (0x7FFFFFFF : Nat) := by unfold DepthOk; decide

theorem test_witness_DecCheckValidatesAndReportsSizes :
    ¬ DepthOk { onePixel with bpp := 25#32 } ∧ DepthOk onePixel
      ∧ DecodeDimsBad { onePixel with height := 0x80000000#32 } ∧ DecodeDimsBad { onePixel with height := 0#32 }
      ∧ DecodeShape onePixel 3 1 1 ∧ 57 < onePixel.dataOffset.toNat + rowBytes 1 3 * 1
      ∧ onePixel.dataOffset.toNat + rowBytes 1 3 * 1 ≤ onePixel.srcLen.toNat :=
  ⟨by unfold DepthOk; decide, by unfold DepthOk; decide, by unfold DecodeDimsBad; decide,
    by unfold DecodeDimsBad; decide, onePixel_shape, by decide, by decide⟩

/-- Row 0 of one row is inside, row 1 is not. -/
theorem test_witness_RowmapDecReportsWhereARowComesFrom :
    ¬ DepthOk { onePixel with bpp := 25#32 } ∧ DepthOk onePixel ∧ DecodeDimsBad { onePixel with width := 0#32 }
      ∧ DecodeShape onePixel 3 1 1 ∧ onePixel.rowIndex.toNat < 1
      ∧ DecodeShape { onePixel with rowIndex := 1#32 } 3 1 1 ∧ 1 ≤ (1#32 : Word).toNat :=
  ⟨by unfold DepthOk; decide, by unfold DepthOk; decide, by unfold DecodeDimsBad; decide, onePixel_shape, by decide,
    by constructor <;> decide, by decide⟩

theorem test_witness_PixDecReordersOnePixel :
    (running 8#32 onePixel).phase = .busy ⟨8#32, onePixel⟩ ∧ DepthOk onePixel ∧ DepthOk { onePixel with bpp := 32#32 }
      ∧ ¬ DepthOk { onePixel with bpp := 31#32 } := by unfold DepthOk; decide

/-- One column of 0x3FFFFFF2 rows is the largest that fits, and one row more is too large. -/
theorem test_witness_EncCheckValidatesAndReportsSizes :
    EncodeDimsBad { onePixelEncode with height := 0xFFFFFFFF#32 } ∧ EncodeShape onePixelEncode 1 1
      ∧ (3#32 : Word).toNat < 1 * 1 * 4
      ∧ EncodeShape { onePixelEncode with height := 0x3FFFFFF3#32, srcLen := 0xFFFFFFFF#32 } 1 0x3FFFFFF3
      ∧ 1 * 0x3FFFFFF3 * 4 ≤ (0xFFFFFFFF#32 : Word).toNat ∧ 2 ^ 32 - 1 < 54 + rowBytes 1 3 * 0x3FFFFFF3
      ∧ 54 + rowBytes 1 3 * 0x3FFFFFF2 ≤ 2 ^ 32 - 1 :=
  ⟨by unfold EncodeDimsBad; decide, onePixelEncode_shape, by decide, by constructor <;> decide, by decide, by decide,
    by decide⟩

theorem test_witness_RowmapEncReportsWhereARowGoes :
    EncodeDimsBad { onePixelEncode with height := 0#32 } ∧ EncodeShape onePixelEncode 1 1
      ∧ onePixelEncode.rowIndex.toNat < 1
      ∧ EncodeShape { onePixelEncode with rowIndex := 1#32 } 1 1 ∧ 1 ≤ (1#32 : Word).toNat :=
  ⟨by unfold EncodeDimsBad; decide, onePixelEncode_shape, by decide, by constructor <;> decide, by decide⟩

theorem test_witness_PixEncReordersOnePixel :
    (running 9#32 onePixel).phase = .busy ⟨9#32, onePixel⟩ ∧ onePixel.bpp = 24#32
      ∧ (running 8#32 onePixel).phase = .busy ⟨8#32, onePixel⟩
      ∧ onePixel.pixIn = 0x00#8 ++ onePixel.pixIn.extractLsb' 0 8 ++ onePixel.pixIn.extractLsb' 8 8
        ++ onePixel.pixIn.extractLsb' 16 8 := by decide

/-- Each check of DECODE fails by one: SRC_LEN 57, DST_LEN 3, a window end of 2^32 + 1, a destination on the last byte. -/
theorem test_witness_DecodeChecksInOrder :
    ¬ DepthOk { onePixel with bpp := 25#32 } ∧ DepthOk onePixel ∧ DecodeDimsBad { onePixel with height := 0#32 }
      ∧ DecodeShape onePixel 3 1 1 ∧ (57#32 : Word).toNat < 54 + rowBytes 1 3 * 1
      ∧ 54 + rowBytes 1 3 * 1 ≤ onePixel.srcLen.toNat ∧ (3#32 : Word).toNat < 1 * 1 * 4
      ∧ 1 * 1 * 4 ≤ onePixel.dstLen.toNat ∧ 2 ^ 32 < (0xFFFFFFFD#32 : Word).toNat + 1 * 1 * 4
      ∧ DecodeShape { onePixel with dstBase := 0x1039#32 } 3 1 1
      ∧ pixelArray { onePixel with dstBase := 0x1039#32 } < (0x1039#32 : Word).toNat + 1 * 1 * 4
      ∧ (0x1039#32 : Word).toNat < pixelArray { onePixel with dstBase := 0x1039#32 } + rowBytes 1 3 * 1 :=
  ⟨by unfold DepthOk; decide, by unfold DepthOk; decide, by unfold DecodeDimsBad; decide, onePixel_shape, by decide,
    by decide, by decide, by decide, by decide, by constructor <;> decide, by decide, by decide⟩

theorem test_witness_DecodeWritesTheTopDownRgbaBuffer :
    let s := runningOn onePixelMemory 3#32 onePixel
    Legal s ∧ s.phase = .busy ⟨3#32, onePixel⟩ ∧ DecodePasses s onePixel 3 1 1
      ∧ BusAdmits s .read (pixelArray onePixel) (pixelArray onePixel + rowBytes 1 3 * 1)
      ∧ BusAdmits s .write onePixel.dstBase.toNat (onePixel.dstBase.toNat + 1 * 1 * 4) :=
  ⟨onePixel_legal _ _ Platform.reset [], rfl, onePixel_passes _ rfl, resetPlatform_admits _ rfl _ _ _,
    resetPlatform_admits _ rfl _ _ _⟩

/-- A refused read of the pixel's first byte, and a refused write of the last destination byte. -/
theorem test_witness_DecodeBusErrorLeavesOldOrNewBytes :
    let s : State := { runningOn onePixelMemory 3#32 onePixel with platform := refusingPlatform }
    let u : State := { runningOn onePixelMemory 3#32 onePixel with platform := refusingWrites }
    Legal s ∧ s.phase = .busy ⟨3#32, onePixel⟩ ∧ DecodePasses s onePixel 3 1 1
      ∧ (∃ y < 1, ∃ x < 1, ∃ j < 3, s.platform.admits (decodePixelAt onePixel 3 1 1 y x + j) .read = false)
      ∧ Legal u ∧ u.phase = .busy ⟨3#32, onePixel⟩ ∧ DecodePasses u onePixel 3 1 1
      ∧ ∃ j < 1 * 1 * 4, u.platform.admits (onePixel.dstBase.toNat + j) .write = false :=
  ⟨onePixel_legal _ _ refusingPlatform [], rfl, onePixel_passes _ rfl, by decide, onePixel_legal _ _ refusingWrites [],
    rfl, onePixel_passes _ rfl, by decide⟩

/-- Each check of ENCODE fails by one. -/
theorem test_witness_EncodeChecksInOrder :
    EncodeDimsBad { onePixelEncode with width := 0#32 } ∧ EncodeShape onePixelEncode 1 1
      ∧ (3#32 : Word).toNat < 1 * 1 * 4 ∧ 1 * 1 * 4 ≤ onePixelEncode.srcLen.toNat
      ∧ EncodeShape { onePixelEncode with height := 0x3FFFFFF3#32 } 1 0x3FFFFFF3
      ∧ 1 * 0x3FFFFFF3 * 4 ≤ (0xFFFFFFFF#32 : Word).toNat ∧ 2 ^ 32 - 1 < 54 + rowBytes 1 3 * 0x3FFFFFF3
      ∧ 54 + rowBytes 1 3 * 1 ≤ 2 ^ 32 - 1 ∧ (3#32 : Word).toNat < rowBytes 1 3 * 1
      ∧ rowBytes 1 3 * 1 ≤ onePixelEncode.dstLen.toNat ∧ 2 ^ 32 < (0xFFFFFFFD#32 : Word).toNat + 1 * 1 * 4
      ∧ EncodeShape { onePixelEncode with dstBase := 0x2003#32 } 1 1
      ∧ onePixelEncode.srcBase.toNat < (0x2003#32 : Word).toNat + rowBytes 1 3 * 1
      ∧ (0x2003#32 : Word).toNat < onePixelEncode.srcBase.toNat + 1 * 1 * 4 :=
  ⟨by unfold EncodeDimsBad; decide, onePixelEncode_shape, by decide, by decide, by constructor <;> decide, by decide,
    by decide, by decide, by decide, by decide, by decide, by constructor <;> decide, by decide, by decide⟩

theorem test_witness_EncodeWritesTheBottomUpPixelArray :
    let s := runningOn onePixelMemory 5#32 onePixelEncode
    Legal s ∧ s.phase = .busy ⟨5#32, onePixelEncode⟩ ∧ EncodePasses s onePixelEncode 1 1
      ∧ BusAdmits s .read onePixelEncode.srcBase.toNat (onePixelEncode.srcBase.toNat + 1 * 1 * 4)
      ∧ BusAdmits s .write onePixelEncode.dstBase.toNat (onePixelEncode.dstBase.toNat + rowBytes 1 3 * 1) :=
  ⟨onePixel_legal _ _ Platform.reset [], rfl, onePixelEncode_passes _ rfl, resetPlatform_admits _ rfl _ _ _,
    resetPlatform_admits _ rfl _ _ _⟩

/-- A refused read of the B byte, and a refused write of the padding byte. -/
theorem test_witness_EncodeBusErrorLeavesOldOrNewBytes :
    let p : Platform := { Platform.reset with refused := [⟨.read, ⟨0x2002, 0x2003⟩⟩] }
    let q : Platform := { Platform.reset with refused := [⟨.write, ⟨0x3039, 0x303A⟩⟩] }
    let s : State := { runningOn onePixelMemory 5#32 onePixelEncode with platform := p }
    let u : State := { runningOn onePixelMemory 5#32 onePixelEncode with platform := q }
    Legal s ∧ s.phase = .busy ⟨5#32, onePixelEncode⟩ ∧ EncodePasses s onePixelEncode 1 1
      ∧ (∃ y < 1, ∃ x < 1, ∃ j < 3,
          s.platform.admits (onePixelEncode.srcBase.toNat + (y * 1 + x) * 4 + j) .read = false)
      ∧ Legal u ∧ u.phase = .busy ⟨5#32, onePixelEncode⟩ ∧ EncodePasses u onePixelEncode 1 1
      ∧ ∃ j < rowBytes 1 3 * 1, u.platform.admits (onePixelEncode.dstBase.toNat + j) .write = false :=
  ⟨onePixel_legal _ _ _ [], rfl, onePixelEncode_passes _ rfl, by decide, onePixel_legal _ _ _ [], rfl,
    onePixelEncode_passes _ rfl, by decide⟩

/-- The device region starts at the last destination byte of the decode, and at a source byte of the encode. -/
theorem test_witness_FrameWindowOnADeviceIsRefused :
    devicePlatform.isDevice 0x2003 = true
      ∧ (∃ f, decodeFrame onePixel onePixelMemory = .ok f ∧ f.dst.has 0x2003 = true)
      ∧ (∃ f, encodeFrame onePixelEncode onePixelMemory = .ok f ∧ f.src.has 0x2003 = true)
      ∧ (runningOn onePixelMemory 3#32 onePixel).phase = .busy ⟨3#32, onePixel⟩
      ∧ (runningOn onePixelMemory 5#32 onePixelEncode).phase = .busy ⟨5#32, onePixelEncode⟩ := by
  obtain ⟨f, hf⟩ := ok_of_isOk (r := decodeFrame onePixel onePixelMemory) (by decide)
  obtain ⟨g, hg⟩ := ok_of_isOk (r := encodeFrame onePixelEncode onePixelMemory) (by decide)
  refine ⟨by decide, ⟨f, hf, ?_⟩, ⟨g, hg, ?_⟩, rfl, rfl⟩
  · have : (decodeFrame onePixel onePixelMemory).toOption.map (fun f => f.dst.has 0x2003) = some true := by decide
    simpa [hf, Except.toOption] using this
  · have : (encodeFrame onePixelEncode onePixelMemory).toOption.map (fun f => f.src.has 0x2003) = some true := by decide
    simpa [hg, Except.toOption] using this

theorem test_witness_OrderOfWritesIsNotObservable :
    Legal (runningOn onePixelMemory 3#32 onePixel)
      ∧ ∃ f, (decodeFrame onePixel onePixelMemory = .ok f ∨ encodeFrame onePixel onePixelMemory = .ok f)
        ∧ f.writes.Perm f.writes.reverse :=
  ⟨onePixel_legal _ _ Platform.reset [],
    (ok_of_isOk (r := decodeFrame onePixel onePixelMemory) (by decide)).imp fun f hf => ⟨.inl hf, f.writes.reverse_perm.symm⟩⟩

/-- Two pixels, taken in the other order. -/
theorem test_witness_DecodeMayReadAndWritePixelsInAnyOrder :
    Legal (runningOn bottomUpMemory 3#32 bottomUp)
      ∧ (∃ f, decodeFrame bottomUp bottomUpMemory = .ok f)
      ∧ ∃ g, decodeGeometry bottomUp = .ok g
        ∧ (rowMajor g.width g.absHeight).Perm (rowMajor g.width g.absHeight).reverse :=
  ⟨legal_like_reset _ (by decide) (by decide) rfl rfl rfl, ok_of_isOk (by decide),
    (ok_of_isOk (r := decodeGeometry bottomUp) (by decide)).imp fun _ hg => ⟨hg, (List.reverse_perm _).symm⟩⟩

/-- Pixels and padding in the other order. -/
theorem test_witness_EncodeMayReadAndWritePixelsInAnyOrder :
    Legal (runningOn twoByTwoMemory 5#32 twoByTwo)
      ∧ (∃ f, encodeFrame twoByTwo twoByTwoMemory = .ok f)
      ∧ ∃ g, encodeGeometry twoByTwo = .ok g ∧ (encodeUnits g).Perm (encodeUnits g).reverse :=
  ⟨legal_like_reset _ (by decide) (by decide) rfl rfl rfl, ok_of_isOk (by decide),
    (ok_of_isOk (r := encodeGeometry twoByTwo) (by decide)).imp fun _ hg => ⟨hg, (List.reverse_perm _).symm⟩⟩

/-- The first and the last byte of a source window. -/
theorem test_witness_FrameCommandsNeverChangeTheirSource :
    (running 3#32 onePixel).phase = .busy ⟨3#32, onePixel⟩ ∧ DecodeShape onePixel 3 1 1
      ∧ (∃ t, exec .decode (running 3#32 onePixel) = .next t)
      ∧ pixelArray onePixel ≤ 0x1036 ∧ 0x1039 < pixelArray onePixel + rowBytes 1 3 * 1
      ∧ (running 5#32 onePixelEncode).phase = .busy ⟨5#32, onePixelEncode⟩ ∧ EncodeShape onePixelEncode 1 1
      ∧ (∃ t, exec .encode (running 5#32 onePixelEncode) = .next t)
      ∧ onePixelEncode.srcBase.toNat ≤ 0x2000 ∧ 0x2003 < onePixelEncode.srcBase.toNat + 1 * 1 * 4 :=
  ⟨rfl, onePixel_shape, (next_of_nextWith (e := none) (by rfl)).imp fun _ h => h.1, by decide, by decide, rfl,
    onePixelEncode_shape, (next_of_nextWith (e := none) (by rfl)).imp fun _ h => h.1, by decide, by decide⟩

/-- The operands of the decode of the pixel array that the one-pixel encode writes. -/
def onePixelBack : OperandRegs :=
  { OperandRegs.reset with
    bpp := 24#32, width := 1#32, height := 1#32, dataOffset := 54#32, srcBase := 0x3000#32, srcLen := 58#32,
    dstBase := 0x4000#32, dstLen := 4#32 }

theorem onePixelBack_passes (s : State) (h : s.platform.devices = []) : DecodePasses s onePixelBack 3 1 1 :=
  ⟨by constructor <;> decide, by decide, by decide, by decide, by decide, by decide,
    fun _ _ _ => by simp [Platform.isDevice, h], fun _ _ _ => by simp [Platform.isDevice, h]⟩

/-- On a platform with no device and no refused access, a decode that passes its checks succeeds, whatever memory holds. -/
theorem decode_succeeds {s : State} {w : WorkingCopy} {N W H : Nat} (hw : s.phase = .busy w)
    (h : DecodePasses s w.ops N W H) (hd : s.platform.devices = []) (hr : s.platform.refused = []) :
    ∃ t, exec .decode s = .next t ∧ t.errcode = none := by
  simp [exec, execDecode, withCommand_busy hw, decodeFrame_passes h, finishFrame, runFrame, Frame.onDevice, hd,
    Frame.busFails, Platform.admits, hr]

theorem test_witness_DecodeOfEncodeRestoresThePixels :
    let s := runningOn onePixelMemory 5#32 onePixelEncode
    Legal s ∧ s.phase = .busy ⟨5#32, onePixelEncode⟩ ∧ EncodePasses s onePixelEncode 1 1
      ∧ ∃ t, exec .encode s = .next t ∧ t.errcode = none
        ∧ onePixelBack.bpp = 24#32 ∧ onePixelBack.width = onePixelEncode.width
        ∧ onePixelBack.height = onePixelEncode.height ∧ pixelArray onePixelBack = onePixelEncode.dstBase.toNat
        ∧ ∃ u, u.mem = t.mem ∧ u.phase = .busy ⟨3#32, onePixelBack⟩ ∧ DecodePasses u onePixelBack 3 1 1
          ∧ ∃ v, exec .decode u = .next v ∧ v.errcode = none := by
  refine ⟨onePixel_legal _ _ Platform.reset [], rfl, onePixelEncode_passes _ rfl, ?_⟩
  obtain ⟨t, ht, he⟩ := next_of_nextWith (e := none) (r := exec .encode (runningOn onePixelMemory 5#32 onePixelEncode)) (by rfl)
  refine ⟨t, ht, he, rfl, rfl, rfl, by decide, { running 3#32 onePixelBack with mem := t.mem }, rfl, rfl, ?_, ?_⟩
  · exact onePixelBack_passes _ rfl
  · exact decode_succeeds rfl (onePixelBack_passes _ rfl) rfl rfl

/-- A success, an error that is no BusError, and the first byte past each frame command's destination window. -/
theorem test_witness_CompletionWritesOnlyResultAndStatus :
    (∃ t, exec .pixEnc (running 9#32 onePixel) = .next t ∧ t.errcode = none)
      ∧ (∃ t, exec .stride (running 1#32 OperandRegs.reset) = .next t ∧ t.errcode = some .unsupportedBitDepth)
      ∧ (∃ t, exec .decode (running 3#32 onePixel) = .next t)
      ∧ (∀ N W H, DecodeShape onePixel N W H →
          0x2004 < onePixel.dstBase.toNat ∨ onePixel.dstBase.toNat + W * H * 4 ≤ 0x2004)
      ∧ (∃ t, exec .encode (running 5#32 onePixelEncode) = .next t)
      ∧ ∀ W H, EncodeShape onePixelEncode W H →
          0x303A < onePixelEncode.dstBase.toNat ∨ onePixelEncode.dstBase.toNat + rowBytes W 3 * H ≤ 0x303A := by
  refine ⟨⟨_, rfl, rfl⟩, ⟨_, rfl, rfl⟩, (next_of_nextWith (e := none) (by rfl)).imp fun _ h => h.1, ?_,
    (next_of_nextWith (e := none) (by rfl)).imp fun _ h => h.1, ?_⟩
  · intro N W H h
    have h1 := h.width
    have h2 := h.height
    rw [show onePixel.width.toInt = 1 by decide] at h1
    rw [show onePixel.height.toInt = 1 by decide] at h2
    obtain ⟨rfl, rfl⟩ : W = 1 ∧ H = 1 := by omega
    decide
  · intro W H h
    have h1 := h.width
    have h2 := h.height
    rw [show onePixelEncode.width.toInt = 1 by decide] at h1
    rw [show onePixelEncode.height.toInt = 1 by decide] at h2
    obtain ⟨rfl, rfl⟩ : W = 1 ∧ H = 1 := by omega
    decide

theorem test_witness_ErrorsBeforeTheTransferLeaveMemory :
    (∃ t, exec .decode (running 3#32 { onePixel with dstLen := 3#32 }) = .next t ∧ t.errcode = some .dstTooSmall)
      ∧ CmdError.dstTooSmall ≠ .busError := ⟨next_of_nextWith (by rfl), by decide⟩

theorem test_witness_EachCommandWritesOnlyItsResults :
    (∃ t, exec .pixDec (running 8#32 onePixel) = .next t) ∧ (Instr.pixDec = .pixDec ∨ Instr.pixDec = .pixEnc)
      ∧ (∃ t, exec .stride (running 1#32 onePixel) = .next t) ∧ Instr.stride ≠ .pixDec ∧ Instr.stride ≠ .pixEnc :=
  ⟨⟨_, rfl⟩, by decide, ⟨_, rfl⟩, by decide, by decide⟩

theorem test_witness_OnlyFrameCommandsTouchMemory :
    Instr.decCheck ≠ .decode ∧ Instr.decCheck ≠ .encode ∧ ∃ t, exec .decCheck (running 2#32 onePixel) = .next t :=
  ⟨by decide, by decide, _, rfl⟩

theorem test_witness_CommandsRaiseOnlyTheBlocksErrors :
    ∃ t, exec .encCheck (running 4#32 OperandRegs.reset) = .next t ∧ t.errcode = some .badDimension :=
  next_of_nextWith (by rfl)

theorem test_witness_ErrcodeShowsTheCodeOfEachError :
    let s := soon { State.reset with err := true, errcode := some .busError } [.regRead 0x08 .word]
    s.schedule = .regRead (s.platform.blockBase + 0x08) .word :: [] ∧ s.errcode = some .busError
      ∧ (soon State.reset [.regRead 0x08 .word]).errcode = none := by decide

/-- STRIDE reads neither HEIGHT nor PIX_IN. -/
theorem test_witness_UnlistedOperandsHaveNoEffect :
    sameReads .stride onePixel { onePixel with height := 7#32, pixIn := 7#32 } := ⟨rfl, rfl⟩

/-- Two polls before the block's turn, and none before a scheduled one. -/
theorem test_witness_EveryCommandCompletesAfterPolling :
    let s := soon (running 3#32 onePixel) [.regRead 0x08 .word, .regRead 0x08 .word]
    let u := soon (running 3#32 onePixel) [.blockStep, .regRead 0x08 .word]
    s.phase = .busy ⟨3#32, onePixel⟩ ∧ s.platform.devices = []
      ∧ s.schedule = List.replicate 2 (.regRead (s.platform.blockBase + 0x08) .word)
      ∧ u.phase = .busy ⟨3#32, onePixel⟩ ∧ u.platform.devices = []
      ∧ u.schedule = List.replicate 0 (.regRead (u.platform.blockBase + 0x08) .word)
        ++ [.blockStep, .regRead (u.platform.blockBase + 0x08) .word] := by decide

/-- The first byte of the source window, written as the second of two bytes, the last byte of the destination window of a
decode, the windows of an encode, and a dirty cached byte on the destination window. -/
theorem test_witness_WindowExclusionFaults :
    let s : State :=
      { running 3#32 onePixel with
        platform := { Platform.reset with dmaCoherent := false }, hostCache := [(0x2003, ⟨7#8, true⟩)] }
    (s.phase = .busy ⟨3#32, onePixel⟩ ∧ RunningFrame ⟨3#32, onePixel⟩ ⟨0x1036, 0x103A⟩ ⟨0x2000, 0x2004⟩)
      ∧ (1 < [1#8, 2#8].length ∧ 0x1035 + 1 < 2 ^ 32 ∧ Window.has ⟨0x1036, 0x103A⟩ (0x1035 + 1) = true
        ∧ ∀ j < 1, Window.has ⟨0x1036, 0x103A⟩ (0x1035 + j) = false ∧ Window.has ⟨0x2000, 0x2004⟩ (0x1035 + j) = false
          ∧ s.platform.isDevice (0x1035 + j) = false)
      ∧ (Window.has ⟨0x2000, 0x2004⟩ 0x2003 = true ∧ Window.has ⟨0x2000, 0x2004⟩ 0x1036 = false
        ∧ s.platform.isDevice 0x1036 = false)
      ∧ (s.platform.dmaCoherent = false ∧ HostCache.wf s.hostCache ∧ cacheFind s.hostCache 0x2003 = some ⟨7#8, true⟩
        ∧ Window.has ⟨0x2003, 0x2004⟩ 0x2003 = true ∧ ∀ b, s.platform.isDevice b = false)
      ∧ RunningFrame ⟨5#32, onePixelEncode⟩ ⟨0x2000, 0x2004⟩ ⟨0x3036, 0x303A⟩ :=
  ⟨⟨rfl, .inl ⟨rfl, 3, 1, 1, onePixel_shape, rfl, rfl⟩⟩, by decide, by decide,
    ⟨rfl, by decide, rfl, by decide, fun _ => rfl⟩, .inr ⟨rfl, 1, 1, onePixelEncode_shape, rfl, rfl⟩⟩

/-- The last address, written by another master and read by the host. -/
theorem test_witness_ReadReturnsTheLastByteWritten :
    let s := soon State.reset [.memWrite .otherMaster 0xFFFFFFFF [7#8], .memRead .host 0xFFFFFFFF]
    Legal s ∧ s.phase = .idle ∧ s.platform.dmaCoherent = true ∧ 0xFFFFFFFF < 2 ^ 32
      ∧ s.platform.isDevice 0xFFFFFFFF = false
      ∧ s.schedule = [.memWrite .otherMaster 0xFFFFFFFF [7#8], .memRead .host 0xFFFFFFFF] :=
  ⟨legal_like_reset _ (by decide) (by decide) rfl rfl rfl, rfl, rfl, by decide, rfl, rfl⟩

theorem test_witness_NonCoherentHostNeedsCacheMaintenance :
    let s : State :=
      { State.reset with
        platform := { Platform.reset with dmaCoherent := false }, hostCache := [(0x10, ⟨7#8, false⟩)] }
    Legal s ∧ s.phase = .idle ∧ s.platform.dmaCoherent = false ∧ 0x10 < 2 ^ 32 ∧ s.platform.isDevice 0x10 = false
      ∧ cacheFind s.hostCache 0x10 = some ⟨7#8, false⟩
      ∧ (soon s [.memWrite .host 0x10 [1#8], .cacheClean ⟨0x10, 0x11⟩]).schedule
        = .memWrite .host 0x10 [1#8] :: .cacheClean ⟨0x10, 0x10 + 1⟩ :: []
      ∧ (soon s [.memRead .host 0x10, .cacheInvalidate ⟨0x10, 0x11⟩, .memRead .host 0x10]).schedule
        = [.memRead .host 0x10, .cacheInvalidate ⟨0x10, 0x10 + 1⟩, .memRead .host 0x10] :=
  ⟨legal_like_reset _ (by decide) (by decide) rfl rfl rfl, rfl, rfl, by decide, rfl, rfl, rfl, rfl⟩

theorem test_witness_WrittenHeaderLoadsBack : Memory.wf onePixelMemory ∧ 54 ≤ 54 := by decide

theorem test_witness_NoStepChangesThePlatform : ∃ t, step (running 1#32 onePixel) = .next t := ⟨_, rfl⟩

/-- A completion, and an acceptance. -/
theorem test_witness_ResultsChangeOnlyAtCompletionOrReset :
    (∃ t, step (running 1#32 onePixel) = .next t) ∧ (∀ rest, (running 1#32 onePixel).schedule ≠ .reset :: rest)
      ∧ (∃ t, step (soon State.reset [.regWrite 0x04 .word 1#32]) = .next t)
      ∧ ∀ rest, (soon State.reset [.regWrite 0x04 .word 1#32]).schedule ≠ .reset :: rest :=
  ⟨⟨_, rfl⟩, nofun, ⟨_, rfl⟩, nofun⟩

theorem test_witness_EveryStepKeepsTheStateLegal :
    Legal (runningOn onePixelMemory 3#32 onePixel) ∧ ∃ t, step (runningOn onePixelMemory 3#32 onePixel) = .next t :=
  ⟨onePixel_legal _ _ Platform.reset [], (next_of_nextWith (e := none) (by rfl)).imp fun _ h => h.1⟩

end Sys2Proof.Tests
end

section
/-! PROOFS. What a step can do, said once: the event a step takes, the register accesses by offset, and everything an event
leaves. -/

namespace Sys2Proof.Machine

variable {s t : State} {e : Event} {rest : List Event} {offset : Nat} {v : Word}

/-! The event a step takes -/

theorem step_of_unscheduled (h : s.schedule = []) : step s = blockTurn s := by
  simp only [step, h]

theorem step_of_scheduled (h : s.schedule = e :: rest) : step s = runEvent { s with schedule := rest } e := by
  simp only [step, h]

theorem blockTurn_of_instr {w : WorkingCopy} {i : Instr} (hp : s.phase = .busy w) (hd : decode w.cmd = .instr i) :
    blockTurn s = exec i s := by
  simp only [blockTurn, hp, hd]

/-! Registers by offset (10_state.md R23) -/

theorem readOffset_of_regAt {r : Reg} (h : regAt offset = some r) : readOffset s offset = readReg s r := by
  simp only [readOffset, h]

theorem readOffset_of_reserved (h : regAt offset = none) : readOffset s offset = 0#32 := by
  simp only [readOffset, h]

theorem writeOffset_of_regAt {r : Reg} (h : regAt offset = some r) : writeOffset s offset v = writeReg s v r := by
  simp only [writeOffset, h]

theorem writeOffset_of_reserved (h : regAt offset = none) : writeOffset s offset v = s := by
  simp only [writeOffset, h]

theorem regAt_id (h : regAt offset = some .id) : offset = 0 := by
  unfold regAt at h
  split at h <;> simp_all

/-- No register reads the schedule. -/
theorem readOffset_schedule (s : State) (rest : List Event) (offset : Nat) :
    readOffset { s with schedule := rest } offset = readOffset s offset := by
  cases h : regAt offset with
  | none => rw [readOffset_of_reserved h, readOffset_of_reserved h]
  | some r =>
    rw [readOffset_of_regAt h, readOffset_of_regAt h]
    cases r <;> rfl

theorem step_regRead (h : s.schedule = .regRead (s.platform.blockBase + offset) .word :: rest) (ho : offset < 0x80)
    (h4 : offset % 4 = 0) :
    step s = .next { s with schedule := rest, lastRead := some (readOffset s offset) } := by
  simp only [step_of_scheduled h, runEvent, hostRegRead, windowOffset_base ho h4, readOffset_schedule]

theorem step_regWrite (h : s.schedule = .regWrite (s.platform.blockBase + offset) .word v :: rest)
    (ho : offset < 0x80) (h4 : offset % 4 = 0) :
    step s = .next (writeOffset { s with schedule := rest } offset v) := by
  simp only [step_of_scheduled h, runEvent, hostRegWrite, windowOffset_base ho h4]

/-! What an event can do -/

/-- The next states an event can lead to: what each can change, and that it stays inside the address space. What a memory
read returns is left open. -/
inductive EventEffect (s : State) : Event → State → Prop where
  /-- The block's turn while IDLE. -/
  | idleTurn (h : s.phase = .idle) : EventEffect s .blockStep s
  /-- The block's turn completes the command in progress. -/
  | completion {t : State} (w : WorkingCopy) (i : Instr) (hp : s.phase = .busy w) (hd : decode w.cmd = .instr i)
      (hc : Completion i s w t) : EventEffect s .blockStep t
  /-- The block's turn completes an illegal word. -/
  | badCommand (w : WorkingCopy) (hp : s.phase = .busy w) : EventEffect s .blockStep (completeError s .badCommand)
  | regRead (addr : Nat) (size : AccessSize) (offset : Nat) (h : windowOffset s.platform addr size = some offset) :
      EventEffect s (.regRead addr size) { s with lastRead := some (readOffset s offset) }
  | regWrite (addr : Nat) (size : AccessSize) (v : Word) (offset : Nat)
      (h : windowOffset s.platform addr size = some offset) :
      EventEffect s (.regWrite addr size v) (writeOffset s offset v)
  /-- A memory read answered by memory or by the cache. -/
  | memRead (agent : Agent) (a : Nat) (v : Word) : EventEffect s (.memRead agent a) { s with lastRead := some v }
  /-- A memory read that misses the cache and fills it. -/
  | cacheFill (agent : Agent) (a : Nat) (v : Word) (b : CachedByte) (ha : a < Config.addressSpace) :
      EventEffect s (.memRead agent a) { s with lastRead := some v, hostCache := cachePut s.hostCache a b }
  | memWrite (agent : Agent) (a : Nat) (bytes : List Byte) (h : ∀ c ∈ cellsAt a bytes, c.1 < Config.addressSpace) :
      EventEffect s (.memWrite agent a bytes) { s with mem := writeCells s.mem (cellsAt a bytes) }
  /-- A memory write that stays in the cache. -/
  | cacheWrite (agent : Agent) (a : Nat) (bytes : List Byte) (h : ∀ c ∈ cellsAt a bytes, c.1 < Config.addressSpace) :
      EventEffect s (.memWrite agent a bytes) { s with hostCache := cachePutDirty s.hostCache (cellsAt a bytes) }
  /-- Cache maintenance on a coherent platform. -/
  | cleanNothing (w : Window) : EventEffect s (.cacheClean w) s
  | clean (w : Window) :
      EventEffect s (.cacheClean w)
        { s with mem := writeCells s.mem (dirtyCells s.hostCache w), hostCache := markClean s.hostCache w }
  /-- Cache maintenance on a coherent platform. -/
  | invalidateNothing (w : Window) : EventEffect s (.cacheInvalidate w) s
  | invalidate (w : Window) : EventEffect s (.cacheInvalidate w) { s with hostCache := dropCached s.hostCache w }
  | reset : EventEffect s .reset (resetRegisters s)
  /-- A reset abandons the frame command in progress. -/
  | abandon (f : Frame) (hf : f.Sound) : EventEffect s .reset (resetRegisters (abandonTransfer s f))

theorem eventEffect_of_blockTurn (h : blockTurn s = .next t) : EventEffect s .blockStep t := by
  cases hp : s.phase with
  | idle =>
    simp only [blockTurn, hp] at h
    cases h
    exact .idleTurn hp
  | busy w =>
    rcases blockTurn_next hp h with ⟨i, hd, hx⟩ | rfl
    · obtain ⟨w', hp', hc⟩ := exec_next hx
      exact .completion w' i hp' (by rw [hp] at hp'; cases hp'; exact hd) hc
    · exact .badCommand w hp

theorem eventEffect_of_hostRegRead {addr : Nat} {size : AccessSize} (h : hostRegRead s addr size = .next t) :
    EventEffect s (.regRead addr size) t := by
  unfold hostRegRead at h
  split at h <;> cases h
  exact .regRead _ _ _ ‹_›

theorem eventEffect_of_hostRegWrite {addr : Nat} {size : AccessSize} (h : hostRegWrite s addr size v = .next t) :
    EventEffect s (.regWrite addr size v) t := by
  unfold hostRegWrite at h
  split at h <;> cases h
  exact .regWrite _ _ _ _ ‹_›

theorem eventEffect_of_agentRead {agent : Agent} {a : Nat} (h : agentRead s agent a = .next t) :
    EventEffect s (.memRead agent a) t := by
  unfold agentRead at h
  split at h
  case h_1 hstop => exact absurd h (accessStop_stops hstop)
  case h_2 hstop =>
    split at h <;> cases h
    · unfold cachedRead
      split
      · exact .memRead ..
      · exact .cacheFill _ _ _ _ (accessStop_none hstop).1
    · exact .memRead ..

/-- A run of bytes whose accesses nothing stops lies in the address space. -/
theorem cellsAt_below {allowed : Nat → Bool} {a : Nat} {bytes : List Byte}
    (h : accessesStop s allowed (List.range' a bytes.length) = none) :
    ∀ c ∈ cellsAt a bytes, c.1 < Config.addressSpace := by
  intro c hc
  obtain ⟨k, hk, rfl⟩ := (mem_cellsAt 0#8).mp hc
  exact (accessesStop_none h (a + k) (by simp [hk])).1

theorem eventEffect_of_agentWrite {agent : Agent} {a : Nat} {bytes : List Byte}
    (h : agentWrite s agent a bytes = .next t) : EventEffect s (.memWrite agent a bytes) t := by
  unfold agentWrite at h
  split at h
  case h_1 hstop => exact absurd h (accessesStop_stops hstop)
  case h_2 hstop =>
    split at h <;> cases h
    · exact .cacheWrite _ _ _ (cellsAt_below hstop)
    · exact .memWrite _ _ _ (cellsAt_below hstop)

theorem eventEffect_of_hostClean {w : Window} (h : hostClean s w = .next t) : EventEffect s (.cacheClean w) t := by
  unfold hostClean at h
  split at h
  · cases h
    exact .cleanNothing w
  · split at h
    case h_1 hstop => exact absurd h (accessesStop_stops hstop)
    case h_2 =>
      cases h
      exact .clean w

theorem eventEffect_of_hostInvalidate {w : Window} (h : hostInvalidate s w = .next t) :
    EventEffect s (.cacheInvalidate w) t := by
  unfold hostInvalidate at h
  split at h <;> cases h
  · exact .invalidateNothing w
  · exact .invalidate w

theorem eventEffect_of_applyReset (h : applyReset s = .next t) : EventEffect s .reset t := by
  rcases applyReset_eq s with ⟨-, hr⟩ | ⟨f, hf, hr⟩ <;> rw [hr] at h <;> cases h
  · exact .reset
  · exact .abandon f (runningFrame_sound hf)

theorem eventEffect_of_runEvent (h : runEvent s e = .next t) : EventEffect s e t := by
  cases e with
  | blockStep => exact eventEffect_of_blockTurn h
  | regRead => exact eventEffect_of_hostRegRead h
  | regWrite => exact eventEffect_of_hostRegWrite h
  | memRead => exact eventEffect_of_agentRead h
  | memWrite => exact eventEffect_of_agentWrite h
  | cacheClean => exact eventEffect_of_hostClean h
  | cacheInvalidate => exact eventEffect_of_hostInvalidate h
  | reset => exact eventEffect_of_applyReset h

/-- A step is the block's turn with nothing scheduled, or the effect of the oldest event on the state without it. -/
theorem step_next (h : step s = .next t) :
    s.schedule = [] ∧ EventEffect s .blockStep t
      ∨ ∃ e rest, s.schedule = e :: rest ∧ EventEffect { s with schedule := rest } e t := by
  cases hs : s.schedule with
  | nil => exact .inl ⟨rfl, eventEffect_of_blockTurn (step_of_unscheduled hs ▸ h)⟩
  | cons e rest => exact .inr ⟨e, rest, rfl, eventEffect_of_runEvent (step_of_scheduled hs ▸ h)⟩

end Sys2Proof.Machine
end

section
/-! PROOFS. The legal states: each operation keeps them, and so every step does. -/

namespace Sys2Proof.Machine

variable {s t : State} {e : Event}

/-- A change to memory, the cache or what Legal does not speak of. -/
theorem Legal.of_sameStatus (hs : Legal s) (hm : Memory.wf t.mem) (hc : HostCache.wf t.hostCache)
    (hd : t.done = s.done) (he : t.err = s.err) (hx : t.errcode = s.errcode) (hp : t.phase = s.phase) : Legal t where
  memory := hm
  cache := hc
  notDoneAndErr := hd ▸ he ▸ hs.notDoneAndErr
  clearWhileBusy := hd ▸ he ▸ hp ▸ hs.clearWhileBusy
  codeOfDone := hd ▸ hx ▸ hs.codeOfDone
  codeOfErr := he ▸ hx ▸ hs.codeOfErr
  codeRaised := hx ▸ hs.codeRaised

theorem Legal.withSchedule (hs : Legal s) (rest : List Event) : Legal { s with schedule := rest } :=
  hs.of_sameStatus hs.memory hs.cache rfl rfl rfl rfl

/-- A success sets DONE alone, since ERR is clear while BUSY (10_state.md R45). -/
theorem Legal.completeOk {w : WorkingCopy} (hs : Legal s) (hp : s.phase = .busy w) (r : CmdResult) :
    Legal (completeOk s r) := by
  obtain ⟨-, herr⟩ := hs.clearWhileBusy w hp
  refine ⟨completeOk_mem s r ▸ hs.memory, completeOk_hostCache s r ▸ hs.cache, ?_, ?_, ?_, ?_, ?_⟩ <;> simp [herr]

/-- An error sets ERR alone, since DONE is clear while BUSY (10_state.md R45). -/
theorem Legal.completeError {w : WorkingCopy} {x : CmdError} (hs : Legal s) (hp : s.phase = .busy w)
    (hx : raisedByBlock x = true) : Legal (completeError s x) := by
  obtain ⟨hdone, -⟩ := hs.clearWhileBusy w hp
  refine ⟨hs.memory, hs.cache, ?_, ?_, ?_, ?_, ?_⟩ <;> simp [hdone, hx]

theorem Legal.startCommand (hs : Legal s) (c : Word) : Legal (startCommand s c) := by
  refine ⟨hs.memory, hs.cache, ?_, ?_, ?_, ?_, hs.codeRaised⟩ <;> simp

theorem Legal.acceptCommand (hs : Legal s) (c : Word) : Legal (acceptCommand s c) := by
  unfold Machine.acceptCommand
  split
  · exact hs.of_sameStatus hs.memory hs.cache rfl rfl rfl rfl
  · exact hs.startCommand c

/-- STATUS bits are only cleared (10_state.md R26). -/
theorem Legal.writeStatus (hs : Legal s) (v : Word) : Legal (writeStatus s v) where
  memory := hs.memory
  cache := hs.cache
  notDoneAndErr h := by
    simp only [writeStatus_done, writeStatus_err, Bool.and_eq_true] at h
    exact hs.notDoneAndErr ⟨h.1.1, h.2.1⟩
  clearWhileBusy w hp := by
    obtain ⟨hdone, herr⟩ := hs.clearWhileBusy w hp
    simp [hdone, herr]
  codeOfDone h := hs.codeOfDone (Bool.and_eq_true_iff.mp h).1
  codeOfErr h := hs.codeOfErr (Bool.and_eq_true_iff.mp h).1
  codeRaised := hs.codeRaised

theorem Legal.writeReg (hs : Legal s) (v : Word) (r : Reg) : Legal (writeReg s v r) := by
  cases r with
  | cmd => exact hs.acceptCommand v
  | status => exact hs.writeStatus v
  | _ => exact hs.of_sameStatus hs.memory hs.cache rfl rfl rfl rfl

theorem Legal.writeOffset (hs : Legal s) (offset : Nat) (v : Word) : Legal (writeOffset s offset v) := by
  cases h : regAt offset with
  | none => rwa [writeOffset_of_reserved h]
  | some r =>
    rw [writeOffset_of_regAt h]
    exact hs.writeReg v r

/-- Reset clears the status: memory and cache alone remain to be legal. -/
theorem legal_resetRegisters (hm : Memory.wf s.mem) (hc : HostCache.wf s.hostCache) : Legal (resetRegisters s) := by
  refine ⟨hm, hc, ?_, ?_, ?_, ?_, ?_⟩ <;> simp

/-- Writes of a frame, all or some of them, keep the canonical form of memory. -/
theorem Frame.Sound.writeCells_wf {f : Frame} {m : Memory} {cs : List Host.Cell} (hf : f.Sound) (hm : Memory.wf m)
    (hcs : cs ⊆ f.writes) : Memory.wf (writeCells m cs) :=
  Machine.writeCells_wf hm fun c hc => Nat.lt_of_lt_of_le (hf.inside c (hcs hc)).2 hf.inSpace

theorem Legal.transferAll {f : Frame} (hs : Legal s) (hf : f.Sound) : Legal (transferAll s f) :=
  hs.of_sameStatus (hf.writeCells_wf hs.memory (List.Subset.refl _)) hs.cache rfl rfl rfl rfl

theorem Legal.transferPart {f : Frame} (hs : Legal s) (hf : f.Sound) : Legal (transferPart s f) :=
  hs.of_sameStatus (hf.writeCells_wf hs.memory (List.filter_subset_self _)) hs.cache rfl rfl rfl rfl

theorem Legal.completion {i : Instr} {w : WorkingCopy} (hs : Legal s) (hp : s.phase = .busy w)
    (h : Completion i s w t) : Legal t := by
  cases h with
  | results => exact hs.completeOk hp _
  | pixel => exact hs.completeOk hp _
  | error x hx => exact hs.completeError hp hx.1
  | frame f x y z hi hf => exact (hs.transferAll hf).completeOk (w := w) hp _
  | bus f hi hf => exact (hs.transferPart hf).completeError (w := w) hp rfl

theorem Legal.eventEffect (hs : Legal s) (h : EventEffect s e t) : Legal t := by
  cases h with
  | idleTurn | cleanNothing | invalidateNothing => exact hs
  | completion w i hp hd hc => exact hs.completion hp hc
  | badCommand w hp => exact hs.completeError hp rfl
  | regRead | memRead => exact hs.of_sameStatus hs.memory hs.cache rfl rfl rfl rfl
  | regWrite addr size v offset => exact hs.writeOffset offset v
  | cacheFill agent a v b ha => exact hs.of_sameStatus hs.memory (cachePut_wf hs.cache ha) rfl rfl rfl rfl
  | memWrite agent a bytes hc => exact hs.of_sameStatus (writeCells_wf hs.memory hc) hs.cache rfl rfl rfl rfl
  | cacheWrite agent a bytes hc => exact hs.of_sameStatus hs.memory (cachePutDirty_wf hs.cache hc) rfl rfl rfl rfl
  | clean w =>
    exact hs.of_sameStatus (writeCells_wf hs.memory (dirtyCells_below hs.cache)) (markClean_wf hs.cache) rfl rfl rfl rfl
  | invalidate w => exact hs.of_sameStatus hs.memory (dropCached_wf hs.cache) rfl rfl rfl rfl
  | reset => exact legal_resetRegisters hs.memory hs.cache
  | abandon f hf => exact legal_resetRegisters (abandonTransfer_wf hs.memory hf) hs.cache

/-- Settles O56: what an event can do keeps the legal states, and taking it off the schedule does not touch them. -/
theorem everyStepKeepsTheStateLegal : Obligations.EveryStepKeepsTheStateLegal := by
  intro s t hs h
  rcases step_next h with ⟨-, he⟩ | ⟨e, rest, -, he⟩
  · exact hs.eventEffect he
  · exact (hs.withSchedule rest).eventEffect he

/-- Settles O55: the reset state is its own reset, with empty memory and cache. -/
theorem resetStateIsLegal : Obligations.ResetStateIsLegal :=
  legal_resetRegisters (s := State.reset) (by decide) (by decide)

end Sys2Proof.Machine
end

section
/-! PROOFS. What a completion and a step leave: the platform, and the results of the other kind of command; and what a
command in progress does not see: the configuration registers. -/

namespace Sys2Proof.Machine

variable {s t : State} {e : Event}

/-! The platform (10_state.md R20) -/

theorem Completion.platform_eq {i : Instr} {w : WorkingCopy} (h : Completion i s w t) : t.platform = s.platform := by
  cases h <;> simp

theorem EventEffect.platform_eq (h : EventEffect s e t) : t.platform = s.platform := by
  cases h with
  | completion w i hp hd hc => exact hc.platform_eq
  | regWrite addr size v offset _ =>
    obtain ⟨-, -, hplat, -⟩ := writeOffset_frame s offset v
    exact hplat
  | _ => rfl

/-- Settles O53, from what an event can do. -/
theorem noStepChangesThePlatform : Obligations.NoStepChangesThePlatform := by
  intro s t h
  rcases step_next h with ⟨-, he⟩ | ⟨e, rest, -, he⟩ <;> exact he.platform_eq

/-! The results (10_state.md R43, R44) -/

/-- A pixel command writes PIX_OUT or nothing. -/
theorem Completion.results_eq {i : Instr} {w : WorkingCopy} (h : Completion i s w t) (hi : i = .pixDec ∨ i = .pixEnc) :
    t.result0 = s.result0 ∧ t.result1 = s.result1 ∧ t.result2 = s.result2 := by
  cases h with
  | results x y z h => exact absurd hi (by simp [h])
  | frame f x y z h => rcases hi with rfl | rfl <;> simp at h
  | pixel | error | bus => exact ⟨rfl, rfl, rfl⟩

/-- A command that is no pixel command writes RESULT0..2 or nothing. -/
theorem Completion.pixOut_eq {i : Instr} {w : WorkingCopy} (h : Completion i s w t) (hd : i ≠ .pixDec)
    (he : i ≠ .pixEnc) : t.pixOut = s.pixOut := by
  cases h with
  | pixel p h => exact absurd h (by simp [hd, he])
  | results | error | frame | bus => rfl

/-- Settles O42, from what a completion can be. -/
theorem eachCommandWritesOnlyItsResults : Obligations.EachCommandWritesOnlyItsResults := by
  intro i s t h
  obtain ⟨w, -, hc⟩ := exec_next h
  exact ⟨hc.results_eq, hc.pixOut_eq⟩

/-! The working copy (10_state.md R45, R51) -/

/-- On states of the same phase, completions differ by the change their runs differ by. -/
theorem withCommand_mapNext {s' : State} {k k' : WorkingCopy → StepResult} {f : State → State}
    (hp : s'.phase = s.phase) (hk : ∀ w, k' w = mapNext f (k w)) :
    withCommand s' k' = mapNext f (withCommand s k) := by
  unfold withCommand
  rw [hp]
  cases s.phase with
  | idle => rfl
  | busy w => exact hk w

theorem finish_ops (s : State) (o : OperandRegs) (r : Except CmdError CmdResult) :
    finish { s with ops := o } r = mapNext (fun t => { t with ops := o }) (finish s r) := by
  cases r with
  | ok r => cases r <;> rfl
  | error => rfl

theorem runFrame_ops (s : State) (o : OperandRegs) (f : Frame) :
    runFrame { s with ops := o } f = mapNext (fun t => { t with ops := o }) (runFrame s f) := by
  unfold runFrame
  split
  · rfl
  · split
    · rfl
    · cases f.result <;> rfl

theorem finishFrame_ops (s : State) (o : OperandRegs) (r : Except CmdError Frame) :
    finishFrame { s with ops := o } r = mapNext (fun t => { t with ops := o }) (finishFrame s r) := by
  cases r with
  | ok f => exact runFrame_ops s o f
  | error => rfl

/-- Settles O46: each command runs on its working copy, and its completion keeps the configuration registers. -/
theorem runningCommandSeesOnlyItsWorkingCopy : Obligations.RunningCommandSeesOnlyItsWorkingCopy := by
  intro i s o
  cases i with
  | decode | encode => exact withCommand_mapNext rfl fun w => finishFrame_ops s o _
  | _ => exact withCommand_mapNext rfl fun w => finish_ops s o _

/-- Settles O4: both ways to the block's turn lead to `blockTurn`. -/
theorem stepRunsTheCommandInProgress : Obligations.StepRunsTheCommandInProgress := by
  intro s w i hp hd
  refine ⟨fun h => ?_, fun rest h => ?_⟩
  · rw [step_of_unscheduled h, blockTurn_of_instr hp hd]
  · rw [step_of_scheduled h]
    exact blockTurn_of_instr (s := { s with schedule := rest }) hp hd

end Sys2Proof.Machine
end

section
/-! PROOFS. The register window: its values at reset, what each offset reads, what a write of each offset does, and which
accesses it takes (10_state.md R23 to R49). -/

namespace Sys2Proof.Machine

variable {s : State} {offset : Nat}

/-! Reset values (10_state.md R23) -/

/-- Settles O7: the reset state is its own reset, so every register but ID reads 0. -/
theorem resetStateReadsTheResetValues : Obligations.ResetStateReadsTheResetValues := by
  refine ⟨rfl, fun offset h => ?_, rfl, rfl⟩
  cases hr : regAt offset with
  | none => exact readOffset_of_reserved hr
  | some r =>
    rw [readOffset_of_regAt hr]
    exact readReg_resetRegisters State.reset fun hid => h (regAt_id (hid ▸ hr))

/-! CMD and the configuration registers (10_state.md R45) -/

theorem acceptCommand_idle (h : s.phase = .idle) (c : Word) : acceptCommand s c = startCommand s c := by
  simp only [acceptCommand, h]

theorem acceptCommand_busy {w : WorkingCopy} (h : s.phase = .busy w) (c : Word) :
    acceptCommand s c = { s with ovr := true } := by
  simp only [acceptCommand, h]

/-- A configuration register reads back what is written, and its write leaves the phase. -/
theorem writeOffset_configuration (s : State) (v : Word)
    (h : offset ∈ [0x10, 0x14, 0x18, 0x1C, 0x20, 0x24, 0x28, 0x2C, 0x30, 0x34]) :
    readOffset (writeOffset s offset v) offset = v ∧ (writeOffset s offset v).phase = s.phase := by
  fin_cases h <;> exact ⟨rfl, rfl⟩

/-- The configuration registers stand at aligned offsets of the window. -/
theorem configuration_aligned : ∀ offset ∈ [0x10, 0x14, 0x18, 0x1C, 0x20, 0x24, 0x28, 0x2C, 0x30, 0x34],
    offset < 0x80 ∧ offset % 4 = 0 := by
  decide

/-- Settles O10, by phase for CMD and by offset for the configuration registers. -/
theorem cmdWriteIsAcceptedOrDropped : Obligations.CmdWriteIsAcceptedOrDropped := by
  intro s
  refine ⟨fun c rest h => ?_, fun w offset v rest hp ho h => ?_⟩
  · have hstep : step s = .next (acceptCommand { s with schedule := rest } c) :=
      step_regWrite h (by decide) (by decide)
    refine ⟨fun hp => ?_, fun w hp => ?_⟩
    · rw [hstep, acceptCommand_idle (s := { s with schedule := rest }) hp]
      rfl
    · rw [hstep, acceptCommand_busy (s := { s with schedule := rest }) hp]
  · obtain ⟨hlt, h4⟩ := configuration_aligned offset ho
    obtain ⟨hread, hphase⟩ := writeOffset_configuration { s with schedule := rest } v ho
    exact ⟨_, step_regWrite h hlt h4, hread, hphase.trans hp⟩

/-! STATUS (10_state.md R26) -/

theorem busyFlag_iff : busyFlag s = true ↔ ∃ w, s.phase = .busy w := by
  unfold busyFlag
  cases s.phase <;> simp

/-- The bits of STATUS that hold no field read 0. -/
theorem statusWord_reserved (s : State) :
    (statusWord s).extractLsb' 4 4 = 0#4 ∧ (statusWord s).extractLsb' 16 16 = 0#16 := by
  unfold statusWord
  constructor
  · iterate 4 rw [BitVec.extractLsb'_append_eq_of_le (by decide)]
    exact BitVec.extractLsb'_append_eq_right
  · iterate 6 rw [BitVec.extractLsb'_append_eq_of_le (by decide)]
    simp

theorem and_not_eq_ite (x b : Bool) : (x && !b) = if b then false else x := by cases b <;> simp

/-- Settles O12, from the fields and the reserved bits of the word read. -/
theorem statusReadsItsFieldsAndClearsByWritingOnes : Obligations.StatusReadsItsFieldsAndClearsByWritingOnes := by
  intro s
  refine ⟨fun rest h => ?_, by decide, fun v rest h => ?_⟩
  · obtain ⟨hbusy, hdone, herr, hovr, hcode⟩ := statusWord_fields s
    obtain ⟨hlow, hhigh⟩ := statusWord_reserved s
    exact ⟨statusWord s, step_regRead h (by decide) (by decide), hbusy ▸ busyFlag_iff, hdone, herr, hovr, hlow, hcode,
      hhigh⟩
  · have hstep : step s = .next (writeStatus { s with schedule := rest } v) :=
      step_regWrite h (by decide) (by decide)
    simp only [hstep, writeStatus, and_not_eq_ite]

/-! CTRL (10_state.md R32) -/

theorem ctrlWord_eq (s : State) : ctrlWord s = if s.ie then 1#32 else 0#32 := by
  unfold ctrlWord
  cases s.ie <;> rfl

/-- Settles O13, from the word CTRL reads as. -/
theorem ctrlHoldsTheInterruptEnable : Obligations.CtrlHoldsTheInterruptEnable := by
  intro s v rest
  refine ⟨fun h => step_regWrite h (by decide) (by decide), rfl, fun h => ?_⟩
  rw [← ctrlWord_eq]
  exact step_regRead h (by decide) (by decide)

/-! Reads and ignored writes by offset (10_state.md R47, R49) -/

/-- Settles O14, offset by offset. -/
theorem registerReadsHaveNoSideEffects : Obligations.RegisterReadsHaveNoSideEffects := by
  intro s offset rest ho h4 h
  refine ⟨_, step_regRead h ho h4, rfl, ?_⟩
  and_intros <;> rintro rfl
  -- the 32-bit registers, then the halves of the three results
  iterate 13 · rfl
  iterate 3
    · exact lo32_toNat _
    · exact hi32_toNat _

/-- Settles O15, offset by offset: a reserved one names no register, and a read-only register's write is the identity. -/
theorem reservedAndReadOnlyOffsetsIgnoreWrites : Obligations.ReservedAndReadOnlyOffsetsIgnoreWrites := by
  intro s v offset rest
  refine ⟨fun ho h => ?_, fun ho h => ?_, fun h => step_regWrite h (by decide) (by decide)⟩
  · fin_cases ho <;> exact step_regRead h (by decide) (by decide)
  · fin_cases ho <;> exact step_regWrite h (by decide) (by decide)

/-! The form of an access (10_state.md R48) -/

/-- Settles O16: the form alone decides whether the access has an offset, for a read as for a write. -/
theorem onlyAlignedWordRegisterAccessesHaveMeaning : Obligations.OnlyAlignedWordRegisterAccessesHaveMeaning := by
  intro s addr size v rest h
  refine ⟨fun hform => ?_, fun hform => ?_⟩
  · have hw := windowOffset_some hform
    rcases h with h | h <;> rw [StepsOn, step_of_scheduled h] <;> simp [runEvent, hostRegRead, hostRegWrite, hw]
  · have hw := windowOffset_none hform
    rcases h with h | h <;> rw [step_of_scheduled h] <;> simp [runEvent, hostRegRead, hostRegWrite, hw]

end Sys2Proof.Machine
end

section
/-! PROOFS. Memory as the agents see it while no command runs: one byte read or written, through the host's caches or not,
and cache maintenance (20_memory.md R61, R73, R77). -/

namespace Sys2Proof.Machine

variable {s : State} {agent : Agent} {a : Nat} {b : Byte} {rest : List Event} {w : Window}

/-! Accesses that nothing stops -/

theorem runningWindows_idle (hp : s.phase = .idle) : runningWindows s = none := by
  simp only [runningWindows, hp]

theorem mayRead_idle (hp : s.phase = .idle) (a : Nat) : mayRead s a = true := by
  simp only [mayRead, runningWindows_idle hp]

theorem mayWrite_idle (hp : s.phase = .idle) (a : Nat) : mayWrite s a = true := by
  simp only [mayWrite, runningWindows_idle hp]

theorem accessStop_eq_none {allowed : Nat → Bool} (ha : a < Config.addressSpace) (hal : allowed a = true)
    (hd : s.platform.isDevice a = false) : accessStop s allowed a = none := by
  rw [accessStop, if_neg (Nat.not_le.mpr ha), hal, hd]
  rfl

theorem accessesStop_eq_none {allowed : Nat → Bool} {as : List Nat}
    (h : ∀ a ∈ as, a < Config.addressSpace ∧ allowed a = true ∧ s.platform.isDevice a = false) :
    accessesStop s allowed as = none := by
  induction as with
  | nil => rfl
  | cons a as ih =>
    obtain ⟨ha, hal, hd⟩ := h a (by simp)
    rw [accessesStop, accessStop_eq_none ha hal hd]
    exact ih fun b hb => h b (by simp [hb])

theorem throughCache_coherent (h : s.platform.dmaCoherent = true) : throughCache s agent = false := by
  simp [throughCache, h]

theorem throughCache_host (h : s.platform.dmaCoherent = false) : throughCache s .host = true := by
  simp [throughCache, h]

/-! One byte read or written -/

theorem cachedRead_hit {c : CachedByte} (h : cacheFind s.hostCache a = some c) :
    cachedRead s a = { s with lastRead := some (c.byte.setWidth 32) } := by
  simp only [cachedRead, h]

theorem lastRead_cachedRead_miss (h : cacheFind s.hostCache a = none) :
    (cachedRead s a).lastRead = some ((memRead s.mem a).setWidth 32) := by
  simp only [cachedRead, h]

section IdleAccess

variable (hp : s.phase = .idle) (ha : a < 2 ^ 32) (hd : s.platform.isDevice a = false)
include hp ha hd

theorem step_memRead (h : s.schedule = .memRead agent a :: rest) :
    step s = .next (if throughCache s agent then cachedRead { s with schedule := rest } a
      else { s with schedule := rest, lastRead := some ((memRead s.mem a).setWidth 32) }) := by
  have hstop : accessStop { s with schedule := rest } (mayRead { s with schedule := rest }) a = none :=
    accessStop_eq_none ha (mayRead_idle hp a) hd
  simp only [step_of_scheduled h, runEvent, agentRead, hstop]
  exact (apply_ite Host.Outcome.next _ _ _).symm

theorem step_memWrite (h : s.schedule = .memWrite agent a [b] :: rest) :
    step s = .next (
      if throughCache s agent then
        { s with schedule := rest, hostCache := cachePut s.hostCache a { byte := b, dirty := true } }
      else { s with schedule := rest, mem := memWrite s.mem a b }) := by
  have hstop : accessesStop { s with schedule := rest } (mayWrite { s with schedule := rest }) [a] = none :=
    accessesStop_eq_none (by simpa using ⟨ha, mayWrite_idle hp a, hd⟩)
  simp only [step_of_scheduled h, runEvent, agentWrite, List.length_singleton, List.range'_one, hstop]
  exact (apply_ite Host.Outcome.next _ _ _).symm

theorem step_memRead_memory (hc : throughCache s agent = false) (h : s.schedule = .memRead agent a :: rest) :
    step s = .next { s with schedule := rest, lastRead := some ((memRead s.mem a).setWidth 32) } := by
  rw [step_memRead hp ha hd h, if_neg (ne_true_of_eq_false hc)]

theorem step_memRead_cache (hc : throughCache s agent = true) (h : s.schedule = .memRead agent a :: rest) :
    step s = .next (cachedRead { s with schedule := rest } a) := by
  rw [step_memRead hp ha hd h, if_pos hc]

theorem step_memRead_hit {c : CachedByte} (hc : throughCache s agent = true) (hf : cacheFind s.hostCache a = some c)
    (h : s.schedule = .memRead agent a :: rest) :
    step s = .next { s with schedule := rest, lastRead := some (c.byte.setWidth 32) } := by
  rw [step_memRead_cache hp ha hd hc h, cachedRead_hit (s := { s with schedule := rest }) hf]

theorem step_memWrite_memory (hc : throughCache s agent = false) (h : s.schedule = .memWrite agent a [b] :: rest) :
    step s = .next { s with schedule := rest, mem := memWrite s.mem a b } := by
  rw [step_memWrite hp ha hd h, if_neg (ne_true_of_eq_false hc)]

theorem step_memWrite_cache (hc : throughCache s agent = true) (h : s.schedule = .memWrite agent a [b] :: rest) :
    step s = .next { s with schedule := rest, hostCache := cachePut s.hostCache a { byte := b, dirty := true } } := by
  rw [step_memWrite hp ha hd h, if_pos hc]

end IdleAccess

/-! Cache maintenance (20_memory.md R77) -/

/-- A clean names no address twice. -/
theorem dirtyCells_distinct {h : HostCache} (hs : HostCache.wf h) :
    (dirtyCells h w).Pairwise (fun x y => x.1 ≠ y.1) := by
  unfold dirtyCells
  rw [List.pairwise_map]
  exact (hs.1.filter _).imp Nat.ne_of_lt

theorem step_cacheClean (hp : s.phase = .idle) (hc : s.platform.dmaCoherent = false) (hs : HostCache.wf s.hostCache)
    (hd : ∀ a, w.has a = true → s.platform.isDevice a = false) (h : s.schedule = .cacheClean w :: rest) :
    step s = .next { s with
      schedule := rest, mem := writeCells s.mem (dirtyCells s.hostCache w), hostCache := markClean s.hostCache w } := by
  have hstop : accessesStop { s with schedule := rest } (mayWrite { s with schedule := rest })
      ((dirtyCells s.hostCache w).map (·.1)) = none := by
    refine accessesStop_eq_none fun a ha => ?_
    obtain ⟨⟨a, b⟩, hcell, rfl⟩ := List.mem_map.mp ha
    exact ⟨dirtyCells_below hs _ hcell, mayWrite_idle hp a, hd a ((mem_dirtyCells hs).mp hcell).2⟩
  simp only [step_of_scheduled h, runEvent, hostClean, hc, hstop, Bool.false_eq_true, if_false]

theorem step_cacheInvalidate (hc : s.platform.dmaCoherent = false) (h : s.schedule = .cacheInvalidate w :: rest) :
    step s = .next { s with schedule := rest, hostCache := dropCached s.hostCache w } := by
  simp only [step_of_scheduled h, runEvent, hostInvalidate, hc, Bool.false_eq_true, if_false]

/-! The obligations -/

/-- Settles O50: the write and the read both reach memory, whichever agents make them. -/
theorem readReturnsTheLastByteWritten : Obligations.ReadReturnsTheLastByteWritten := by
  intro s agent agent' a b hs hp hc ha hd hsched
  have hwrite := step_memWrite_memory hp ha hd (throughCache_coherent hc) hsched
  have hread := step_memRead_memory (s := { s with schedule := [.memRead agent' a], mem := memWrite s.mem a b })
    hp ha hd (throughCache_coherent hc) rfl
  refine ⟨_, (run_succ hwrite).trans (run_succ hread), ?_, fun a' hne => memRead_memWrite_other hne⟩
  exact congrArg (fun v : Byte => some (v.setWidth 32)) (memRead_memWrite_same hs.memory.1)

/-- A byte the host writes through its caches reaches memory with the clean of its address, not before. -/
theorem hostWrite_reaches_memory_at_clean (hs : Legal s) (hp : s.phase = .idle) (hc : s.platform.dmaCoherent = false)
    (ha : a < 2 ^ 32) (hd : s.platform.isDevice a = false)
    (h : s.schedule = .memWrite .host a [b] :: .cacheClean ⟨a, a + 1⟩ :: rest) :
    ∃ t u, step s = .next t ∧ t.mem = s.mem ∧ step t = .next u ∧ memRead u.mem a = b := by
  have hwf : HostCache.wf (cachePut s.hostCache a { byte := b, dirty := true }) := cachePut_wf hs.cache ha
  have hwindow : ∀ a', Window.has ⟨a, a + 1⟩ a' = true → s.platform.isDevice a' = false := by
    intro a' h'
    obtain rfl : a' = a := by simp only [Window.has_iff] at h'; omega
    exact hd
  have hdirty : (a, b) ∈ dirtyCells (cachePut s.hostCache a { byte := b, dirty := true }) ⟨a, a + 1⟩ :=
    (mem_dirtyCells hwf).mpr ⟨cacheFind_cachePut_same, by simp⟩
  refine ⟨_, _, step_memWrite_cache hp ha hd (throughCache_host hc) h, rfl, step_cacheClean hp hc hwf hwindow rfl, ?_⟩
  exact memRead_writeCells_mem hs.memory.1 (dirtyCells_distinct hwf) hdirty

/-- The host reads its cached byte, and memory's once it has invalidated it. -/
theorem hostRead_reaches_memory_after_invalidate {c : CachedByte} (hp : s.phase = .idle)
    (hc : s.platform.dmaCoherent = false) (ha : a < 2 ^ 32) (hd : s.platform.isDevice a = false)
    (hf : cacheFind s.hostCache a = some c)
    (h : s.schedule = [.memRead .host a, .cacheInvalidate ⟨a, a + 1⟩, .memRead .host a]) :
    ∃ t u v, step s = .next t ∧ t.lastRead = some (c.byte.setWidth 32) ∧ step t = .next u
      ∧ step u = .next v ∧ v.lastRead = some ((memRead s.mem a).setWidth 32) := by
  have hcache := throughCache_host hc
  refine ⟨_, _, _, step_memRead_hit hp ha hd hcache hf h, rfl, step_cacheInvalidate hc rfl,
    step_memRead_cache hp ha hd hcache rfl, ?_⟩
  exact lastRead_cachedRead_miss (cacheFind_dropCached (by simp))

/-- Settles O51: a byte written reaches memory at its clean, and a byte read comes from memory after its invalidate. -/
theorem nonCoherentHostNeedsCacheMaintenance : Obligations.NonCoherentHostNeedsCacheMaintenance :=
  fun _ _ _ hs hp hc ha hd => ⟨fun _ h => hostWrite_reaches_memory_at_clean hs hp hc ha hd h,
    fun _ hf h => hostRead_reaches_memory_after_invalidate hp hc ha hd hf h⟩

end Sys2Proof.Machine
end

section
/-! PROOFS. Which commands touch memory, the windows a frame command's accesses lie in, and the order of its accesses
(20_memory.md R60, R71; 41_decode.md R140; 42_encode.md R170). -/

namespace Sys2Proof.Machine

variable {s : State} {o : OperandRegs} {m : Memory} {f : Frame} {N W H y x k : Nat}

/-! Commands that touch no memory (20_memory.md R60) -/

/-- Settles O43: a completion writes memory only as a frame's, and the other commands do not read it. -/
theorem onlyFrameCommandsTouchMemory : Obligations.OnlyFrameCommandsTouchMemory := by
  intro i s hdec henc
  refine ⟨fun t h => ?_, fun m => ?_⟩
  · obtain ⟨w, -, hc⟩ := exec_next h
    cases hc with
    | results | pixel | error => exact ⟨rfl, rfl⟩
    | frame f x y z hi | bus f hi => exact absurd hi (by simp [hdec, henc])
  · cases i with
    | decode => exact absurd rfl hdec
    | encode => exact absurd rfl henc
    | _ => exact withCommand_mapNext rfl fun w => finish_mem s m _

/-! Soundness of a frame past its checks -/

theorem decodeFrame_sound (h : decodeFrame o m = .ok f) : f.Sound := by
  obtain ⟨_, _, _, _, _, _, _, _, hS⟩ := decodeFrame_ok h
  exact hS

theorem encodeFrame_sound (h : encodeFrame o m = .ok f) : f.Sound := by
  obtain ⟨_, _, _, _, _, _, _, _, hS⟩ := encodeFrame_ok h
  exact hS

/-- The writes of a sound frame give the same memory in every order. -/
theorem Frame.Sound.writeCells_perm (hf : f.Sound) (hm : Memory.wf m) {cs : List Host.Cell} (hp : f.writes.Perm cs) :
    writeCells m cs = writeCells m f.writes :=
  (Machine.writeCells_perm hm (fun c hc => Nat.lt_of_lt_of_le (hf.inside c hc).2 hf.inSpace) hf.distinct hp).symm

/-- Settles O36: a frame past its checks is sound, and a sound frame's writes may be permuted. -/
theorem orderOfWritesIsNotObservable : Obligations.OrderOfWritesIsNotObservable := by
  intro s o f cs hs h hp
  exact (h.elim decodeFrame_sound encodeFrame_sound).writeCells_perm hs.memory hp

/-! Turns of a frame's loops, in any order -/

/-- Turns that read and write memory one after the other write what each would have written at first, when no write of
theirs changes what a turn reads. -/
theorem foldl_turns {α : Type} {cells : Memory → α → List Host.Cell} {ws : List Host.Cell} {us : List α}
    (hw : ∀ u ∈ us, cells m u ⊆ ws) (hr : ∀ cs ⊆ ws, ∀ u ∈ us, cells (writeCells m cs) u = cells m u) :
    us.foldl (fun m u => writeCells m (cells m u)) m = writeCells m (us.flatMap (cells m)) := by
  induction us using List.reverseRecOn with
  | nil => rfl
  | append_singleton us u ih =>
    have before : us.flatMap (cells m) ⊆ ws := fun c hc => by
      obtain ⟨v, hv, hc⟩ := List.mem_flatMap.mp hc
      exact hw v (by simp [hv]) hc
    simp only [List.foldl_append, List.foldl_cons, List.foldl_nil, List.flatMap_append, List.flatMap_singleton,
      writeCells_append]
    rw [ih (fun v hv => hw v (by simp [hv])) (fun cs hcs v hv => hr cs hcs v (by simp [hv])), hr _ before u (by simp)]

/-- A sound frame's turns may be taken in any order, each reading memory as the ones before have left it, when they read
only the source window (20_memory.md R71). -/
theorem Frame.Sound.turns_in_any_order {α : Type} {cells : Memory → α → List Host.Cell} {turns us : List α}
    (hf : f.Sound) (hm : Memory.wf m) (hne : f.dst.lo < f.dst.hi) (hw : f.writes = turns.flatMap (cells m))
    (hr : ∀ u ∈ turns, ∀ m', (∀ a, f.src.has a = true → memRead m' a = memRead m a) → cells m' u = cells m u)
    (hp : turns.Perm us) : us.foldl (fun m u => writeCells m (cells m u)) m = writeCells m f.writes := by
  rw [foldl_turns (ws := f.writes)]
  · exact hf.writeCells_perm hm (hw ▸ hp.flatMap_right _)
  · exact fun u hu c hc => hw ▸ List.mem_flatMap.mpr ⟨u, hp.mem_iff.mpr hu, hc⟩
  · exact fun cs hcs u hu => hr u (hp.mem_iff.mpr hu) _ fun a ha => writes_keep_source hf hne ha hcs

/-! The windows of DECODE and ENCODE -/

theorem fileRowOf_lt (hy : y < H) : fileRowOf o H y < H := by
  unfold fileRowOf
  split <;> omega

theorem decodeFrom_eq : decodeFrom o (decodeGeometryOf o N W H) y x = decodePixelAt o N W H y x := by
  simp only [decodeFrom, decodeGeometryOf, decodePixelAt, pixelArray, fileRowOf, srcRow, u32, decide_eq_true_eq]

theorem decodeSrc_has {a : Nat} : (decodeSrc o (decodeGeometryOf o N W H)).has a = true ↔
    pixelArray o ≤ a ∧ a < pixelArray o + rowBytes W N * H := by
  simp only [Window.has_iff, decodeSrc, decodeGeometryOf, pixelArray, u32, Nat.add_assoc]

theorem decodeDst_has {a : Nat} : (decodeDst o (decodeGeometryOf o N W H)).has a = true ↔
    o.dstBase.toNat ≤ a ∧ a < o.dstBase.toNat + W * H * 4 := by
  simp only [Window.has_iff, decodeDst, decodeGeometryOf, u32]

theorem encodeSrc_has {a : Nat} : (encodeSrc o (encodeGeometryOf W H)).has a = true ↔
    o.srcBase.toNat ≤ a ∧ a < o.srcBase.toNat + W * H * 4 := by
  simp only [Window.has_iff, encodeSrc, encodeGeometryOf, u32]

theorem encodeDst_has {a : Nat} : (encodeDst o (encodeGeometryOf W H)).has a = true ↔
    o.dstBase.toNat ≤ a ∧ a < o.dstBase.toNat + rowBytes W 3 * H := by
  simp only [Window.has_iff, encodeDst, encodeGeometryOf, u32]

/-- The bytes of a pixel lie in the source window of a decode. -/
theorem decodePixel_in_src (hy : y < H) (hx : x < W) (hk : k < N) :
    (decodeSrc o (decodeGeometryOf o N W H)).has (decodePixelAt o N W H y x + k) = true := by
  have hpixel : x * N + k < W * N := Nat.mul_comm N W ▸ row_major_lt hx hk
  have hbyte := row_major_lt (fileRowOf_lt (o := o) hy) (Nat.lt_of_lt_of_le hpixel (le_rowBytes W N))
  rw [decodeSrc_has, decodePixelAt]
  omega

/-- The bytes of a pixel lie in the source window of an encode. -/
theorem encodePixel_in_src (hy : y < H) (hx : x < W) (hk : k < 4) :
    (encodeSrc o (encodeGeometryOf W H)).has (o.srcBase.toNat + (y * W + x) * 4 + k) = true := by
  have hpixel := row_major_lt hy hx
  rw [encodeSrc_has]
  omega

/-- Settles O37: a pixel reads only the source window. -/
theorem decodeMayReadAndWritePixelsInAnyOrder : Obligations.DecodeMayReadAndWritePixelsInAnyOrder := by
  intro s o g f ps hs hg h hp
  obtain ⟨N, W, H, hshape, -, -, -, rfl, hf⟩ := decodeFrame_ok h
  obtain rfl := Except.ok.inj (hg.symm.trans (decodeGeometry_of_shape hshape))
  have hne := hshape.sizes.2
  refine hf.turns_in_any_order hs.memory (show _ < _ by simp only [decodeDst, decodeGeometryOf]; omega) rfl ?_ hp
  rintro ⟨y, x⟩ hyx m' hm'
  obtain ⟨hy, hx⟩ := mem_rowMajor.mp hyx
  have hread : readBytes m' (decodeFrom o (decodeGeometryOf o N W H) y x) N = readBytes s.mem _ N :=
    readBytes_congr fun k hk => hm' _ (decodeFrom_eq ▸ decodePixel_in_src hy hx hk)
  exact congrArg (fun bs => cellsAt _ (decPix N bs)) hread

theorem encodeUnit_in_image {y x : Nat} (h : .pixel y x ∈ encodeUnits (encodeGeometryOf W H)) : y < H ∧ x < W := by
  simpa [encodeUnits, encodeGeometryOf, and_assoc] using h

/-- Settles O57: a pixel reads only the source window, and a padding byte nothing. -/
theorem encodeMayReadAndWritePixelsInAnyOrder : Obligations.EncodeMayReadAndWritePixelsInAnyOrder := by
  intro s o g f us hs hg h hp
  obtain ⟨W, H, hshape, -, -, -, -, rfl, hf⟩ := encodeFrame_ok h
  obtain rfl := Except.ok.inj (hg.symm.trans (encodeGeometry_of_shape hshape))
  have hne := hshape.sizes.1
  refine hf.turns_in_any_order hs.memory (show _ < _ by simp only [encodeDst, encodeGeometryOf]; omega)
    (encodeWrites_eq_units o _ s.mem) ?_ hp
  rintro (⟨y, x⟩ | ⟨y, p⟩) hu m' hm'
  · obtain ⟨hy, hx⟩ := encodeUnit_in_image hu
    have hread : readBytes m' (encodeFrom o (encodeGeometryOf W H) y x) 3 = readBytes s.mem _ 3 :=
      readBytes_congr fun k hk => hm' _ (encodePixel_in_src hy hx (Nat.lt_succ_of_lt hk))
    simp only [encodeUnitCells, hread]
  · rfl

end Sys2Proof.Machine
end

section
/-! PROOFS. A frame command that the bus fails: where a refused access fails it, and what its BusError leaves
(20_memory.md R78, U4). -/

namespace Sys2Proof.Machine

variable {s : State} {o : OperandRegs} {m : Memory} {f : Frame} {N W H y x k : Nat}

theorem busFails_of_read {p : Platform} {n a : Nat} (hu : a ∈ f.uses) (hs : f.src.has a = true)
    (ha : p.admits a .read = false) : f.busFails p n = true := by
  refine Bool.or_eq_true_iff.mpr (.inl (List.any_eq_true.mpr ⟨a, Window.mem_addrs.mpr (Window.has_iff.mp hs), ?_⟩))
  simp [ha, hu]

theorem busFails_of_write {p : Platform} {n : Nat} {c : Host.Cell} (hc : c ∈ f.writes)
    (ha : p.admits c.1 .write = false) : f.busFails p n = true :=
  Bool.or_eq_true_iff.mpr (.inr (List.any_eq_true.mpr ⟨c, hc, by simp [ha]⟩))

/-- A frame that the bus fails ends with BusError, each byte it writes old or new and every other byte of memory as it was
(20_memory.md R78, U4). -/
theorem runFrame_busError (hm : Memory.wf s.mem) (hf : f.Sound) (hd : f.onDevice s.platform = false)
    (hb : f.busFails s.platform s.freeCount = true) :
    ∃ m, runFrame s f = .next
        { s with mem := m, freeCount := s.freeCount + 1, errcode := some .busError, err := true, phase := .idle }
      ∧ (∀ a b, (a, b) ∈ f.writes → memRead m a = memRead s.mem a ∨ memRead m a = b)
      ∧ ∀ a, f.dst.has a = false → memRead m a = memRead s.mem a := by
  refine ⟨writeCells s.mem (f.partialWrites s.freeCount), ?_, fun a b hab => ?_, fun a => partialWrites_outside hf _ a⟩
  · simp only [runFrame, hd, hb, Bool.false_eq_true, if_false, if_true]
    rfl
  · rw [← memRead_writeCells_mem (b := b) hm.1 hf.distinct hab]
    exact partialWrites_old_or_new hm hf _ a

/-- Every byte of the destination window of a decode is one of a pixel. -/
theorem decodeWrites_cover (hN : N = 3 ∨ N = 4) {j : Nat} (hj : j < W * H * 4) :
    ∃ c ∈ decodeWrites o (decodeGeometryOf o N W H) m, c.1 = o.dstBase.toNat + j := by
  have hpixel : j / 4 < W * H := by omega
  have hy : j / 4 / W < H := Nat.div_lt_of_lt_mul hpixel
  have hx : j / 4 % W < W := Nat.mod_lt _ (Nat.pos_of_mul_pos_right (Nat.zero_lt_of_lt hpixel))
  refine ⟨_, (mem_decodeWrites hN).mpr ⟨j / 4 / W, hy, j / 4 % W, hx, j % 4, Nat.mod_lt _ (by decide), rfl⟩, ?_⟩
  simp only [Nat.div_add_mod']
  omega

/-- Every byte of the destination window of an encode is one of a file row. -/
theorem encodeWrites_cover {j : Nat} (hj : j < rowBytes W 3 * H) :
    ∃ c ∈ encodeWrites o (encodeGeometryOf W H) m, c.1 = o.dstBase.toNat + j := by
  have hr : j / rowBytes W 3 < H := Nat.div_lt_of_lt_mul hj
  have hq : j % rowBytes W 3 < rowBytes W 3 := Nat.mod_lt _ (Nat.pos_of_mul_pos_right (Nat.zero_lt_of_lt hj))
  refine ⟨_, mem_encodeWrites.mpr ⟨_, hr, _, hq, rfl⟩, ?_⟩
  simp only [Nat.add_assoc, Nat.div_add_mod']

theorem mem_decodeUses (hy : y < H) (hx : x < W) (hk : k < N) :
    decodePixelAt o N W H y x + k ∈ decodeUses o (decodeGeometryOf o N W H) := by
  refine List.mem_flatMap.mpr ⟨(y, x), mem_rowMajor.mpr ⟨hy, hx⟩, ?_⟩
  simp only [decodeFrom_eq, List.mem_range'_1]
  exact ⟨Nat.le_add_right _ _, Nat.add_lt_add_left hk _⟩

theorem mem_encodeUses (hy : y < H) (hx : x < W) (hk : k < 3) :
    o.srcBase.toNat + (y * W + x) * 4 + k ∈ encodeUses o (encodeGeometryOf W H) := by
  refine List.mem_flatMap.mpr ⟨(y, x), mem_rowMajor.mpr ⟨hy, hx⟩, List.mem_range'_1.mpr ?_⟩
  exact ⟨Nat.le_add_right _ _, Nat.add_lt_add_left hk _⟩

theorem exec_decode_of_frame {w : WorkingCopy} (hw : s.phase = .busy w) (h : decodeFrame w.ops s.mem = .ok f) :
    exec .decode s = runFrame s f := by
  have hrun : exec .decode s = finishFrame s (decodeFrame w.ops s.mem) := withCommand_busy hw _
  rw [hrun, h]
  rfl

theorem DecodePasses.onDevice_eq_false (hp : DecodePasses s o N W H) (h : decodeFrame o m = .ok f) :
    f.onDevice s.platform = false := by
  rw [decodeFrame_passes hp] at h
  cases h
  refine onDevice_false fun a ha => ha.elim (fun ha => ?_) (fun ha => ?_)
  · exact hp.srcOrdinary a (decodeSrc_has.mp ha).1 (decodeSrc_has.mp ha).2
  · exact hp.dstOrdinary a (decodeDst_has.mp ha).1 (decodeDst_has.mp ha).2

/-- The bus fails the frame at a refused read of a byte it uses, or at a refused write of a destination byte. -/
theorem DecodePasses.busFails (hp : DecodePasses s o N W H) (h : decodeFrame o m = .ok f)
    (hrefused : (∃ y < H, ∃ x < W, ∃ j < N, s.platform.admits (decodePixelAt o N W H y x + j) .read = false)
      ∨ ∃ j < W * H * 4, s.platform.admits (o.dstBase.toNat + j) .write = false) (n : Nat) :
    f.busFails s.platform n = true := by
  rw [decodeFrame_passes hp] at h
  cases h
  rcases hrefused with ⟨y, hy, x, hx, j, hj, ha⟩ | ⟨j, hj, ha⟩
  · exact busFails_of_read (mem_decodeUses hy hx hj) (decodePixel_in_src hy hx hj) ha
  · obtain ⟨c, hc, hcj⟩ := decodeWrites_cover hp.shape.bytes hj
    exact busFails_of_write hc (hcj ▸ ha)

/-- Settles O31: a frame that passes every check runs, and the bus fails it at the refused access. -/
theorem decodeBusErrorLeavesOldOrNewBytes : Obligations.DecodeBusErrorLeavesOldOrNewBytes := by
  intro s w N W H hs hw hp hrefused
  have hok := decodeFrame_passes hp s.mem
  obtain ⟨m, hexec, hbytes, hout⟩ := runFrame_busError hs.memory (decodeFrame_sound hok)
    (hp.onDevice_eq_false hok) (hp.busFails hok hrefused s.freeCount)
  refine ⟨m, (exec_decode_of_frame hw hok).trans hexec, fun y hy x hx k hk => ?_,
    fun a ha => hout a (Window.has_false.mpr ha)⟩
  exact hbytes _ _ ((mem_decodeWrites hp.shape.bytes).mpr ⟨y, hy, x, hx, k, hk, rfl⟩)

theorem exec_encode_of_frame {w : WorkingCopy} (hw : s.phase = .busy w) (h : encodeFrame w.ops s.mem = .ok f) :
    exec .encode s = runFrame s f := by
  have hrun : exec .encode s = finishFrame s (encodeFrame w.ops s.mem) := withCommand_busy hw _
  rw [hrun, h]
  rfl

theorem EncodePasses.onDevice_eq_false (hp : EncodePasses s o W H) (h : encodeFrame o m = .ok f) :
    f.onDevice s.platform = false := by
  rw [encodeFrame_passes hp] at h
  cases h
  refine onDevice_false fun a ha => ha.elim (fun ha => ?_) (fun ha => ?_)
  · exact hp.srcOrdinary a (encodeSrc_has.mp ha).1 (encodeSrc_has.mp ha).2
  · exact hp.dstOrdinary a (encodeDst_has.mp ha).1 (encodeDst_has.mp ha).2

/-- The bus fails the frame at a refused read of a byte it uses, or at a refused write of a destination byte. -/
theorem EncodePasses.busFails (hp : EncodePasses s o W H) (h : encodeFrame o m = .ok f)
    (hrefused : (∃ y < H, ∃ x < W, ∃ j < 3, s.platform.admits (o.srcBase.toNat + (y * W + x) * 4 + j) .read = false)
      ∨ ∃ j < rowBytes W 3 * H, s.platform.admits (o.dstBase.toNat + j) .write = false) (n : Nat) :
    f.busFails s.platform n = true := by
  rw [encodeFrame_passes hp] at h
  cases h
  rcases hrefused with ⟨y, hy, x, hx, j, hj, ha⟩ | ⟨j, hj, ha⟩
  · exact busFails_of_read (mem_encodeUses hy hx hj) (encodePixel_in_src hy hx (Nat.lt_succ_of_lt hj)) ha
  · obtain ⟨c, hc, hcj⟩ := encodeWrites_cover hj
    exact busFails_of_write hc (hcj ▸ ha)

/-- Settles O34: a frame that passes every check runs, and the bus fails it at the refused access. -/
theorem encodeBusErrorLeavesOldOrNewBytes : Obligations.EncodeBusErrorLeavesOldOrNewBytes := by
  intro s w W H hs hw hp hrefused
  have hok := encodeFrame_passes hp s.mem
  obtain ⟨m, hexec, hbytes, hout⟩ := runFrame_busError hs.memory (encodeFrame_sound hok)
    (hp.onDevice_eq_false hok) (hp.busFails hok hrefused s.freeCount)
  refine ⟨m, (exec_encode_of_frame hw hok).trans hexec, fun r hr q hq => ?_,
    fun a ha => hout a (Window.has_false.mpr ha)⟩
  exact hbytes _ _ (mem_encodeWrites.mpr ⟨r, hr, q, hq, rfl⟩)

end Sys2Proof.Machine
end

section
/-! PROOFS. The encoding: the decoder reads a command from its word and from no other, and what follows for the block's turn
(30_encoding.md R90 to R94). -/

namespace Sys2Proof.Machine

variable {s : State} {c : Word} {i : Instr}

/-! Decoder and encoder (30_encoding.md R90, R92, R93) -/

/-- The laws of the nine constructors, together. -/
theorem encoding_statement (i : Instr) : Laws.Encoding.Statement i := by
  cases i with
  | stride => exact Laws.Encoding.stride
  | decCheck => exact Laws.Encoding.decCheck
  | decode => exact Laws.Encoding.decode
  | encCheck => exact Laws.Encoding.encCheck
  | encode => exact Laws.Encoding.encode
  | rowmapDec => exact Laws.Encoding.rowmapDec
  | rowmapEnc => exact Laws.Encoding.rowmapEnc
  | pixDec => exact Laws.Encoding.pixDec
  | pixEnc => exact Laws.Encoding.pixEnc

theorem encode_fields_wellFormed (i : Instr) : (cmdFields (encode i)).wellFormed = true := (encoding_statement i).2.1

theorem decode_encode (i : Instr) : decode (encode i) = .instr i := (encoding_statement i).2.2

/-- A word is its two fields. -/
theorem bits_cmdFields (c : Word) : (cmdFields c).bits = c := by
  simp only [CmdWord.bits, cmdFields]
  rw [BitVec.extractLsb'_append_extractLsb'_eq_extractLsb' (by decide)]
  exact BitVec.extractLsb'_eq_self

theorem opcode_of_decodeOp {op : BitVec 4} (h : decodeOp op = .instr i) : op = opcode i := by
  unfold decodeOp at h
  split at h <;> cases h <;> exact BitVec.eq_of_toNat_eq ‹_›

theorem encode_of_decode (h : decode c = .instr i) : encode i = c := by
  unfold decode at h
  split at h
  · cases h
  · rename_i hrsv
    have hop : (cmdFields c).op = opcode i := opcode_of_decodeOp h
    have hrsv : (cmdFields c).rsv = 0#28 := not_not.mp hrsv
    calc encode i = (cmdFields c).bits := by rw [encode, CmdWord.bits, CmdWord.bits, hop, hrsv]
      _ = c := bits_cmdFields c

theorem decode_eq_instr : decode c = .instr i ↔ c = encode i :=
  ⟨fun h => (encode_of_decode h).symm, fun h => h ▸ decode_encode i⟩

/-- Settles O2: the decoder reads a command from its encoding alone, and the table lists the nine encodings. -/
theorem decodeSelectsByTheWholeWord : Obligations.DecodeSelectsByTheWholeWord := by
  intro c i
  rw [decode_eq_instr]
  cases i <;> simp [encode, opcode, CmdWord.bits]

/-- Settles O3: the word a command is read from is its encoding, whose fields are legal. -/
theorem decodeAndEncodeAgree : Obligations.DecodeAndEncodeAgree := by
  refine ⟨fun i _ => decode_encode i, fun c i h => ?_⟩
  obtain rfl := encode_of_decode h
  exact ⟨rfl, encode_fields_wellFormed i⟩

/-- Settles O1: nine of the words are encodings; OP of the other seven is reserved. -/
theorem smallCommandWordsDecodeAsTheTableSays : Obligations.SmallCommandWordsDecodeAsTheTableSays := by
  refine ⟨decode_encode .stride, decode_encode .decCheck, decode_encode .decode, decode_encode .encCheck,
    decode_encode .encode, decode_encode .rowmapDec, decode_encode .rowmapEnc, decode_encode .pixDec,
    decode_encode .pixEnc, ?_⟩
  decide

/-! Illegal words (30_encoding.md R94) -/

theorem encode_between (i : Instr) : 1 ≤ (encode i).toNat ∧ (encode i).toNat ≤ 9 := by
  cases i <;> decide

theorem decode_illegal (h : ¬ (1 ≤ c.toNat ∧ c.toNat ≤ 9)) : ∃ why, decode c = .illegal why := by
  cases hd : decode c with
  | instr i => exact absurd (encode_of_decode hd ▸ encode_between i) h
  | illegal why => exact ⟨why, rfl⟩

theorem blockTurn_of_illegal {w : WorkingCopy} (hp : s.phase = .busy w) (h : ¬ (1 ≤ w.cmd.toNat ∧ w.cmd.toNat ≤ 9)) :
    blockTurn s = .next (completeError s .badCommand) := by
  obtain ⟨why, hd⟩ := decode_illegal h
  simp only [blockTurn, hp, hd]

/-- Settles O5: both ways to the block's turn end the command with BadCommand. -/
theorem illegalWordCompletesWithBadCommand : Obligations.IllegalWordCompletesWithBadCommand := by
  intro s w hp hw
  refine ⟨fun h => ?_, fun rest h => ?_⟩
  · rw [step_of_unscheduled h, blockTurn_of_illegal hp hw]
    rfl
  · rw [step_of_scheduled h]
    exact blockTurn_of_illegal (s := { s with schedule := rest }) hp hw

end Sys2Proof.Machine
end

section
/-! PROOFS. The operands a command reads: its outcome depends on no other field of the working copy, nor on the word
(30_encoding.md R96). -/

namespace Sys2Proof.Machine

variable {s : State} {o o' : OperandRegs}

/-! A completion ends the phase, whatever its working copy held -/

theorem completeOk_withPhase (s : State) (p : Phase) (r : CmdResult) :
    completeOk { s with phase := p } r = completeOk s r := by
  cases r <;> rfl

theorem finish_withPhase (s : State) (p : Phase) (r : Except CmdError CmdResult) :
    finish { s with phase := p } r = finish s r := by
  cases r with
  | ok r => exact congrArg Host.Outcome.next (completeOk_withPhase s p r)
  | error => rfl

theorem runFrame_withPhase (s : State) (p : Phase) (f : Frame) : runFrame { s with phase := p } f = runFrame s f := by
  have hok : completeOk (transferAll { s with phase := p } f) f.result = completeOk (transferAll s f) f.result :=
    completeOk_withPhase (transferAll s f) p f.result
  unfold runFrame
  rw [hok]
  rfl

theorem finishFrame_withPhase (s : State) (p : Phase) (r : Except CmdError Frame) :
    finishFrame { s with phase := p } r = finishFrame s r := by
  cases r with
  | ok f => exact runFrame_withPhase s p f
  | error => rfl

/-- A state in which a command is in progress with the word `c` and the operands `o`. -/
def State.inProgress (s : State) (c : Word) (o : OperandRegs) : State := { s with phase := .busy { cmd := c, ops := o } }

/-- A command that touches no memory ends alike on operands that answer alike. -/
theorem withCommand_finish_congr {command : OperandRegs → Except CmdError CmdResult} (c c' : Word)
    (h : command o = command o') :
    withCommand (s.inProgress c o) (fun w => finish (s.inProgress c o) (command w.ops))
      = withCommand (s.inProgress c' o') (fun w => finish (s.inProgress c' o') (command w.ops)) := by
  calc
    _ = finish s (command o) := finish_withPhase s _ _
    _ = finish s (command o') := by rw [h]
    _ = _ := (finish_withPhase s _ _).symm

/-- A frame command ends alike on operands that give the same frame. -/
theorem withCommand_finishFrame_congr {command : OperandRegs → Memory → Except CmdError Frame} (c c' : Word)
    (h : command o s.mem = command o' s.mem) :
    withCommand (s.inProgress c o) (fun w => finishFrame (s.inProgress c o) (command w.ops s.mem))
      = withCommand (s.inProgress c' o') (fun w => finishFrame (s.inProgress c' o') (command w.ops s.mem)) := by
  calc
    _ = finishFrame s (command o s.mem) := finishFrame_withPhase s _ _
    _ = finishFrame s (command o' s.mem) := by rw [h]
    _ = _ := (finishFrame_withPhase s _ _).symm

/-! The checks and geometries read the operands they name -/

theorem checkDepth_congr (hb : o.bpp = o'.bpp) : checkDepth o = checkDepth o' := by
  simp only [checkDepth, hb]

theorem checkWidth_congr (hw : o.width = o'.width) : checkWidth o = checkWidth o' := by
  simp only [checkWidth, hw]

theorem decodeGeometry_congr (hb : o.bpp = o'.bpp) (hw : o.width = o'.width) (hh : o.height = o'.height)
    (hd : o.dataOffset = o'.dataOffset) : decodeGeometry o = decodeGeometry o' := by
  simp only [decodeGeometry, checkDepth_congr hb, checkWidth_congr hw, hh, hd]

theorem decodeChecked_congr (hb : o.bpp = o'.bpp) (hw : o.width = o'.width) (hh : o.height = o'.height)
    (hd : o.dataOffset = o'.dataOffset) (hl : o.srcLen = o'.srcLen) : decodeChecked o = decodeChecked o' := by
  simp only [decodeChecked, decodeGeometry_congr hb hw hh hd, hl]

theorem encodeGeometry_congr (hw : o.width = o'.width) (hh : o.height = o'.height) :
    encodeGeometry o = encodeGeometry o' := by
  simp only [encodeGeometry, checkWidth_congr hw, hh]

theorem encodeChecked_congr (hw : o.width = o'.width) (hh : o.height = o'.height) (hl : o.srcLen = o'.srcLen) :
    encodeChecked o = encodeChecked o' := by
  simp only [encodeChecked, encodeGeometry_congr hw hh, hl]

/-! Each command reads the operands of R96 -/

theorem strideCommand_congr (h : sameReads .stride o o') : strideCommand o = strideCommand o' := by
  obtain ⟨hb, hw⟩ := h
  simp only [strideCommand, checkDepth_congr hb, checkWidth_congr hw]

theorem decCheckCommand_congr (h : sameReads .decCheck o o') : decCheckCommand o = decCheckCommand o' := by
  obtain ⟨hb, hw, hh, hd, hl⟩ := h
  simp only [decCheckCommand, decodeChecked_congr hb hw hh hd hl]

theorem decodeFrame_congr (h : sameReads .decode o o') (m : Memory) : decodeFrame o m = decodeFrame o' m := by
  obtain ⟨hb, hw, hh, hd, hsb, hsl, hdb, hdl⟩ := h
  unfold decodeFrame decodeWrites decodeUses decodeTo decodeFrom decodeSrc decodeDst
  rw [decodeChecked_congr hb hw hh hd hsl, hsb, hdb, hdl]

theorem encCheckCommand_congr (h : sameReads .encCheck o o') : encCheckCommand o = encCheckCommand o' := by
  obtain ⟨hw, hh, hl⟩ := h
  simp only [encCheckCommand, encodeChecked_congr hw hh hl]

theorem encodeFrame_congr (h : sameReads .encode o o') (m : Memory) : encodeFrame o m = encodeFrame o' m := by
  obtain ⟨hw, hh, hsb, hsl, hdb, hdl⟩ := h
  unfold encodeFrame encodeWrites encodeUses encodeRowPixels encodeRowPadding encodeRowTo encodeFrom encodeSrc encodeDst
  rw [encodeChecked_congr hw hh hsl, hsb, hdb, hdl]

theorem rowmapDecCommand_congr (h : sameReads .rowmapDec o o') : rowmapDecCommand o = rowmapDecCommand o' := by
  obtain ⟨hb, hw, hh, hd, hr⟩ := h
  simp only [rowmapDecCommand, decodeGeometry_congr hb hw hh hd, hr]

theorem rowmapEncCommand_congr (h : sameReads .rowmapEnc o o') : rowmapEncCommand o = rowmapEncCommand o' := by
  obtain ⟨hw, hh, hr⟩ := h
  simp only [rowmapEncCommand, encodeGeometry_congr hw hh, hr]

theorem pixDecCommand_congr (h : sameReads .pixDec o o') : pixDecCommand o = pixDecCommand o' := by
  obtain ⟨hb, hp⟩ := h
  simp only [pixDecCommand, checkDepth_congr hb, hp]

theorem pixEncCommand_congr (h : sameReads .pixEnc o o') : pixEncCommand o = pixEncCommand o' := by
  have hp : o.pixIn = o'.pixIn := h
  simp only [pixEncCommand, hp]

/-- Settles O45: each command answers from the operands it reads, and its completion keeps nothing of the working copy. -/
theorem unlistedOperandsHaveNoEffect : Obligations.UnlistedOperandsHaveNoEffect := by
  intro i s c c' o o' h
  cases i with
  | stride => exact withCommand_finish_congr c c' (strideCommand_congr h)
  | decCheck => exact withCommand_finish_congr c c' (decCheckCommand_congr h)
  | decode => exact withCommand_finishFrame_congr c c' (decodeFrame_congr h s.mem)
  | encCheck => exact withCommand_finish_congr c c' (encCheckCommand_congr h)
  | encode => exact withCommand_finishFrame_congr c c' (encodeFrame_congr h s.mem)
  | rowmapDec => exact withCommand_finish_congr c c' (rowmapDecCommand_congr h)
  | rowmapEnc => exact withCommand_finish_congr c c' (rowmapEncCommand_congr h)
  | pixDec => exact withCommand_finish_congr c c' (pixDecCommand_congr h)
  | pixEnc => exact withCommand_finish_congr c c' (pixEncCommand_congr h)

end Sys2Proof.Machine
end

section
/-! PROOFS. The row arithmetic and the STRIDE command (40_stride.md R110, R111, R114). -/

namespace Sys2Proof.Machine

variable {o : OperandRegs} {W N q : Nat}

/-! The stride and the padding -/

/-- No smaller multiple of 4 holds a row. -/
theorem rowBytes_le_multiple (h : W * N ≤ q * 4) : rowBytes W N ≤ q * 4 := by
  unfold rowBytes
  omega

/-- Settles O18: the stride is `rowBytes`, which rounds up to a multiple of 4. -/
theorem strideIsTheLeastMultipleOfFour : Obligations.StrideIsTheLeastMultipleOfFour := by
  intro W N _ _
  rw [stride_eq_rowBytes]
  have haligned : rowBytes W N % 4 = 0 := Nat.mul_mod_left _ 4
  have hclose : rowBytes W N ≤ W * N + 3 := Nat.div_mul_le_self _ 4
  exact ⟨haligned, le_rowBytes W N, hclose, rfl, fun _ => rowBytes_le_multiple⟩

theorem pad_eq (W N : Nat) : pad W N = rowBytes W N - W * N := rfl

theorem pad_four (W : Nat) : pad W 4 = 0 := by
  have h : rowBytes W 4 ≤ W * 4 := rowBytes_le_multiple (Nat.le_refl _)
  rw [pad_eq, Nat.sub_eq_zero_of_le h]

theorem pad_three (W : Nat) : pad W 3 = W % 4 := by
  rw [pad_eq, rowBytes]
  omega

/-- Settles O19: a row of 4-byte pixels is aligned, and 3 is -1 modulo 4. -/
theorem rowPaddingIsWidthModFour : Obligations.RowPaddingIsWidthModFour := by
  intro W
  have hmod : W % 4 = (4 - 3 * W % 4) % 4 := by omega
  exact ⟨pad_four W, pad_three W, (pad_three W).trans hmod, rfl⟩

/-! The depth check, from the register's bits -/

theorem depthOk_iff : DepthOk o ↔ o.bpp.toNat = 24 ∨ o.bpp.toNat = 32 := by
  simp only [DepthOk, ← BitVec.toNat_inj, BitVec.toNat_ofNat, Nat.reducePow, Nat.reduceMod]

theorem checkDepth_of_not_depthOk (h : ¬ DepthOk o) : checkDepth o = .error .unsupportedBitDepth :=
  checkDepth_error.mpr ⟨rfl, not_or.mp (mt depthOk_iff.mpr h)⟩

theorem checkDepth_of_depthOk (h : DepthOk o) : ∃ N, checkDepth o = .ok N := by
  rcases depthOk_iff.mp h with hb | hb
  · exact ⟨3, checkDepth_ok.mpr ⟨hb, .inl rfl⟩⟩
  · exact ⟨4, checkDepth_ok.mpr ⟨hb, .inr rfl⟩⟩

/-! STRIDE -/

theorem strideCommand_of_not_depthOk (h : ¬ DepthOk o) : strideCommand o = .error .unsupportedBitDepth := by
  rw [strideCommand, checkDepth_of_not_depthOk h]
  rfl

theorem strideCommand_of_width_lt_one (hd : DepthOk o) (hw : o.width.toInt < 1) :
    strideCommand o = .error .badDimension := by
  obtain ⟨N, hN⟩ := checkDepth_of_depthOk hd
  rw [strideCommand, hN, checkWidth_error.mpr ⟨rfl, hw⟩]
  rfl

theorem strideCommand_of_checks (hN : checkDepth o = .ok N) (hW : checkWidth o = .ok W) :
    strideCommand o = .ok (.results (rowBytes W N) (W * N) (rowBytes W N - W * N)) := by
  rw [strideCommand, hN, hW]
  rfl

/-- Settles O22: the depth is checked first, then the width, and the results are the row's sizes. -/
theorem strideReportsStrideRowBytesAndPadding : Obligations.StrideReportsStrideRowBytesAndPadding := by
  intro s w hp
  have hexec : exec .stride s = finish s (strideCommand w.ops) := withCommand_busy hp _
  rw [hexec]
  refine ⟨fun hd => ?depth, fun hd hw => ?width, fun N W hb hN hw hW => ?success⟩
  case depth =>
    rw [strideCommand_of_not_depthOk hd]
    rfl
  case width =>
    rw [strideCommand_of_width_lt_one hd hw]
    rfl
  case success =>
    rw [strideCommand_of_checks (checkDepth_ok.mpr ⟨hb, hN⟩) (checkWidth_ok.mpr ⟨hw, hW⟩)]
    rfl

end Sys2Proof.Machine
end

section
/-! PROOFS. The sizes of the largest images: no quantity of a command reaches 2^64 (40_stride.md R113). -/

namespace Sys2Proof.Machine

variable {o : OperandRegs} {m : Memory} {f : Frame} {r : CmdResult} {N W H y : Nat}

/-! The largest width, height and sizes -/

/-- The bytes of the largest image: 2^31 - 1 rows of 2^31 - 1 pixels of 4 bytes. -/
def maxImageBytes : Nat := (2 ^ 31 - 1) * 4 * (2 ^ 31 - 1)

theorem lt_of_toInt_eq {w : Word} (h : w.toInt = W) : W < 2 ^ 31 := by
  have := w.toInt_lt
  omega

theorem natAbs_toInt_lt {w : Word} (h : w.toInt ≠ -2147483648) : w.toInt.natAbs < 2 ^ 31 := by
  have := w.toInt_lt
  have := w.le_toInt
  omega

/-- The sizes of an image: a row of the file, the rows of the file, the packed pixels. -/
theorem imageSizes_le (hN : N = 3 ∨ N = 4) (hW : W < 2 ^ 31) (hH : H < 2 ^ 31) :
    rowBytes W N ≤ 2 ^ 33 - 4 ∧ rowBytes W N * H ≤ maxImageBytes ∧ W * H * 4 ≤ maxImageBytes := by
  have hpixels : W * N ≤ W * 4 := Nat.mul_le_mul_left W (by omega)
  have hrow : rowBytes W N ≤ W * 4 := rowBytes_le_multiple hpixels
  have himage : W * 4 * H ≤ maxImageBytes := Nat.mul_le_mul (by omega) (by omega)
  exact ⟨by omega, (Nat.mul_le_mul_right H hrow).trans himage, Nat.mul_right_comm W H 4 ▸ himage⟩

theorem DecodeShape.height_lt (hs : DecodeShape o N W H) : H < 2 ^ 31 :=
  hs.height ▸ natAbs_toInt_lt hs.heightRange

theorem DecodeShape.sizes_le (hs : DecodeShape o N W H) :
    rowBytes W N ≤ 2 ^ 33 - 4 ∧ rowBytes W N * H ≤ maxImageBytes ∧ W * H * 4 ≤ maxImageBytes :=
  imageSizes_le hs.bytes (lt_of_toInt_eq hs.width) hs.height_lt

theorem EncodeShape.height_lt (hs : EncodeShape o W H) : H < 2 ^ 31 := lt_of_toInt_eq hs.height

theorem EncodeShape.sizes_le (hs : EncodeShape o W H) :
    rowBytes W 3 ≤ 2 ^ 33 - 4 ∧ rowBytes W 3 * H ≤ maxImageBytes ∧ W * H * 4 ≤ maxImageBytes :=
  imageSizes_le (.inl rfl) (lt_of_toInt_eq hs.width) hs.height_lt

/-! The rows of an image -/

theorem srcRow_eq_fileRowOf (o : OperandRegs) (H y : Nat) :
    srcRow (decide (o.height.toInt < 0)) H y = fileRowOf o H y := by
  simp only [srcRow, fileRowOf, decide_eq_true_eq]

theorem dstRow_lt (hy : y < H) : dstRow H y < H := by
  unfold dstRow
  omega

/-- A row inside the image starts no later than the image ends. -/
theorem rowStart_le (hy : y < H) (bytes : Nat) : y * bytes ≤ bytes * H :=
  (Nat.mul_le_mul_right bytes hy.le).trans_eq (Nat.mul_comm H bytes)

/-- The row offsets of a decode. -/
theorem DecodeShape.rowOffsets_lt (hs : DecodeShape o N W H) (hy : y < H) :
    o.dataOffset.toNat + fileRowOf o H y * rowBytes W N < 2 ^ 64 ∧ y * W * 4 < 2 ^ 64 := by
  obtain ⟨-, harray, hpixels⟩ := hs.sizes_le
  have hoffset := o.dataOffset.isLt
  have hfile := rowStart_le (fileRowOf_lt (o := o) hy) (rowBytes W N)
  have hout := rowStart_le hy W
  unfold maxImageBytes at harray hpixels
  omega

/-- The row offsets of an encode. -/
theorem EncodeShape.rowOffsets_lt (hs : EncodeShape o W H) (hy : y < H) :
    y * W * 4 < 2 ^ 64 ∧ dstRow H y * rowBytes W 3 < 2 ^ 64 := by
  obtain ⟨-, harray, hpixels⟩ := hs.sizes_le
  have hin := rowStart_le hy W
  have hfile := rowStart_le (dstRow_lt hy) (rowBytes W 3)
  unfold maxImageBytes at harray hpixels
  omega

/-! The results of each command -/

/-- The results are below 2^64; a pixel is a word as it is. -/
def CmdResult.Fits : CmdResult → Prop
  | .results x y z => x < 2 ^ 64 ∧ y < 2 ^ 64 ∧ z < 2 ^ 64
  | .pixel _ => True

/-- A check that passed, and what the command does after it. -/
theorem ok_of_bind_eq_ok {α β : Type} {x : Except CmdError α} {k : α → Except CmdError β} {b : β}
    (h : x >>= k = .ok b) : ∃ a, x = .ok a ∧ k a = .ok b := by
  cases x with
  | error e => cases h
  | ok a => exact ⟨a, rfl, h⟩

theorem strideCommand_fits (h : strideCommand o = .ok r) : r.Fits := by
  obtain ⟨N, hN, h⟩ := ok_of_bind_eq_ok h
  obtain ⟨W, hW, h⟩ := ok_of_bind_eq_ok h
  cases h
  have hw := lt_of_toInt_eq (checkWidth_ok.mp hW).1
  obtain ⟨hrow, -, -⟩ := imageSizes_le (checkDepth_ok.mp hN).2 hw hw
  have hle := le_rowBytes W N
  simp only [CmdResult.Fits, stride_eq_rowBytes, pad_eq]
  omega

theorem decodeResult_fits (hs : DecodeShape o N W H) : (decodeResult (decodeGeometryOf o N W H)).Fits := by
  obtain ⟨hrow, harray, hpixels⟩ := hs.sizes_le
  have hoffset := o.dataOffset.isLt
  simp only [CmdResult.Fits, decodeResult, decodeGeometryOf, maxImageBytes] at *
  omega

theorem encodeResult_fits (hs : EncodeShape o W H) : (encodeResult (encodeGeometryOf W H)).Fits := by
  obtain ⟨hrow, harray, -⟩ := hs.sizes_le
  simp only [CmdResult.Fits, encodeResult, encodeGeometryOf, maxImageBytes] at *
  omega

theorem decodeGeometry_of_decodeChecked {g : DecodeGeometry} (h : decodeChecked o = .ok g) :
    decodeGeometry o = .ok g := by
  obtain ⟨g', hg, h⟩ := ok_of_bind_eq_ok h
  split at h
  · cases h
  · exact hg.trans h

theorem encodeGeometry_of_encodeChecked {g : EncodeGeometry} (h : encodeChecked o = .ok g) :
    encodeGeometry o = .ok g := by
  obtain ⟨g', hg, h⟩ := ok_of_bind_eq_ok h
  split at h
  · cases h
  · split at h
    · cases h
    · exact hg.trans h

theorem decCheckCommand_fits (h : decCheckCommand o = .ok r) : r.Fits := by
  obtain ⟨g, hg, h⟩ := ok_of_bind_eq_ok h
  cases h
  obtain ⟨N, W, H, hs, rfl⟩ := decodeGeometry_ok (decodeGeometry_of_decodeChecked hg)
  exact decodeResult_fits hs

theorem encCheckCommand_fits (h : encCheckCommand o = .ok r) : r.Fits := by
  obtain ⟨g, hg, h⟩ := ok_of_bind_eq_ok h
  cases h
  obtain ⟨W, H, hs, rfl⟩ := encodeGeometry_ok (encodeGeometry_of_encodeChecked hg)
  exact encodeResult_fits hs

theorem decodeFrame_fits (h : decodeFrame o m = .ok f) : f.result.Fits := by
  obtain ⟨N, W, H, hs, -, -, -, rfl, -⟩ := decodeFrame_ok h
  exact decodeResult_fits hs

theorem encodeFrame_fits (h : encodeFrame o m = .ok f) : f.result.Fits := by
  obtain ⟨W, H, hs, -, -, -, -, rfl, -⟩ := encodeFrame_ok h
  exact encodeResult_fits hs

/-- ROWMAP_DEC checks the row once the geometry stands (41_decode.md R133). -/
theorem rowmapDecCommand_of_shape (hs : DecodeShape o N W H) :
    rowmapDecCommand o =
      if H ≤ o.rowIndex.toNat then .error .rowRange
      else .ok (.results (fileRowOf o H o.rowIndex.toNat)
        (o.dataOffset.toNat + fileRowOf o H o.rowIndex.toNat * rowBytes W N) (o.rowIndex.toNat * W * 4)) := by
  rw [rowmapDecCommand, decodeGeometry_of_shape hs, ← srcRow_eq_fileRowOf]
  rfl

/-- ROWMAP_ENC checks the row once the geometry stands (42_encode.md R163). -/
theorem rowmapEncCommand_of_shape (hs : EncodeShape o W H) :
    rowmapEncCommand o =
      if H ≤ o.rowIndex.toNat then .error .rowRange
      else .ok (.results (dstRow H o.rowIndex.toNat) (o.rowIndex.toNat * W * 4)
        (dstRow H o.rowIndex.toNat * rowBytes W 3)) := by
  rw [rowmapEncCommand, encodeGeometry_of_shape hs]
  rfl

theorem rowmapDecCommand_fits (h : rowmapDecCommand o = .ok r) : r.Fits := by
  obtain ⟨g, hg, -⟩ := ok_of_bind_eq_ok h
  obtain ⟨N, W, H, hs, -⟩ := decodeGeometry_ok hg
  rw [rowmapDecCommand_of_shape hs] at h
  split at h
  · cases h
  · rename_i hrange
    cases h
    have hy := Nat.lt_of_not_le hrange
    exact ⟨(fileRowOf_lt hy).trans (hs.height_lt.trans (by decide)), hs.rowOffsets_lt hy⟩

theorem rowmapEncCommand_fits (h : rowmapEncCommand o = .ok r) : r.Fits := by
  obtain ⟨g, hg, -⟩ := ok_of_bind_eq_ok h
  obtain ⟨W, H, hs, -⟩ := encodeGeometry_ok hg
  rw [rowmapEncCommand_of_shape hs] at h
  split at h
  · cases h
  · rename_i hrange
    cases h
    have hy := Nat.lt_of_not_le hrange
    exact ⟨(dstRow_lt hy).trans (hs.height_lt.trans (by decide)), hs.rowOffsets_lt hy⟩

/-! Every quantity -/

theorem decodeQuantities_fit {g : DecodeGeometry} (hg : decodeGeometry o = .ok g) :
    g.stride ≤ 2 ^ 33 - 4 ∧ g.stride * g.absHeight ≤ 2 ^ 64 - 2 ^ 33 ∧ g.outLen ≤ 2 ^ 64 - 2 ^ 33 ∧ g.extent < 2 ^ 64
      ∧ (decodeSrc o g).hi < 2 ^ 64 ∧ (decodeDst o g).hi < 2 ^ 64
      ∧ ∀ y < g.absHeight,
        g.dataOffset + srcRow g.topDown g.absHeight y * g.stride < 2 ^ 64 ∧ y * g.width * 4 < 2 ^ 64 := by
  obtain ⟨N, W, H, hs, rfl⟩ := decodeGeometry_ok hg
  obtain ⟨hrow, harray, hpixels⟩ := hs.sizes_le
  have hoffset := o.dataOffset.isLt
  have hsrc := o.srcBase.isLt
  have hdst := o.dstBase.isLt
  simp only [decodeGeometryOf, decodeSrc, decodeDst, u32, maxImageBytes, srcRow_eq_fileRowOf] at *
  exact ⟨hrow, by omega, by omega, by omega, by omega, by omega, fun _ => hs.rowOffsets_lt⟩

theorem encodeQuantities_fit {g : EncodeGeometry} (hg : encodeGeometry o = .ok g) :
    g.stride ≤ 2 ^ 33 - 4 ∧ g.inLen < 2 ^ 64 ∧ g.pixelDataSize < 2 ^ 64 ∧ g.fileSize < 2 ^ 64
      ∧ (encodeSrc o g).hi < 2 ^ 64 ∧ (encodeDst o g).hi < 2 ^ 64
      ∧ ∀ y < g.height, y * g.width * 4 < 2 ^ 64 ∧ dstRow g.height y * g.stride < 2 ^ 64 := by
  obtain ⟨W, H, hs, rfl⟩ := encodeGeometry_ok hg
  obtain ⟨hrow, harray, hpixels⟩ := hs.sizes_le
  have hsrc := o.srcBase.isLt
  have hdst := o.dstBase.isLt
  simp only [encodeGeometryOf, encodeSrc, encodeDst, u32, maxImageBytes] at *
  exact ⟨hrow, by omega, by omega, by omega, by omega, by omega, fun _ => hs.rowOffsets_lt⟩

/-- Settles O21: widths and heights are below 2^31 and a pixel has at most 4 bytes, so no size is above `maxImageBytes`. -/
theorem everyQuantityFitsSixtyFourBits : Obligations.EveryQuantityFitsSixtyFourBits := by
  intro o
  refine ⟨fun _ => decodeQuantities_fit, fun _ => encodeQuantities_fit, fun m f x y z h => ?_⟩
  change (CmdResult.results x y z).Fits
  rcases h with h | h | h | h | h | ⟨h | h, hr⟩
  · exact strideCommand_fits h
  · exact decCheckCommand_fits h
  · exact encCheckCommand_fits h
  · exact rowmapDecCommand_fits h
  · exact rowmapEncCommand_fits h
  · exact hr ▸ decodeFrame_fits h
  · exact hr ▸ encodeFrame_fits h

end Sys2Proof.Machine
end

section
/-! PROOFS. The row maps, and what the decode commands answer: their checks in order, and the reports of DEC_CHECK, ROWMAP_DEC
and PIX_DEC (41_decode.md R130 to R135, R140). -/

namespace Sys2Proof.Machine

variable {s : State} {o : OperandRegs} {w : WorkingCopy} {e : CmdError} {N W H y : Nat}

/-! The row maps (41_decode.md R132, 42_encode.md R162) -/

theorem dstRow_dstRow (hy : y < H) : dstRow H (dstRow H y) = y := by
  unfold dstRow
  omega

theorem srcRow_bottomUp (H y : Nat) : srcRow false H y = dstRow H y := rfl

/-- Settles O20: the map of a bottom-up image is the encode map, and that of a top-down image the identity. -/
theorem rowMapsAreTheirOwnInverses : Obligations.RowMapsAreTheirOwnInverses := by
  intro H y hy
  simp only [srcRow_bottomUp]
  exact ⟨rfl, rfl, rfl, dstRow_lt hy, dstRow_lt hy, dstRow_dstRow hy, dstRow_dstRow hy, rfl⟩

/-! The geometry's errors -/

theorem DecodeShape.not_dimsBad (hs : DecodeShape o N W H) : ¬ DecodeDimsBad o := by
  obtain ⟨-, -, hw, hw1, hh, hh1, hr⟩ := hs
  unfold DecodeDimsBad
  omega

theorem decodeGeometry_of_not_depthOk (hd : ¬ DepthOk o) : decodeGeometry o = .error .unsupportedBitDepth := by
  rw [decodeGeometry, checkDepth_of_not_depthOk hd]
  rfl

theorem decodeGeometry_of_dimsBad (hd : DepthOk o) (hb : DecodeDimsBad o) :
    decodeGeometry o = .error .badDimension := by
  cases hg : decodeGeometry o with
  | ok g =>
    obtain ⟨N, W, H, hs, -⟩ := decodeGeometry_ok hg
    exact absurd hb hs.not_dimsBad
  | error e =>
    rcases decodeGeometry_error hg with ⟨-, hnd⟩ | ⟨rfl, -, -⟩
    · exact absurd hd hnd
    · rfl

/-! DEC_CHECK -/

theorem decodeChecked_of_geometry_error (h : decodeGeometry o = .error e) : decodeChecked o = .error e := by
  rw [decodeChecked, h]
  rfl

/-- The truncation check, once the geometry stands. -/
theorem decodeChecked_of_shape (hs : DecodeShape o N W H) :
    decodeChecked o =
      if o.srcLen.toNat < o.dataOffset.toNat + rowBytes W N * H then .error .truncatedData
      else .ok (decodeGeometryOf o N W H) := by
  rw [decodeChecked, decodeGeometry_of_shape hs]
  rfl

theorem decCheckCommand_of_error (h : decodeChecked o = .error e) : decCheckCommand o = .error e := by
  rw [decCheckCommand, h]
  rfl

theorem decCheckCommand_of_ok {g : DecodeGeometry} (h : decodeChecked o = .ok g) :
    decCheckCommand o = .ok (decodeResult g) := by
  rw [decCheckCommand, h]
  rfl

/-- Settles O23: DEC_CHECK answers as the decode validation does, and reports the sizes of the geometry. -/
theorem decCheckValidatesAndReportsSizes : Obligations.DecCheckValidatesAndReportsSizes := by
  intro s w hp
  have hexec : exec .decCheck s = finish s (decCheckCommand w.ops) := withCommand_busy hp _
  rw [hexec]
  refine ⟨fun hd => ?depth, fun hd hb => ?dims, fun N W H hs => ⟨fun ht => ?truncated, fun ht => ?success⟩⟩
  case depth =>
    rw [decCheckCommand_of_error (decodeChecked_of_geometry_error (decodeGeometry_of_not_depthOk hd))]
    rfl
  case dims =>
    rw [decCheckCommand_of_error (decodeChecked_of_geometry_error (decodeGeometry_of_dimsBad hd hb))]
    rfl
  case truncated =>
    rw [decCheckCommand_of_error ((decodeChecked_of_shape hs).trans (if_pos ht))]
    rfl
  case success =>
    rw [decCheckCommand_of_ok ((decodeChecked_of_shape hs).trans (if_neg (Nat.not_lt_of_le ht)))]
    rfl

/-! ROWMAP_DEC -/

theorem rowmapDecCommand_of_geometry_error (h : decodeGeometry o = .error e) : rowmapDecCommand o = .error e := by
  rw [rowmapDecCommand, h]
  rfl

/-- Settles O24: the geometry is checked first, then the row. -/
theorem rowmapDecReportsWhereARowComesFrom : Obligations.RowmapDecReportsWhereARowComesFrom := by
  intro s w hp
  have hexec : exec .rowmapDec s = finish s (rowmapDecCommand w.ops) := withCommand_busy hp _
  rw [hexec]
  refine ⟨fun hd => ?depth, fun hd hb => ?dims, fun N W H hs => ⟨fun hy => ?range, fun hy => ?success⟩⟩
  case depth =>
    rw [rowmapDecCommand_of_geometry_error (decodeGeometry_of_not_depthOk hd)]
    rfl
  case dims =>
    rw [rowmapDecCommand_of_geometry_error (decodeGeometry_of_dimsBad hd hb)]
    rfl
  case range =>
    rw [rowmapDecCommand_of_shape hs, if_pos hy]
    rfl
  case success =>
    rw [rowmapDecCommand_of_shape hs, if_neg (Nat.not_le_of_lt hy)]
    rfl

/-! PIX_DEC -/

theorem pixDecCommand_of_not_depthOk (hd : ¬ DepthOk o) : pixDecCommand o = .error .unsupportedBitDepth := by
  rw [pixDecCommand, checkDepth_of_not_depthOk hd]
  rfl

/-- PIX_DEC of a pixel without alpha. -/
theorem pixDecCommand_of_24 (hb : o.bpp = 24#32) :
    pixDecCommand o = .ok (.pixel (0xFF#8 ++ byteOf o.pixIn 0 ++ byteOf o.pixIn 1 ++ byteOf o.pixIn 2)) := by
  rw [pixDecCommand, checkDepth_ok.mpr ⟨congrArg BitVec.toNat hb, .inl rfl⟩]
  rfl

/-- PIX_DEC of a pixel with alpha. -/
theorem pixDecCommand_of_32 (hb : o.bpp = 32#32) :
    pixDecCommand o
      = .ok (.pixel (byteOf o.pixIn 3 ++ byteOf o.pixIn 0 ++ byteOf o.pixIn 1 ++ byteOf o.pixIn 2)) := by
  rw [pixDecCommand, checkDepth_ok.mpr ⟨congrArg BitVec.toNat hb, .inr rfl⟩]
  rfl

/-- Settles O25: after the depth check, one reordering for each depth. -/
theorem pixDecReordersOnePixel : Obligations.PixDecReordersOnePixel := by
  intro s w hp
  have hexec : exec .pixDec s = finish s (pixDecCommand w.ops) := withCommand_busy hp _
  rw [hexec]
  refine ⟨fun hd => ?_, ?_⟩
  · rw [pixDecCommand_of_not_depthOk hd]
    rfl
  · rintro (hb | hb)
    · rw [pixDecCommand_of_24 hb, if_pos hb]
      rfl
    · rw [pixDecCommand_of_32 hb, if_neg (by simp [hb])]
      rfl

/-! The checks of DECODE (41_decode.md R140) -/

theorem decodeFrame_of_geometry_error (h : decodeGeometry o = .error e) (m : Memory) :
    decodeFrame o m = .error e := by
  rw [decodeFrame, decodeChecked_of_geometry_error h]
  rfl

/-- The frame of a decode whose checks pass with `N`, `W` and `H`. -/
def decodeFrameOf (o : OperandRegs) (N W H : Nat) (m : Memory) : Frame :=
  { src := decodeSrc o (decodeGeometryOf o N W H), dst := decodeDst o (decodeGeometryOf o N W H)
    uses := decodeUses o (decodeGeometryOf o N W H), writes := decodeWrites o (decodeGeometryOf o N W H) m
    result := decodeResult (decodeGeometryOf o N W H) }

/-- The checks of DECODE in order, once the geometry stands. -/
theorem decodeFrame_of_shape (hs : DecodeShape o N W H) (m : Memory) :
    decodeFrame o m =
      if o.srcLen.toNat < o.dataOffset.toNat + rowBytes W N * H then .error .truncatedData
      else if o.dstLen.toNat < W * H * 4 then .error .dstTooSmall
      else if 2 ^ 32 < pixelArray o + rowBytes W N * H ∨ 2 ^ 32 < o.dstBase.toNat + W * H * 4 then
        .error .addressRange
      else if (decodeSrc o (decodeGeometryOf o N W H)).meets (decodeDst o (decodeGeometryOf o N W H)) then
        .error .overlap
      else .ok (decodeFrameOf o N W H m) := by
  rw [decodeFrame, decodeChecked_of_shape hs, pixelArray, Nat.add_assoc]
  split <;> rfl

/-- Windows that start before each other's end meet, since an image is not empty. -/
theorem DecodeShape.windows_meet (hs : DecodeShape o N W H)
    (hsrc : pixelArray o < o.dstBase.toNat + W * H * 4) (hdst : o.dstBase.toNat < pixelArray o + rowBytes W N * H) :
    (decodeSrc o (decodeGeometryOf o N W H)).meets (decodeDst o (decodeGeometryOf o N W H)) = true := by
  have hsizes := hs.sizes
  simp only [Window.meets_iff, decodeSrc, decodeDst, decodeGeometryOf, pixelArray, u32] at *
  omega

theorem exec_decode_of_error (hp : s.phase = .busy w) (h : decodeFrame w.ops s.mem = .error e) :
    exec .decode s = .next { s with errcode := some e, err := true, phase := .idle } := by
  have hexec : exec .decode s = finishFrame s (decodeFrame w.ops s.mem) := withCommand_busy hp _
  rw [hexec, h]
  rfl

/-- Settles O29: the geometry's errors come first, then the four checks of `decodeFrame_of_shape`. -/
theorem decodeChecksInOrder : Obligations.DecodeChecksInOrder := by
  intro s w hp
  refine ⟨fun hd => exec_decode_of_error hp ?depth, fun hd hb => exec_decode_of_error hp ?dims, fun N W H hs =>
    ⟨fun ht => exec_decode_of_error hp ?truncated, fun ht => ⟨fun hl => exec_decode_of_error hp ?dstTooSmall, fun hl =>
      ⟨fun hr => exec_decode_of_error hp ?addressRange, fun hr1 hr2 h1 h2 => exec_decode_of_error hp ?overlap⟩⟩⟩⟩
  case depth => exact decodeFrame_of_geometry_error (decodeGeometry_of_not_depthOk hd) _
  case dims => exact decodeFrame_of_geometry_error (decodeGeometry_of_dimsBad hd hb) _
  case truncated => rw [decodeFrame_of_shape hs, if_pos ht]
  case dstTooSmall => rw [decodeFrame_of_shape hs, if_neg (Nat.not_lt_of_le ht), if_pos hl]
  case addressRange =>
    rw [decodeFrame_of_shape hs, if_neg (Nat.not_lt_of_le ht), if_neg (Nat.not_lt_of_le hl), if_pos hr]
  case overlap =>
    rw [decodeFrame_of_shape hs, if_neg (Nat.not_lt_of_le ht), if_neg (Nat.not_lt_of_le hl),
      if_neg (not_or.mpr ⟨Nat.not_lt_of_le hr1, Nat.not_lt_of_le hr2⟩), if_pos (hs.windows_meet h1 h2)]

end Sys2Proof.Machine
end

section
/-! PROOFS. What a completed frame command leaves in memory: its source window, and after a success the bytes it writes; so
that a decode gives back the pixels of an encode (41_decode.md R140 to R143, 42_encode.md R170, 95_test_vectors.md W1). -/

namespace Sys2Proof.Machine

variable {s t : State} {o : OperandRegs} {m m' : Memory} {f : Frame} {w : WorkingCopy} {i : Instr} {a N W H y x k : Nat}

/-- The frame of a frame command, once its checks have passed. -/
def FrameOf (i : Instr) (o : OperandRegs) (m : Memory) (f : Frame) : Prop :=
  i = .decode ∧ decodeFrame o m = .ok f ∨ i = .encode ∧ encodeFrame o m = .ok f

theorem frameOf_decode : FrameOf .decode o m f ↔ decodeFrame o m = .ok f := by simp [FrameOf]

theorem frameOf_encode : FrameOf .encode o m f ↔ encodeFrame o m = .ok f := by simp [FrameOf]

/-! The source window (41_decode.md R143) -/

/-- A completion leaves the bytes of its frame's source window: no write of the frame, whether all of them were made or
some, lies in it. -/
theorem Completion.memRead_source (h : Completion i s w t)
    (hsrc : ∀ f, FrameOf i w.ops s.mem f → f.dst.lo < f.dst.hi ∧ f.src.has a = true) :
    memRead t.mem a = memRead s.mem a := by
  cases h with
  | results | pixel | error => rfl
  | frame f x y z hi hf =>
    obtain ⟨hne, ha⟩ := hsrc f hi
    exact writes_keep_source hf hne ha fun _ => id
  | bus f hi hf =>
    obtain ⟨hne, ha⟩ := hsrc f hi
    exact writes_keep_source hf hne ha fun _ => List.mem_of_mem_filter

theorem exec_completion (hp : s.phase = .busy w) (h : exec i s = .next t) : Completion i s w t := by
  obtain ⟨w', hp', hc⟩ := exec_next h
  cases hp.symm.trans hp'
  exact hc

theorem decodeFrame_eq_of_shape (hs : DecodeShape o N W H) (h : decodeFrame o m = .ok f) :
    f = decodeFrameOf o N W H m := by
  obtain ⟨_, _, _, hs', -, -, -, hf, -⟩ := decodeFrame_ok h
  rwa [Except.ok.inj ((decodeGeometry_of_shape hs').symm.trans (decodeGeometry_of_shape hs))] at hf

/-- The frame of an encode whose checks pass with `W` and `H`. -/
def encodeFrameOf (o : OperandRegs) (W H : Nat) (m : Memory) : Frame :=
  { src := encodeSrc o (encodeGeometryOf W H), dst := encodeDst o (encodeGeometryOf W H)
    uses := encodeUses o (encodeGeometryOf W H), writes := encodeWrites o (encodeGeometryOf W H) m
    result := encodeResult (encodeGeometryOf W H) }

theorem encodeFrame_eq_of_shape (hs : EncodeShape o W H) (h : encodeFrame o m = .ok f) :
    f = encodeFrameOf o W H m := by
  obtain ⟨_, _, hs', -, -, -, -, hf, -⟩ := encodeFrame_ok h
  rwa [Except.ok.inj ((encodeGeometry_of_shape hs').symm.trans (encodeGeometry_of_shape hs))] at hf

theorem DecodeShape.dst_nonempty (hs : DecodeShape o N W H) :
    (decodeDst o (decodeGeometryOf o N W H)).lo < (decodeDst o (decodeGeometryOf o N W H)).hi :=
  Nat.lt_add_of_pos_right (Nat.lt_of_lt_of_le (by decide) hs.sizes.2)

theorem EncodeShape.dst_nonempty (hs : EncodeShape o W H) :
    (encodeDst o (encodeGeometryOf W H)).lo < (encodeDst o (encodeGeometryOf W H)).hi :=
  Nat.lt_add_of_pos_right (Nat.lt_of_lt_of_le (by decide) hs.sizes.1)

/-- Settles O38: a frame past its checks has the windows of its shape, and no completion writes in the source window. -/
theorem frameCommandsNeverChangeTheirSource : Obligations.FrameCommandsNeverChangeTheirSource := by
  intro s t w a hp
  refine ⟨fun N W H hs h hlo hhi => ?decode, fun W H hs h hlo hhi => ?encode⟩
  case decode =>
    refine (exec_completion hp h).memRead_source fun f hf => ?_
    obtain rfl := decodeFrame_eq_of_shape hs (frameOf_decode.mp hf)
    exact ⟨hs.dst_nonempty, decodeSrc_has.mpr ⟨hlo, hhi⟩⟩
  case encode =>
    refine (exec_completion hp h).memRead_source fun f hf => ?_
    obtain rfl := encodeFrame_eq_of_shape hs (frameOf_encode.mp hf)
    exact ⟨hs.dst_nonempty, encodeSrc_has.mpr ⟨hlo, hhi⟩⟩

/-! A frame the bus admits (41_decode.md R140 to R142) -/

theorem busFails_eq_false {p : Platform} (hr : ∀ a, f.src.has a = true → p.admits a .read = true)
    (hw : ∀ c ∈ f.writes, p.admits c.1 .write = true) (n : Nat) : f.busFails p n = false := by
  refine Bool.or_eq_false_iff.mpr ⟨List.any_eq_false.mpr fun a ha => ?_, List.any_eq_false.mpr fun c hc => ?_⟩
  · simp [hr a (Window.has_iff.mpr (Window.mem_addrs.mp ha))]
  · simp [hw c hc]

/-- A sound frame written in full: each byte it writes reads as written, and every other byte of memory as it was. -/
theorem Frame.Sound.memRead_writes (hf : f.Sound) (hm : Memory.wf m) :
    (∀ a b, (a, b) ∈ f.writes → memRead (writeCells m f.writes) a = b)
      ∧ ∀ a, f.dst.has a = false → memRead (writeCells m f.writes) a = memRead m a := by
  refine ⟨fun a b hab => memRead_writeCells_mem hm.1 hf.distinct hab, fun a ha => ?_⟩
  refine memRead_writeCells_other fun c hc e => ?_
  have hin : f.dst.has a = true := Window.has_iff.mpr (e ▸ hf.inside c hc)
  simp [ha] at hin

theorem runFrame_success (hd : f.onDevice s.platform = false) (hb : f.busFails s.platform s.freeCount = false) :
    runFrame s f = .next (completeOk (transferAll s f) f.result) := by
  simp only [runFrame, hd, hb, Bool.false_eq_true, if_false]

/-- The bus completes the frame where it admits every access in its windows. -/
theorem DecodePasses.busFails_eq_false (hp : DecodePasses s o N W H) (h : decodeFrame o m = .ok f)
    (hr : BusAdmits s .read (pixelArray o) (pixelArray o + rowBytes W N * H))
    (hw : BusAdmits s .write o.dstBase.toNat (o.dstBase.toNat + W * H * 4)) (n : Nat) :
    f.busFails s.platform n = false := by
  obtain rfl := decodeFrame_eq_of_shape hp.shape h
  refine Machine.busFails_eq_false (fun a ha => ?_) (fun c hc => ?_) n
  · obtain ⟨hlo, hhi⟩ := decodeSrc_has.mp ha
    exact hr a hlo hhi
  · obtain ⟨hlo, hhi⟩ := decodeWrites_inside hp.shape.bytes hc
    exact hw c.1 hlo hhi

/-- Settles O30: a frame that passes every check and that the bus admits is written in full. -/
theorem decodeWritesTheTopDownRgbaBuffer : Obligations.DecodeWritesTheTopDownRgbaBuffer := by
  intro s w N W H hs hw hp hread hwrite
  have hok := decodeFrame_passes hp s.mem
  obtain ⟨hbytes, hout⟩ := (decodeFrame_sound hok).memRead_writes hs.memory
  refine ⟨writeCells s.mem (decodeWrites w.ops (decodeGeometryOf w.ops N W H) s.mem), ?_, fun y hy x hx k hk => ?_,
    fun a ha => hout a (Window.has_false.mpr ha)⟩
  · exact (exec_decode_of_frame hw hok).trans
      (runFrame_success (hp.onDevice_eq_false hok) (hp.busFails_eq_false hok hread hwrite _))
  · exact hbytes _ _ ((mem_decodeWrites hp.shape.bytes).mpr ⟨y, hy, x, hx, k, hk, rfl⟩)

/-! Encode, then decode (95_test_vectors.md W1) -/

/-- A frame command that succeeds has written its frame in full. -/
theorem Completion.frame_of_success (h : Completion i s w t) (hi : i = .decode ∨ i = .encode) (ht : t.errcode = none) :
    ∃ f, FrameOf i w.ops s.mem f ∧ f.Sound ∧ t.mem = writeCells s.mem f.writes := by
  cases h with
  | results _ _ _ h => exact absurd hi (by simp [h])
  | pixel _ h => rcases hi with rfl | rfl <;> simp at h
  | error | bus => simp at ht
  | frame f _ _ _ hf hsound => exact ⟨f, hf, hsound, rfl⟩

/-- The destination bytes of a decode that succeeds. -/
theorem decode_success_bytes (hm : Memory.wf s.mem) (hp : s.phase = .busy w) (hs : DecodeShape w.ops N W H)
    (h : exec .decode s = .next t) (ht : t.errcode = none) (hy : y < H) (hx : x < W) (hk : k < 4) :
    memRead t.mem (w.ops.dstBase.toNat + (y * W + x) * 4 + k) = decodedByte s.mem w.ops N W H y x k := by
  obtain ⟨f, hf, hsound, hmem⟩ := (exec_completion hp h).frame_of_success (.inl rfl) ht
  obtain rfl := decodeFrame_eq_of_shape hs (frameOf_decode.mp hf)
  rw [hmem]
  exact (hsound.memRead_writes hm).1 _ _ ((mem_decodeWrites hs.bytes).mpr ⟨y, hy, x, hx, k, hk, rfl⟩)

/-- The destination bytes of an encode that succeeds. -/
theorem encode_success_bytes (hm : Memory.wf s.mem) (hp : s.phase = .busy w) (hs : EncodeShape w.ops W H)
    (h : exec .encode s = .next t) (ht : t.errcode = none) {r q : Nat} (hr : r < H) (hq : q < rowBytes W 3) :
    memRead t.mem (w.ops.dstBase.toNat + r * rowBytes W 3 + q) = encodedByte s.mem w.ops W H r q := by
  obtain ⟨f, hf, hsound, hmem⟩ := (exec_completion hp h).frame_of_success (.inr rfl) ht
  obtain rfl := encodeFrame_eq_of_shape hs (frameOf_encode.mp hf)
  rw [hmem]
  exact (hsound.memRead_writes hm).1 _ _ (mem_encodeWrites.mpr ⟨r, hr, q, hq, rfl⟩)

/-- In the file row of source row `y`, component `k` of pixel `x` is stored at `2 - k` of the pixel's 3 bytes. -/
theorem encodedByte_of_pixel (hy : y < H) (hx : x < W) (hk : k < 3) :
    encodedByte m o W H (H - 1 - y) (x * 3 + (2 - k)) = memRead m (o.srcBase.toNat + (y * W + x) * 4 + k) := by
  have hpixel : x * 3 + (2 - k) < 3 * W := by omega
  have hcol : (x * 3 + (2 - k)) / 3 = x := by omega
  have hcomponent : 2 - (x * 3 + (2 - k)) % 3 = k := by omega
  have hrow : H - 1 - (H - 1 - y) = y := by omega
  rw [encodedByte, if_pos hpixel, hcol, hcomponent, hrow]

/-- A bottom-up decode of 3-byte pixels takes back what an encode has laid out in its source window. -/
theorem decodedByte_of_encodedBytes {od oe : OperandRegs} (hbottomUp : ¬ od.height.toInt < 0)
    (hencoded : ∀ r < H, ∀ q < rowBytes W 3,
      memRead m' (pixelArray od + r * rowBytes W 3 + q) = encodedByte m oe W H r q)
    (hy : y < H) (hx : x < W) (hk : k < 3) :
    decodedByte m' od 3 W H y x k = memRead m (oe.srcBase.toNat + (y * W + x) * 4 + k) := by
  have hq : x * 3 + (2 - k) < rowBytes W 3 := Nat.lt_of_lt_of_le (by omega) (le_rowBytes W 3)
  calc decodedByte m' od 3 W H y x k
      = memRead m' (pixelArray od + (H - 1 - y) * rowBytes W 3 + (x * 3 + (2 - k))) := by
        rw [decodedByte, if_pos hk, decodePixelAt, fileRowOf, if_neg hbottomUp, Nat.add_assoc]
    _ = encodedByte m oe W H (H - 1 - y) (x * 3 + (2 - k)) := hencoded _ (by omega) _ hq
    _ = memRead m (oe.srcBase.toNat + (y * W + x) * 4 + k) := encodedByte_of_pixel hy hx hk

theorem decodedByte_alpha_of_24 : decodedByte m o 3 W H y x 3 = 0xFF#8 := rfl

/-- Settles O39: the decode reads the pixel array the encode wrote, whose height is positive and so bottom-up. -/
theorem decodeOfEncodeRestoresThePixels : Obligations.DecodeOfEncodeRestoresThePixels := by
  intro s t u v we wd W H hs hps hpe ht htn hmem hpu _ _ hheight harray hpd hv hvn y hy x hx
  have hwf : Memory.wf u.mem := hmem ▸ (hs.completion hps (exec_completion hps ht)).memory
  have hbytes : ∀ k < 4, memRead v.mem (wd.ops.dstBase.toNat + (y * W + x) * 4 + k)
      = decodedByte u.mem wd.ops 3 W H y x k :=
    fun k => decode_success_bytes hwf hpu hpd.shape hv hvn hy hx
  have hbottomUp : ¬ wd.ops.height.toInt < 0 := by
    rw [hheight, hpe.shape.height]
    omega
  have hencoded : ∀ r < H, ∀ q < rowBytes W 3,
      memRead u.mem (pixelArray wd.ops + r * rowBytes W 3 + q) = encodedByte s.mem we.ops W H r q := by
    rw [hmem, harray]
    exact fun r hr q => encode_success_bytes hs.memory hps hpe.shape ht htn hr
  refine ⟨fun k hk => ?_, ?_⟩
  · rw [hbytes k (Nat.lt_succ_of_lt hk)]
    exact decodedByte_of_encodedBytes hbottomUp hencoded hy hx hk
  · rw [hbytes 3 (by decide)]
    exact decodedByte_alpha_of_24

end Sys2Proof.Machine
end

section
/-! PROOFS. The bytes of a word: taken apart and packed again, and the highest one set (00_scope.md R7). -/

namespace Sys2Proof.Machine

/-- The bytes of a word, packed in order, are the word. -/
theorem packBytes_byteOf (v : Word) : packBytes (byteOf v 0) (byteOf v 1) (byteOf v 2) (byteOf v 3) = v := by
  have hpair : byteOf v 3 ++ byteOf v 2 = v.extractLsb' 16 16 :=
    BitVec.extractLsb'_append_extractLsb'_eq_extractLsb' rfl
  have htriple : v.extractLsb' 16 16 ++ byteOf v 1 = v.extractLsb' 8 24 :=
    BitVec.extractLsb'_append_extractLsb'_eq_extractLsb' rfl
  have hword : v.extractLsb' 8 24 ++ byteOf v 0 = v.extractLsb' 0 32 :=
    BitVec.extractLsb'_append_extractLsb'_eq_extractLsb' rfl
  rw [packBytes, hpair, htriple, hword, BitVec.extractLsb'_eq_self]

section
variable (b0 b1 b2 b3 : Byte)

@[simp] theorem byteOf_packBytes_zero : byteOf (packBytes b0 b1 b2 b3) 0 = b0 :=
  BitVec.extractLsb'_append_eq_right

@[simp] theorem byteOf_packBytes_one : byteOf (packBytes b0 b1 b2 b3) 1 = b1 :=
  (BitVec.extractLsb'_append_eq_of_le (by decide)).trans BitVec.extractLsb'_append_eq_right

@[simp] theorem byteOf_packBytes_two : byteOf (packBytes b0 b1 b2 b3) 2 = b2 :=
  (BitVec.extractLsb'_append_eq_of_le (by decide)).trans
    ((BitVec.extractLsb'_append_eq_of_le (by decide)).trans BitVec.extractLsb'_append_eq_right)

end

theorem byteOf_or (v c : Word) (k : Nat) : byteOf (v ||| c) k = byteOf v k ||| byteOf c k :=
  BitVec.extractLsb'_or

/-- A word with its highest byte set to 0xFF. -/
theorem packBytes_alpha_FF (v : Word) :
    packBytes (byteOf v 0) (byteOf v 1) (byteOf v 2) 0xFF#8 = v ||| 0xFF000000#32 := by
  have hlow : ∀ k < 3, byteOf (v ||| 0xFF000000#32) k = byteOf v k := fun k hk => by
    have hzero : byteOf 0xFF000000#32 k = 0#8 := by
      revert k
      decide
    rw [byteOf_or, hzero, BitVec.or_zero]
  have hhigh : byteOf (v ||| 0xFF000000#32) 3 = 0xFF#8 := (byteOf_or v _ 3).trans BitVec.or_allOnes
  rw [← packBytes_byteOf (v ||| 0xFF000000#32), hlow 0 (by decide), hlow 1 (by decide), hlow 2 (by decide), hhigh]

end Sys2Proof.Machine
end

section
/-! PROOFS. What the encode commands answer: their checks in order, the reports of ENC_CHECK, ROWMAP_ENC and PIX_ENC, and the
pixel array that ENCODE writes (42_encode.md R160 to R171). -/

namespace Sys2Proof.Machine

variable {s : State} {o : OperandRegs} {m : Memory} {f : Frame} {w : WorkingCopy} {e : CmdError} {W H : Nat}

/-! The geometry's errors -/

theorem EncodeShape.not_dimsBad (hs : EncodeShape o W H) : ¬ EncodeDimsBad o := by
  obtain ⟨hw, hw1, hh, hh1⟩ := hs
  unfold EncodeDimsBad
  omega

theorem encodeGeometry_of_dimsBad (hb : EncodeDimsBad o) : encodeGeometry o = .error .badDimension := by
  cases hg : encodeGeometry o with
  | ok g =>
    obtain ⟨W, H, hs, -⟩ := encodeGeometry_ok hg
    exact absurd hb hs.not_dimsBad
  | error e => rw [(encodeGeometry_error hg).1]

theorem encodeChecked_of_dimsBad (hb : EncodeDimsBad o) : encodeChecked o = .error .badDimension := by
  rw [encodeChecked, encodeGeometry_of_dimsBad hb]
  rfl

/-- The two size checks in order, once the geometry stands. -/
theorem encodeChecked_of_shape (hs : EncodeShape o W H) :
    encodeChecked o =
      if o.srcLen.toNat < W * H * 4 then .error .bufferTooSmall
      else if 2 ^ 32 - 1 < 54 + rowBytes W 3 * H then .error .sizeOverflow
      else .ok (encodeGeometryOf W H) := by
  rw [encodeChecked, encodeGeometry_of_shape hs]
  rfl

/-! ENC_CHECK -/

theorem encCheckCommand_of_error (h : encodeChecked o = .error e) : encCheckCommand o = .error e := by
  rw [encCheckCommand, h]
  rfl

theorem encCheckCommand_of_ok {g : EncodeGeometry} (h : encodeChecked o = .ok g) :
    encCheckCommand o = .ok (encodeResult g) := by
  rw [encCheckCommand, h]
  rfl

/-- Settles O26: ENC_CHECK answers as the encode validation does, and reports the sizes of the geometry. -/
theorem encCheckValidatesAndReportsSizes : Obligations.EncCheckValidatesAndReportsSizes := by
  intro s w hp
  have hexec : exec .encCheck s = finish s (encCheckCommand w.ops) := withCommand_busy hp _
  rw [hexec]
  refine ⟨fun hb => ?dims, fun W H hs => ⟨fun hl => ?bufferTooSmall, fun hl hz => ?sizeOverflow, fun hl hz => ?success⟩⟩
  case dims =>
    rw [encCheckCommand_of_error (encodeChecked_of_dimsBad hb)]
    rfl
  case bufferTooSmall =>
    rw [encCheckCommand_of_error ((encodeChecked_of_shape hs).trans (if_pos hl))]
    rfl
  case sizeOverflow =>
    rw [encCheckCommand_of_error ((encodeChecked_of_shape hs).trans ((if_neg (Nat.not_lt_of_le hl)).trans (if_pos hz)))]
    rfl
  case success =>
    rw [encCheckCommand_of_ok
      ((encodeChecked_of_shape hs).trans ((if_neg (Nat.not_lt_of_le hl)).trans (if_neg (Nat.not_lt_of_le hz))))]
    rfl

/-! ROWMAP_ENC -/

theorem rowmapEncCommand_of_dimsBad (hb : EncodeDimsBad o) : rowmapEncCommand o = .error .badDimension := by
  rw [rowmapEncCommand, encodeGeometry_of_dimsBad hb]
  rfl

/-- Settles O27: the geometry is checked first, then the row. -/
theorem rowmapEncReportsWhereARowGoes : Obligations.RowmapEncReportsWhereARowGoes := by
  intro s w hp
  have hexec : exec .rowmapEnc s = finish s (rowmapEncCommand w.ops) := withCommand_busy hp _
  rw [hexec]
  refine ⟨fun hb => ?dims, fun W H hs => ⟨fun hy => ?range, fun hy => ?success⟩⟩
  case dims =>
    rw [rowmapEncCommand_of_dimsBad hb]
    rfl
  case range =>
    rw [rowmapEncCommand_of_shape hs, if_pos hy]
    rfl
  case success =>
    rw [rowmapEncCommand_of_shape hs, if_neg (Nat.not_le_of_lt hy)]
    rfl

/-! PIX_ENC -/

/-- PIX_ENC of a pixel: B, G, R and a zero byte, from byte 0 up. -/
theorem pixEncCommand_eq (o : OperandRegs) :
    pixEncCommand o
      = .ok (.pixel (packBytes (byteOf o.pixIn 2) (byteOf o.pixIn 1) (byteOf o.pixIn 0) 0x00#8)) := rfl

/-- PIX_DEC with BPP = 24 takes the bytes of PIX_ENC's pixel back to their places, with alpha 0xFF. -/
theorem pixDecCommand_of_pixEnc {v : Word} (hb : o.bpp = 24#32)
    (hp : o.pixIn = packBytes (byteOf v 2) (byteOf v 1) (byteOf v 0) 0x00#8) :
    pixDecCommand o = .ok (.pixel (v ||| 0xFF000000#32)) := by
  rw [pixDecCommand_of_24 hb, hp, byteOf_packBytes_zero, byteOf_packBytes_one, byteOf_packBytes_two,
    ← packBytes_alpha_FF]
  rfl

/-- Settles O28: PIX_ENC and PIX_DEC both swap bytes 0 and 2. -/
theorem pixEncReordersOnePixel : Obligations.PixEncReordersOnePixel := by
  intro s w hp
  refine ⟨packBytes (byteOf w.ops.pixIn 2) (byteOf w.ops.pixIn 1) (byteOf w.ops.pixIn 0) 0x00#8, rfl, ?encode,
    fun s' w' hp' hb hin => ?decodeBack⟩
  case encode =>
    have hexec : exec .pixEnc s = finish s (pixEncCommand w.ops) := withCommand_busy hp _
    rw [hexec, pixEncCommand_eq]
    rfl
  case decodeBack =>
    have hexec : exec .pixDec s' = finish s' (pixDecCommand w'.ops) := withCommand_busy hp' _
    rw [hexec, pixDecCommand_of_pixEnc hb hin]
    exact ⟨_, rfl, rfl⟩

/-! The checks of ENCODE (42_encode.md R170) -/

theorem encodeFrame_of_dimsBad (hb : EncodeDimsBad o) (m : Memory) : encodeFrame o m = .error .badDimension := by
  rw [encodeFrame, encodeChecked_of_dimsBad hb]
  rfl

/-- The checks of ENCODE in order, once the geometry stands. -/
theorem encodeFrame_of_shape (hs : EncodeShape o W H) (m : Memory) :
    encodeFrame o m =
      if o.srcLen.toNat < W * H * 4 then .error .bufferTooSmall
      else if 2 ^ 32 - 1 < 54 + rowBytes W 3 * H then .error .sizeOverflow
      else if o.dstLen.toNat < rowBytes W 3 * H then .error .dstTooSmall
      else if 2 ^ 32 < o.srcBase.toNat + W * H * 4 ∨ 2 ^ 32 < o.dstBase.toNat + rowBytes W 3 * H then
        .error .addressRange
      else if (encodeSrc o (encodeGeometryOf W H)).meets (encodeDst o (encodeGeometryOf W H)) then .error .overlap
      else .ok (encodeFrameOf o W H m) := by
  rw [encodeFrame, encodeChecked_of_shape hs]
  split
  · rfl
  · split <;> rfl

/-- Windows that start before each other's end meet, since an image is not empty. -/
theorem EncodeShape.windows_meet (hs : EncodeShape o W H)
    (hsrc : o.srcBase.toNat < o.dstBase.toNat + rowBytes W 3 * H)
    (hdst : o.dstBase.toNat < o.srcBase.toNat + W * H * 4) :
    (encodeSrc o (encodeGeometryOf W H)).meets (encodeDst o (encodeGeometryOf W H)) = true := by
  have hsizes := hs.sizes
  simp only [Window.meets_iff, encodeSrc, encodeDst, encodeGeometryOf, u32]
  omega

theorem exec_encode_of_error (hp : s.phase = .busy w) (h : encodeFrame w.ops s.mem = .error e) :
    exec .encode s = .next { s with errcode := some e, err := true, phase := .idle } := by
  have hexec : exec .encode s = finishFrame s (encodeFrame w.ops s.mem) := withCommand_busy hp _
  rw [hexec, h]
  rfl

/-- Settles O32: the geometry's error comes first, then the five checks of `encodeFrame_of_shape`. -/
theorem encodeChecksInOrder : Obligations.EncodeChecksInOrder := by
  intro s w hp
  refine ⟨fun hb => exec_encode_of_error hp (encodeFrame_of_dimsBad hb _), fun W H hs => ?_⟩
  have hframe := encodeFrame_of_shape hs s.mem
  refine ⟨fun hb => exec_encode_of_error hp ?bufferTooSmall, fun hb => ?_⟩
  case bufferTooSmall => rw [hframe, if_pos hb]
  rw [if_neg (Nat.not_lt_of_le hb)] at hframe
  refine ⟨fun hz => exec_encode_of_error hp ?sizeOverflow, fun hz => ?_⟩
  case sizeOverflow => rw [hframe, if_pos hz]
  rw [if_neg (Nat.not_lt_of_le hz)] at hframe
  refine ⟨fun hl => exec_encode_of_error hp ?dstTooSmall, fun hl => ?_⟩
  case dstTooSmall => rw [hframe, if_pos hl]
  rw [if_neg (Nat.not_lt_of_le hl)] at hframe
  refine ⟨fun hr => exec_encode_of_error hp ?addressRange, fun hr1 hr2 h1 h2 => exec_encode_of_error hp ?overlap⟩
  case addressRange => rw [hframe, if_pos hr]
  case overlap =>
    rw [hframe, if_neg (not_or.mpr ⟨Nat.not_lt_of_le hr1, Nat.not_lt_of_le hr2⟩), if_pos (hs.windows_meet h1 h2)]

/-! A frame the bus admits (42_encode.md R170, R171) -/

/-- The bus completes the frame where it admits every access in its windows. -/
theorem EncodePasses.busFails_eq_false (hp : EncodePasses s o W H) (h : encodeFrame o m = .ok f)
    (hr : BusAdmits s .read o.srcBase.toNat (o.srcBase.toNat + W * H * 4))
    (hw : BusAdmits s .write o.dstBase.toNat (o.dstBase.toNat + rowBytes W 3 * H)) (n : Nat) :
    f.busFails s.platform n = false := by
  obtain rfl := encodeFrame_eq_of_shape hp.shape h
  refine Machine.busFails_eq_false (fun a ha => ?_) (fun c hc => ?_) n
  · obtain ⟨hlo, hhi⟩ := encodeSrc_has.mp ha
    exact hr a hlo hhi
  · obtain ⟨hlo, hhi⟩ := encodeWrites_inside hc
    exact hw c.1 hlo hhi

/-- Settles O33: a frame that passes every check and that the bus admits is written in full. -/
theorem encodeWritesTheBottomUpPixelArray : Obligations.EncodeWritesTheBottomUpPixelArray := by
  intro s w W H hs hw hp hread hwrite
  have hok := encodeFrame_passes hp s.mem
  obtain ⟨hbytes, hout⟩ := (encodeFrame_sound hok).memRead_writes hs.memory
  refine ⟨writeCells s.mem (encodeWrites w.ops (encodeGeometryOf W H) s.mem), ?_, fun r hr q hq => ?_,
    fun a ha => hout a (Window.has_false.mpr ha)⟩
  · exact (exec_encode_of_frame hw hok).trans
      (runFrame_success (hp.onDevice_eq_false hok) (hp.busFails_eq_false hok hread hwrite _))
  · exact hbytes _ _ (mem_encodeWrites.mpr ⟨r, hr, q, hq, rfl⟩)

end Sys2Proof.Machine
end

section
/-! PROOFS. The header of an encoded file: a run of bytes written to memory reads back, and so do the fields the host loads
(20_memory.md R63, R68, 42_encode.md R172, 60_exceptions.md R207). -/

namespace Sys2Proof.Machine

variable {m : Memory} {a k : Nat} {bs : List Byte}

/-! A run of bytes written, then read -/

theorem memRead_writeCells_cellsAt (hm : Memory.wf m) (hk : k < bs.length) :
    memRead (writeCells m (cellsAt a bs)) (a + k) = bs.getD k 0#8 :=
  memRead_writeCells_mem hm.1 (cellsAt_distinct bs) ((mem_cellsAt 0#8).mpr ⟨k, hk, rfl⟩)

theorem memRead_writeCells_cellsAt_outside {a' : Nat} (h : a' < a ∨ a + bs.length ≤ a') :
    memRead (writeCells m (cellsAt a bs)) a' = memRead m a' := by
  refine memRead_writeCells_other fun c hc => ?_
  obtain ⟨k, hk, rfl⟩ := (mem_cellsAt 0#8).mp hc
  simp only
  omega

/-- A u32 field of a run of bytes, once the run is written. -/
theorem readWord_writeCells_cellsAt (hm : Memory.wf m) (hk : k + 4 ≤ bs.length) {v : Word}
    (hv : (bs.drop k).take 4 = leWord v) : readWord (writeCells m (cellsAt a bs)) (a + k) = v := by
  have hbyte : ∀ i < 4, memRead (writeCells m (cellsAt a bs)) (a + k + i) = (leWord v).getD i 0#8 := fun i hi => by
    rw [Nat.add_assoc, memRead_writeCells_cellsAt hm (by omega), ← hv]
    simp [List.getD_eq_getElem?_getD, hi]
  have hfirst : memRead (writeCells m (cellsAt a bs)) (a + k) = byteOf v 0 := hbyte 0 (by decide)
  rw [readWord, hfirst, hbyte 1 (by decide), hbyte 2 (by decide), hbyte 3 (by decide)]
  exact packBytes_byteOf v

/-! The header -/

theorem length_fileHeader (width height imageSize fileSize : Word) :
    (fileHeader width height imageSize fileSize).length = 54 := by
  simp [fileHeader, leWord, leHalf]

/-- The byte and u16 fields the host reads (20_memory.md R68): the magic number and the bits per pixel. -/
theorem fileHeader_bytes (width height imageSize fileSize : Word) :
    let h := fileHeader width height imageSize fileSize
    h.getD 0 0#8 = 0x42#8 ∧ h.getD 1 0#8 = 0x4D#8 ∧ h.getD 28 0#8 = 24#8 ∧ h.getD 29 0#8 = 0#8 := by
  simp [fileHeader, leWord, leHalf]

/-- The u32 fields the host reads (20_memory.md R68): the data offset, the size of the DIB header, the width, the height and
the compression. -/
theorem fileHeader_words (width height imageSize fileSize : Word) :
    let h := fileHeader width height imageSize fileSize
    (h.drop 10).take 4 = leWord 54#32 ∧ (h.drop 14).take 4 = leWord 40#32 ∧ (h.drop 18).take 4 = leWord width
      ∧ (h.drop 22).take 4 = leWord height ∧ (h.drop 30).take 4 = leWord 0#32 := by
  simp [fileHeader, leWord, leHalf]

/-- Settles O52: each field lies in the header at the offset the host reads it from. -/
theorem writtenHeaderLoadsBack : Obligations.WrittenHeaderLoadsBack := by
  intro m file len width height imageSize fileSize o hm hlen m'
  have hlength := length_fileHeader width height imageSize fileSize
  have hbyte : ∀ {k b}, k < 54 → (fileHeader width height imageSize fileSize).getD k 0#8 = b →
      memRead m' (file + k) = b :=
    fun hk hb => (memRead_writeCells_cellsAt hm (hlength ▸ hk)).trans hb
  have hword : ∀ {k v}, k + 4 ≤ 54 → ((fileHeader width height imageSize fileSize).drop k).take 4 = leWord v →
      readWord m' (file + k) = v :=
    fun hk hv => readWord_writeCells_cellsAt hm (hlength ▸ hk) hv
  obtain ⟨hb0, hb1, hb28, hb29⟩ := fileHeader_bytes width height imageSize fileSize
  obtain ⟨hw10, hw14, hw18, hw22, hw30⟩ := fileHeader_words width height imageSize fileSize
  have hmagic : memRead m' file = 0x42#8 := hbyte (k := 0) (by decide) hb0
  have hbpp : readHalf m' (file + 28) = 24#16 := by
    rw [readHalf, Nat.add_assoc, hbyte (by decide) hb28, hbyte (by decide) hb29]
    rfl
  refine ⟨?checks, ?loads, fun a ha => memRead_writeCells_cellsAt_outside (by rwa [hlength])⟩
  case checks =>
    simp [hostChecks, Config.headerBytes, Nat.not_lt_of_le hlen, hmagic, hbyte (by decide) hb1,
      hword (by decide) hw14, hword (by decide) hw30]
  case loads =>
    simp [hostLoads, hbpp, hword (by decide) hw10, hword (by decide) hw18, hword (by decide) hw22]

end Sys2Proof.Machine
end

section
/-! PROOFS. How a command ends: what every completion leaves and the errors it can raise, the interrupt, and the order of CMD
writes, completions and resets (60_exceptions.md R191 to R200). -/

namespace Sys2Proof.Machine

variable {s t : State} {f : Frame} {w : WorkingCopy} {i : Instr} {x : CmdError} {a : Nat} {rest : List Event}

/-! What every completion leaves (60_exceptions.md R195 to R197) -/

/-- The registers after a completion, of a command or of an illegal word: a success or an error is reported, an error leaves
the results, and whatever is neither status nor result stays. -/
structure Completed (s t : State) : Prop where
  phase : t.phase = .idle
  ops : t.ops = s.ops
  ie : t.ie = s.ie
  ovr : t.ovr = s.ovr
  hostCache : t.hostCache = s.hostCache
  platform : t.platform = s.platform
  schedule : t.schedule = s.schedule
  lastRead : t.lastRead = s.lastRead
  status : t.errcode = none ∧ t.done = true ∧ t.err = s.err
    ∨ ∃ e, t.errcode = some e ∧ t.err = true ∧ t.done = s.done ∧ t.pixOut = s.pixOut ∧ t.result0 = s.result0
      ∧ t.result1 = s.result1 ∧ t.result2 = s.result2

theorem completed_completeOk (s : State) (r : CmdResult) : Completed s (completeOk s r) := by
  constructor <;> simp

theorem completed_completeError (s : State) (e : CmdError) : Completed s (completeError s e) := by
  constructor <;> simp

theorem Completion.completed (h : Completion i s w t) : Completed s t := by
  cases h with
  | results | pixel => exact completed_completeOk s _
  | error => exact completed_completeError s _
  -- a transfer changes memory and the model's counter alone
  | frame f x y z => exact { completed_completeOk (transferAll s f) (.results x y z) with }
  | bus f => exact { completed_completeError (transferPart s f) .busError with }

/-- The block's turn while a command runs completes it. -/
theorem EventEffect.completed (h : EventEffect s .blockStep t) (hp : s.phase = .busy w) : Completed s t := by
  cases h with
  | idleTurn hidle => simp [hidle] at hp
  | completion _ _ _ _ hc => exact hc.completed
  | badCommand => exact completed_completeError s _

/-- A sound frame's writes, all or some of them, leave every byte outside its destination window. -/
theorem Frame.Sound.memRead_outside {m : Memory} (hf : f.Sound) (ha : f.dst.has a = false) {cs : List Host.Cell}
    (hcs : cs ⊆ f.writes) : memRead (writeCells m cs) a = memRead m a := by
  refine memRead_writeCells_other fun c hc e => ?_
  have hin : f.dst.has a = true := Window.has_iff.mpr (e ▸ hf.inside c (hcs hc))
  simp [ha] at hin

/-- A completion changes no byte of memory outside its frame's destination window. -/
theorem Completion.memRead_outside (h : Completion i s w t) (hdst : ∀ f, FrameOf i w.ops s.mem f → f.dst.has a = false) :
    memRead t.mem a = memRead s.mem a := by
  cases h with
  | results | pixel | error => rfl
  | frame f _ _ _ hi hf => exact hf.memRead_outside (hdst f hi) (List.Subset.refl _)
  | bus f hi hf => exact hf.memRead_outside (hdst f hi) (List.filter_subset_self _)

/-- Settles O40: the registers by the kinds of completion, memory by the destination window of the shape. -/
theorem completionWritesOnlyResultAndStatus : Obligations.CompletionWritesOnlyResultAndStatus := by
  intro i s t h
  obtain ⟨w, hp, hc⟩ := exec_next h
  obtain ⟨hphase, hops, hie, hovr, hcache, hplat, hsched, hlast, hstatus⟩ := hc.completed
  refine ⟨hphase, hops, hie, hovr, hcache, hplat, hsched, hlast, hstatus,
    fun hd he => (onlyFrameCommandsTouchMemory i s hd he).1 t h, fun w' a hp' => ?_⟩
  cases hp.symm.trans hp'
  refine ⟨?decode, ?encode⟩
  case decode =>
    rintro rfl ha
    refine hc.memRead_outside fun f hf => ?_
    obtain ⟨N, W, H, hs, -, -, -, rfl, -⟩ := decodeFrame_ok (frameOf_decode.mp hf)
    exact Window.has_false.mpr (ha N W H hs)
  case encode =>
    rintro rfl ha
    refine hc.memRead_outside fun f hf => ?_
    obtain ⟨W, H, hs, -, -, -, -, rfl, -⟩ := encodeFrame_ok (frameOf_encode.mp hf)
    exact Window.has_false.mpr (ha W H hs)

/-! The errors of a completion (60_exceptions.md R191, R196) -/

/-- Settles O41: the one completion that writes memory and reports an error is the BusError. -/
theorem errorsBeforeTheTransferLeaveMemory : Obligations.ErrorsBeforeTheTransferLeaveMemory := by
  intro i s t e h ht hne
  obtain ⟨w, -, hc⟩ := exec_next h
  cases hc with
  | results | pixel | frame => simp at ht
  | error => rfl
  | bus => exact absurd (Option.some.inj ht).symm hne

/-- A completion raises an error of the block, and BadCommand is no command's. -/
theorem Completion.raisedByBlock_errcode (h : Completion i s w t) (ht : t.errcode = some x) :
    raisedByBlock x = true ∧ x ≠ .badCommand := by
  cases h with
  | results | pixel | frame => simp at ht
  | error e he =>
    obtain rfl : e = x := Option.some.inj ht
    exact ⟨he.1, he.2.1⟩
  | bus =>
    obtain rfl : CmdError.busError = x := Option.some.inj ht
    exact ⟨rfl, by decide⟩

/-- The codes of the errors the block raises for a legal word. -/
theorem errorCode_mem_of_raisedByBlock (hr : raisedByBlock x = true) (hne : x ≠ .badCommand) :
    errorCode x ∈ [0x05#8, 0x06#8, 0x07#8, 0x10#8, 0x11#8, 0x12#8, 0x13#8, 0x14#8, 0x15#8, 0x17#8] := by
  cases x <;> revert hr hne <;> decide

/-- Settles O44: ERRCODE is 0x00 after a success, and the code of an error of the block otherwise. -/
theorem commandsRaiseOnlyTheBlocksErrors : Obligations.CommandsRaiseOnlyTheBlocksErrors := by
  intro i s t h
  obtain ⟨w, -, hc⟩ := exec_next h
  cases ht : t.errcode with
  | none => exact List.mem_cons_self
  | some e =>
    obtain ⟨hr, hne⟩ := hc.raisedByBlock_errcode ht
    exact List.mem_cons_of_mem _ (errorCode_mem_of_raisedByBlock hr hne)

/-- Settles O58: bits 15:8 of the word read are the ERRCODE field, whose value is that of the code table. -/
theorem errcodeShowsTheCodeOfEachError : Obligations.ErrcodeShowsTheCodeOfEachError := by
  intro s rest h
  obtain ⟨-, -, -, -, hcode⟩ := statusWord_fields s
  refine ⟨statusWord s, step_regRead h (by decide) (by decide), ?_⟩
  rw [hcode]
  and_intros <;> exact fun he => congrArg errcodeField he

/-! The interrupt (60_exceptions.md R200) -/

theorem irq_eq_true : irq s = true ↔ s.ie = true ∧ (s.done = true ∨ s.err = true) := by
  simp [irq]

theorem irq_of_status_clear (hd : s.done = false) (he : s.err = false) : irq s = false := by
  simp [irq, hd, he]

theorem irq_of_ie_clear (h : s.ie = false) : irq s = false := by
  simp [irq, h]

/-- A completion sets DONE or ERR, so that IRQ follows IE. -/
theorem Completed.irq_eq (h : Completed s t) : irq t = s.ie := by
  rw [irq, h.ie]
  rcases h.status with ⟨-, hdone, -⟩ | ⟨_, -, herr, -⟩
  · simp [hdone]
  · simp [herr]

/-- IRQ follows IE after a step that is the block's turn, scheduled or not, while a command runs. -/
theorem irq_of_completion (hp : s.phase = .busy w) (hs : s.schedule = [] ∨ ∃ rest, s.schedule = .blockStep :: rest)
    (h : step s = .next t) : irq t = s.ie := by
  rcases hs with hs | ⟨rest, hs⟩
  · exact ((eventEffect_of_blockTurn (step_of_unscheduled hs ▸ h)).completed hp).irq_eq
  · have he : EventEffect { s with schedule := rest } .blockStep t :=
      eventEffect_of_runEvent (step_of_scheduled hs ▸ h)
    exact (he.completed (w := w) hp).irq_eq

/-- A reset always goes on, to the reset registers of a state with the rest of the schedule. -/
theorem step_reset (h : s.schedule = .reset :: rest) :
    ∃ u, u.schedule = rest ∧ step s = .next (resetRegisters u) := by
  rw [step_of_scheduled h]
  rcases applyReset_eq { s with schedule := rest } with ⟨-, hr⟩ | ⟨f, -, hr⟩
  · exact ⟨_, rfl, hr⟩
  · exact ⟨_, rfl, hr⟩

theorem eq_writeOffset_of_step {offset : Nat} {v : Word}
    (h : s.schedule = .regWrite (s.platform.blockBase + offset) .word v :: rest) (ho : offset < 0x80)
    (h4 : offset % 4 = 0) (ht : step s = .next t) : t = writeOffset { s with schedule := rest } offset v :=
  Host.Outcome.next.inj (ht.symm.trans (step_regWrite h ho h4))

/-- Settles O17, event by event: each leaves IE, DONE and ERR as its operation says. -/
theorem irqRisesAtCompletionAndFallsWhenCleared : Obligations.IrqRisesAtCompletionAndFallsWhenCleared := by
  intro s hs
  refine ⟨irq_eq_true, fun w hp => ?busy, fun v rest t h hd he ht => ?status, fun c rest t h hp ht => ?accept,
    fun rest t h ht => ?reset, fun v rest t h hv ht => ?ctrl, fun v => rfl⟩
  case busy =>
    obtain ⟨hdone, herr⟩ := hs.clearWhileBusy w hp
    exact ⟨irq_of_status_clear hdone herr, fun hsched t ht => irq_of_completion hp hsched ht⟩
  case status =>
    obtain rfl : t = writeStatus { s with schedule := rest } v :=
      eq_writeOffset_of_step h (by decide) (by decide) ht
    exact ⟨irq_of_status_clear (by simp [hd]) (by simp [he]), rfl⟩
  case accept =>
    obtain rfl : t = acceptCommand { s with schedule := rest } c :=
      eq_writeOffset_of_step h (by decide) (by decide) ht
    rw [acceptCommand_idle (s := { s with schedule := rest }) hp]
    exact irq_of_status_clear rfl rfl
  case reset =>
    obtain ⟨u, -, hu⟩ := step_reset h
    obtain rfl := Host.Outcome.next.inj (hu.symm.trans ht)
    exact irq_of_status_clear rfl rfl
  case ctrl =>
    obtain rfl : t = writeCtrl { s with schedule := rest } v :=
      eq_writeOffset_of_step h (by decide) (by decide) ht
    exact ⟨irq_of_ie_clear hv, rfl, rfl⟩

/-! The order of events (60_exceptions.md R194) -/

theorem blockTurn_idle (hp : s.phase = .idle) : blockTurn s = .next s := by
  simp only [blockTurn, hp]

/-- Settles O59: a CMD write meets the command or finds it completed, and a turn after a reset finds the block IDLE. -/
theorem sequenceOrdersCommandsCompletionsAndResets : Obligations.SequenceOrdersCommandsCompletionsAndResets := by
  intro s w c rest hp
  refine ⟨fun h => ?before, fun h t ht => ?after, fun h => ?reset⟩
  case before =>
    obtain ⟨-, hbusy⟩ := (cmdWriteIsAcceptedOrDropped s).1 c rest h
    exact hbusy w hp
  case after =>
    have he : EventEffect { s with schedule := .regWrite (s.platform.blockBase + 0x04) .word c :: rest } .blockStep t :=
      eventEffect_of_runEvent (step_of_scheduled h ▸ ht)
    obtain ⟨hphase, hops, -, hovr, -, hplat, hsched, -, -⟩ := he.completed (w := w) hp
    obtain ⟨hidle, -⟩ := (cmdWriteIsAcceptedOrDropped t).1 c rest (by rw [hsched, hplat])
    exact ⟨_, hidle hphase, congrArg (fun o => Phase.busy ⟨c, o⟩) hops, hovr, rfl, rfl⟩
  case reset =>
    obtain ⟨u, hsched, hu⟩ := step_reset h
    refine ⟨resetRegisters u, hu, rfl, rfl, rfl, ?_⟩
    rw [step_of_scheduled (s := resetRegisters u) hsched]
    exact blockTurn_idle (s := { resetRegisters u with schedule := rest }) rfl

end Sys2Proof.Machine
end

section
/-! PROOFS. Reset: the registers it sets, the memory it leaves, the frame command it abandons, and what the commands
answer to the operands it gives (70_reset_and_hazards.md R220 to R225). -/

namespace Sys2Proof.Machine

variable {s : State} {f : Frame} {w : WorkingCopy} {i : Instr}

/-! The registers (R220) -/

/-- Settles O6: a reset always goes on, and each register but ID reads 0 in the reset registers. -/
theorem resetInputSetsEveryRegister : Obligations.ResetInputSetsEveryRegister := by
  intro s rest h
  obtain ⟨u, hsched, hu⟩ := step_reset h
  exact ⟨_, hu, rfl, fun r hr => readReg_resetRegisters u hr, rfl, irq_of_ie_clear rfl, hsched⟩

/-! The frame command in progress (R221, R222) -/

theorem toOption_eq_some {α : Type} {x : Except CmdError α} {y : α} : x.toOption = some y ↔ x = .ok y := by
  cases x <;> simp [Except.toOption]

/-- A command in progress has a frame when its word is DECODE's or ENCODE's and its checks pass. -/
theorem runningFrame_eq_some (hp : s.phase = .busy w) :
    runningFrame s = some f ↔ w.cmd = 3#32 ∧ decodeFrame w.ops s.mem = .ok f
      ∨ w.cmd = 5#32 ∧ encodeFrame w.ops s.mem = .ok f := by
  have hword : ∀ i, decode w.cmd = .instr i ↔ w.cmd = encode i := fun _ => decode_eq_instr
  simp only [runningFrame, hp]
  cases hd : decode w.cmd with
  | illegal why =>
    have h3 : w.cmd ≠ 3#32 := fun h => by simpa [hd] using (hword .decode).mpr h
    have h5 : w.cmd ≠ 5#32 := fun h => by simpa [hd] using (hword .encode).mpr h
    simp [Decoded.toOption, h3, h5]
  | instr i =>
    rw [(hword i).mp hd]
    cases i <;> simp [Decoded.toOption, encode, opcode, CmdWord.bits, toOption_eq_some]

theorem runningFrame_eq_none
    (h : ∀ w f, s.phase = .busy w → ¬ (w.cmd = 3#32 ∧ decodeFrame w.ops s.mem = .ok f)
      ∧ ¬ (w.cmd = 5#32 ∧ encodeFrame w.ops s.mem = .ok f)) : runningFrame s = none := by
  cases hp : s.phase with
  | idle => simp only [runningFrame, hp]
  | busy w =>
    refine Option.eq_none_iff_forall_ne_some.mpr fun f hf => ?_
    exact not_or.mpr (h w f hp) ((runningFrame_eq_some hp).mp hf)

theorem applyReset_of_no_frame (h : runningFrame s = none) : applyReset s = .next (resetRegisters s) := by
  simp only [applyReset, h]

theorem applyReset_of_frame (h : runningFrame s = some f) :
    applyReset s = .next (resetRegisters (abandonTransfer s f)) := by
  simp only [applyReset, h]

/-- Settles O9: with no frame in progress a reset sets registers alone. -/
theorem resetOtherwiseLeavesMemory : Obligations.ResetOtherwiseLeavesMemory := by
  intro s rest h hno
  have hframe : runningFrame { s with schedule := rest } = none := runningFrame_eq_none hno
  exact ⟨_, (step_of_scheduled h).trans (applyReset_of_no_frame hframe), rfl⟩

/-- Where the windows are ordinary memory, each byte after an abandoned transfer is old or new. -/
theorem abandonedWrites_old_or_new {m : Memory} {p : Platform} (hm : Memory.wf m) (hf : f.Sound)
    (hd : ∀ a, f.src.has a = true ∨ f.dst.has a = true → p.isDevice a = false) (n a : Nat) :
    memRead (writeCells m (f.abandonedWrites p n)) a = memRead m a
      ∨ memRead (writeCells m (f.abandonedWrites p n)) a = memRead (writeCells m f.writes) a := by
  rw [abandonedWrites_ordinary (onDevice_false hd)]
  exact partialWrites_old_or_new hm hf n a

/-- Settles O8: a reset abandons the frame's transfer, then sets every register. -/
theorem resetDuringAFrameCommandAbandonsIt : Obligations.ResetDuringAFrameCommandAbandonsIt := by
  intro s w f rest hs hp h hf
  have hframe : runningFrame { s with schedule := rest } = some f := (runningFrame_eq_some hp).mpr hf
  have hsound : f.Sound := runningFrame_sound hframe
  exact ⟨_, (step_of_scheduled h).trans (applyReset_of_frame hframe), rfl, rfl, rfl, rfl, rfl, rfl, rfl, rfl,
    abandonedWrites_outside hsound _ _, fun hd => abandonedWrites_old_or_new hs.memory hsound hd _⟩

/-! The operands of reset (R225) -/

/-- BPP and the dimensions are 0 at reset, so every command but PIX_ENC fails its depth or its width check. -/
theorem exec_of_reset_operands {c : Word} (hp : s.phase = .busy ⟨c, OperandRegs.reset⟩) (hi : i ≠ .pixEnc) :
    ∃ e, exec i s = .next (completeError s e) ∧ (e = .badDimension ∨ e = .unsupportedBitDepth) := by
  cases i with
  | pixEnc => exact absurd rfl hi
  | encCheck | encode | rowmapEnc => exact ⟨.badDimension, (withCommand_busy hp _).trans rfl, .inl rfl⟩
  | stride | decCheck | decode | rowmapDec | pixDec =>
    exact ⟨.unsupportedBitDepth, (withCommand_busy hp _).trans rfl, .inr rfl⟩

/-- PIX_ENC has no check to fail. -/
theorem exec_pixEnc_completes (hp : s.phase = .busy w) : ∃ p, exec .pixEnc s = .next (completeOk s (.pixel p)) :=
  ⟨_, withCommand_busy hp _⟩

/-- A CMD write of a command while IDLE, then the block's turn, runs it from its acceptance. -/
theorem run_cmdWrite_turn {t : State} (hp : s.phase = .idle)
    (h : s.schedule = [.regWrite (s.platform.blockBase + 0x04) .word (encode i), .blockStep])
    (hx : exec i (startCommand { s with schedule := [] } (encode i)) = .next t) : core.run 2 s = .next t := by
  have haccept : step s = .next (startCommand { s with schedule := [.blockStep] } (encode i)) := by
    rw [← acceptCommand_idle (s := { s with schedule := [.blockStep] }) hp]
    exact step_regWrite h (by decide) (by decide)
  have hturn : step (startCommand { s with schedule := [.blockStep] } (encode i)) = .next t := by
    rw [step_of_scheduled (startCommand_schedule _ _)]
    exact (blockTurn_of_instr (s := startCommand { s with schedule := [] } (encode i)) rfl (decode_encode i)).trans hx
  exact (run_succ haccept).trans (run_succ hturn)

/-- Settles O48: the CMD write is accepted with the operands of reset, and the block's turn runs the command on them. -/
theorem resetOperandsFailEveryCommandButPixEnc : Obligations.ResetOperandsFailEveryCommandButPixEnc := by
  intro i p
  by_cases hi : i = .pixEnc
  · subst hi
    obtain ⟨x, hx⟩ := exec_pixEnc_completes
      (s := startCommand { State.reset with platform := p } (encode .pixEnc)) rfl
    exact ⟨_, run_cmdWrite_turn rfl rfl hx, fun _ => ⟨rfl, rfl⟩, fun hne => absurd rfl hne⟩
  · obtain ⟨e, hx, he⟩ := exec_of_reset_operands
      (s := startCommand { State.reset with platform := p } (encode i)) rfl hi
    refine ⟨_, run_cmdWrite_turn rfl rfl hx, fun h => absurd h hi, fun _ => ⟨rfl, ?_⟩⟩
    simpa using he

end Sys2Proof.Machine
end

section
/-! PROOFS. What changes the configuration registers and the results: a configuration write changes its register alone,
and no event but a completion and a reset changes the results (70_reset_and_hazards.md R233, R234). -/

namespace Sys2Proof.Machine

variable {s t : State} {e : Event} {r : Reg} {v : Word} {n : Nat}

/-! Configuration writes (R234) -/

/-- The offset of a register (10_state.md R23). -/
def Reg.offset : Reg → Nat
  | .id => 0x00
  | .cmd => 0x04
  | .status => 0x08
  | .ctrl => 0x0C
  | .width => 0x10
  | .height => 0x14
  | .bpp => 0x18
  | .dataOffset => 0x1C
  | .srcBase => 0x20
  | .srcLen => 0x24
  | .dstBase => 0x28
  | .dstLen => 0x2C
  | .rowIndex => 0x30
  | .pixIn => 0x34
  | .pixOut => 0x38
  | .result0Lo => 0x40
  | .result0Hi => 0x44
  | .result1Lo => 0x48
  | .result1Hi => 0x4C
  | .result2Lo => 0x50
  | .result2Hi => 0x54

theorem eq_offset_of_regAt (h : regAt n = some r) : n = r.offset := by
  unfold regAt at h
  split at h <;> cases h <;> rfl

/-- The configuration registers are those at offsets 0x10 to 0x34 (10_state.md R23). -/
def Reg.isConfiguration (r : Reg) : Prop := 0x10 ≤ r.offset ∧ r.offset ≤ 0x34

theorem readReg_writeReg_configuration (hr : r.isConfiguration) (q : Reg) :
    readReg (writeReg s v r) q = if q = r then v else readReg s q := by
  cases r with
  | id | cmd | status | ctrl => exact absurd hr.1 (by decide)
  | pixOut | result0Lo | result0Hi | result1Lo | result1Hi | result2Lo | result2Hi => exact absurd hr.2 (by decide)
  | _ => cases q <;> rfl

theorem regAt_configuration (h : n ∈ [0x10, 0x14, 0x18, 0x1C, 0x20, 0x24, 0x28, 0x2C, 0x30, 0x34]) :
    ∃ r, regAt n = some r ∧ r.isConfiguration := by
  fin_cases h <;> exact ⟨_, rfl, by decide, by decide⟩

/-- A write of a configuration register leaves what every other offset reads. -/
theorem readOffset_writeOffset_other {k : Nat} (h : n ∈ [0x10, 0x14, 0x18, 0x1C, 0x20, 0x24, 0x28, 0x2C, 0x30, 0x34])
    (hne : k ≠ n) : readOffset (writeOffset s n v) k = readOffset s k := by
  obtain ⟨r, hr, hcfg⟩ := regAt_configuration h
  rw [writeOffset_of_regAt hr]
  cases hq : regAt k with
  | none => rw [readOffset_of_reserved hq, readOffset_of_reserved hq]
  | some q =>
    have hqr : q ≠ r := fun e => hne (by rw [eq_offset_of_regAt hq, eq_offset_of_regAt hr, e])
    rw [readOffset_of_regAt hq, readOffset_of_regAt hq, readReg_writeReg_configuration hcfg, if_neg hqr]

/-- Settles O11: a configuration write changes its register, and no other offset reads that register. -/
theorem configurationWriteUpdatesOneRegister : Obligations.ConfigurationWriteUpdatesOneRegister := by
  intro s v rest offset ho h
  obtain ⟨hlt, h4⟩ := configuration_aligned offset ho
  obtain ⟨hread, hphase⟩ := writeOffset_configuration { s with schedule := rest } v ho
  obtain ⟨hmem, -, -, hsched⟩ := writeOffset_frame { s with schedule := rest } offset v
  refine ⟨_, step_regWrite h hlt h4, hread, fun k hk => ?_, hphase, hmem, hsched⟩
  rw [readOffset_writeOffset_other ho hk, readOffset_schedule]

/-! The results (R233) -/

/-- ERRCODE, PIX_OUT and RESULT0..2 stay as they were. -/
def ResultsKept (s t : State) : Prop :=
  t.errcode = s.errcode ∧ t.pixOut = s.pixOut ∧ t.result0 = s.result0 ∧ t.result1 = s.result1 ∧ t.result2 = s.result2

theorem ResultsKept.refl (s : State) : ResultsKept s s := ⟨rfl, rfl, rfl, rfl, rfl⟩

theorem resultsKept_acceptCommand (s : State) (c : Word) : ResultsKept s (acceptCommand s c) := by
  cases hp : s.phase with
  | idle =>
    rw [acceptCommand_idle hp]
    exact .refl s
  | busy w =>
    rw [acceptCommand_busy hp]
    exact .refl s

theorem resultsKept_writeOffset (s : State) (n : Nat) (v : Word) : ResultsKept s (writeOffset s n v) := by
  cases h : regAt n with
  | none =>
    rw [writeOffset_of_reserved h]
    exact .refl s
  | some r =>
    rw [writeOffset_of_regAt h]
    cases r with
    | cmd => exact resultsKept_acceptCommand s v
    | _ => exact .refl s

/-- An event but a reset ends the command in progress or keeps the results. -/
theorem EventEffect.completes_or_keeps_results (h : EventEffect s e t) (he : e ≠ .reset) :
    ((∃ w, s.phase = .busy w) ∧ t.phase = .idle) ∨ ResultsKept s t := by
  cases h with
  | completion w i hp hd hc => exact .inl ⟨⟨w, hp⟩, hc.completed.phase⟩
  | badCommand w hp => exact .inl ⟨⟨w, hp⟩, rfl⟩
  | regWrite addr size v offset => exact .inr (resultsKept_writeOffset s offset v)
  | reset | abandon => exact absurd rfl he
  | _ => exact .inr (.refl s)

/-- Settles O54, from what an event can do. -/
theorem resultsChangeOnlyAtCompletionOrReset : Obligations.ResultsChangeOnlyAtCompletionOrReset := by
  intro s t h hno
  rcases step_next h with ⟨-, he⟩ | ⟨e, rest, hsched, he⟩
  · exact he.completes_or_keeps_results nofun
  · exact he.completes_or_keeps_results fun hreset => hno rest (hreset ▸ hsched)

end Sys2Proof.Machine
end

section
/-! PROOFS. The windows of a frame command in progress: what faults at them while it runs, and its refusal where one
lies on memory that is not ordinary (70_reset_and_hazards.md R231, R232). -/

namespace Sys2Proof.Machine

variable {s : State} {src dst : Window} {agent : Agent} {a : Nat}

/-! Windows that are not on ordinary memory (R232) -/

theorem runFrame_refused {f : Frame} (h : f.onDevice s.platform = true) :
    runFrame s f = .refused .windowNotOrdinaryMemory := by
  rw [runFrame, if_pos h]

/-- Settles O35: a frame past its checks runs, and one byte of a window on a device refuses it. -/
theorem frameWindowOnADeviceIsRefused : Obligations.FrameWindowOnADeviceIsRefused := by
  intro s w f a hp hd ha
  have hrefused : runFrame s f = .refused .windowNotOrdinaryMemory := runFrame_refused (onDevice_true hd ha)
  exact ⟨fun h => (exec_decode_of_frame hp h).trans hrefused, fun h => (exec_encode_of_frame hp h).trans hrefused⟩

/-! The window exclusion (R231) -/

theorem mayRead_of_windows (h : runningWindows s = some (src, dst)) (a : Nat) : mayRead s a = !dst.has a := by
  simp only [mayRead, h]

theorem mayWrite_of_windows (h : runningWindows s = some (src, dst)) (a : Nat) :
    mayWrite s a = (!src.has a && !dst.has a) := by
  simp only [mayWrite, h]

theorem mayWrite_eq_false (h : runningWindows s = some (src, dst)) :
    mayWrite s a = false ↔ src.has a = true ∨ dst.has a = true := by
  simp only [mayWrite_of_windows h, Bool.and_eq_false_iff, Bool.not_eq_false']

theorem mayWrite_eq_true (h : runningWindows s = some (src, dst)) :
    mayWrite s a = true ↔ src.has a = false ∧ dst.has a = false := by
  simp only [mayWrite_of_windows h, Bool.and_eq_true, Bool.not_eq_true']

theorem agentWrite_of_stop {bytes : List Byte} {r : StepResult}
    (h : accessesStop s (mayWrite s) (List.range' a bytes.length) = some r) : agentWrite s agent a bytes = r := by
  simp only [agentWrite, h]

theorem agentRead_of_excluded (ha : a < Config.addressSpace) (h : mayRead s a = false) :
    agentRead s agent a = .fault (.windowExclusion a) := by
  simp only [agentRead, accessStop, if_neg (Nat.not_le.mpr ha), h]
  rfl

/-- A read that nothing stops goes on, and changes neither memory nor the phase. -/
theorem agentRead_next (h : accessStop s (mayRead s) a = none) :
    ∃ t, agentRead s agent a = .next t ∧ t.mem = s.mem ∧ t.phase = s.phase := by
  simp only [agentRead, h]
  split
  · refine ⟨_, rfl, ?_⟩
    unfold cachedRead
    split <;> exact ⟨rfl, rfl⟩
  · exact ⟨_, rfl, rfl, rfl⟩

theorem hostClean_of_stop {cw : Window} {r : StepResult} (hc : s.platform.dmaCoherent = false)
    (h : accessesStop s (mayWrite s) ((dirtyCells s.hostCache cw).map (·.1)) = some r) : hostClean s cw = r := by
  simp only [hostClean, hc, h, Bool.false_eq_true, if_false]

/-- The addresses a clean writes are those of the dirty cached bytes of its window. -/
theorem mem_dirtyAddrs {h : HostCache} {cw : Window} (hs : HostCache.wf h) :
    a ∈ (dirtyCells h cw).map (·.1) ↔ (∃ c, cacheFind h a = some c ∧ c.dirty = true) ∧ cw.has a = true := by
  constructor
  · intro ha
    obtain ⟨⟨a, b⟩, hcell, rfl⟩ := List.mem_map.mp ha
    obtain ⟨hfind, hin⟩ := (mem_dirtyCells hs).mp hcell
    exact ⟨⟨_, hfind, rfl⟩, hin⟩
  · rintro ⟨⟨⟨b, d⟩, hfind, rfl⟩, hin⟩
    exact List.mem_map.mpr ⟨(a, b), (mem_dirtyCells hs).mpr ⟨hfind, hin⟩, rfl⟩

/-- A clean of which a byte lies in a window of the command in progress faults at such a byte, none being on a device. -/
theorem hostClean_excluded {cw : Window} {c : CachedByte} (hw : runningWindows s = some (src, dst))
    (hc : s.platform.dmaCoherent = false) (hs : HostCache.wf s.hostCache) (hfind : cacheFind s.hostCache a = some c)
    (hdirty : c.dirty = true) (hin : cw.has a = true) (ha : src.has a = true ∨ dst.has a = true)
    (hd : ∀ b c', cacheFind s.hostCache b = some c' → c'.dirty = true → cw.has b = true →
      s.platform.isDevice b = false) :
    ∃ b, hostClean s cw = .fault (.windowExclusion b) ∧ (src.has b = true ∨ dst.has b = true) := by
  have hmem : a ∈ (dirtyCells s.hostCache cw).map (·.1) := (mem_dirtyAddrs hs).mpr ⟨⟨c, hfind, hdirty⟩, hin⟩
  obtain ⟨b, hstop, hb⟩ := accessesStop_excluded (s := s) hmem ((mayWrite_eq_false hw).mpr ha) fun b hb => by
    obtain ⟨⟨c', hfind', hdirty'⟩, hin'⟩ := (mem_dirtyAddrs hs).mp hb
    exact ⟨hs.2 _ (mem_of_cacheFind hfind'), hd b c' hfind' hdirty' hin'⟩
  exact ⟨b, hostClean_of_stop hc hstop, (mayWrite_eq_false hw).mp hb⟩

/-- Settles O49, event by event: each is stopped at the windows of the command's geometry. -/
theorem windowExclusionFaults : Obligations.WindowExclusionFaults := by
  intro s w src dst agent a rest hp hrun ha
  have hw : runningWindows { s with schedule := rest } = some (src, dst) := runningWindows_of hp hrun
  refine ⟨fun bytes k h hk hspace hin hbefore => ?write, fun h hin => ?readDst, fun h hout hd => ?readElsewhere,
    fun cw c h hc hs hfind hdirty hcw hin hd => ?clean⟩
  case write =>
    rw [step_of_scheduled h]
    exact agentWrite_of_stop (accessesStop_first hk hspace ((mayWrite_eq_false hw).mpr hin) fun j hj =>
      have ⟨hsrc, hdst, hdev⟩ := hbefore j hj
      ⟨(mayWrite_eq_true hw).mpr ⟨hsrc, hdst⟩, hdev⟩)
  case readDst =>
    rw [step_of_scheduled h]
    exact agentRead_of_excluded ha (by rw [mayRead_of_windows hw, hin]; rfl)
  case readElsewhere =>
    rw [step_of_scheduled h]
    exact agentRead_next (accessStop_eq_none ha (by rw [mayRead_of_windows hw, hout]; rfl) hd)
  case clean =>
    rw [step_of_scheduled h]
    exact hostClean_excluded hw hc hs hfind hdirty hcw hin hd

end Sys2Proof.Machine
end

section
/-! PROOFS. Every command completes: with no device region the block's turn always goes on, and polls of STATUS before
it change nothing that it depends on (70_reset_and_hazards.md R237). -/

namespace Sys2Proof.Machine

variable {s : State} {w : WorkingCopy} {rest : List Event}

/-! The block's turn goes on -/

theorem finish_goes_on (s : State) (r : Except CmdError CmdResult) : ∃ t, finish s r = .next t := by
  cases r <;> exact ⟨_, rfl⟩

/-- Where no region is a device, a frame's windows are ordinary memory. -/
theorem runFrame_goes_on (hd : s.platform.devices = []) (f : Frame) : ∃ t, runFrame s f = .next t := by
  have hdev : f.onDevice s.platform = false := by rw [Frame.onDevice, hd]; rfl
  cases hb : f.busFails s.platform s.freeCount with
  | false => exact ⟨_, runFrame_success hdev hb⟩
  | true => exact ⟨_, by rw [runFrame, hdev, hb]; rfl⟩

theorem finishFrame_goes_on (hd : s.platform.devices = []) (r : Except CmdError Frame) :
    ∃ t, finishFrame s r = .next t := by
  cases r with
  | ok f => exact runFrame_goes_on hd f
  | error => exact ⟨_, rfl⟩

theorem exec_goes_on (hp : s.phase = .busy w) (hd : s.platform.devices = []) (i : Instr) : ∃ t, exec i s = .next t := by
  cases i with
  | decode =>
    obtain ⟨t, ht⟩ := finishFrame_goes_on hd (decodeFrame w.ops s.mem)
    exact ⟨t, (withCommand_busy hp _).trans ht⟩
  | encode =>
    obtain ⟨t, ht⟩ := finishFrame_goes_on hd (encodeFrame w.ops s.mem)
    exact ⟨t, (withCommand_busy hp _).trans ht⟩
  | _ =>
    obtain ⟨t, ht⟩ := finish_goes_on s _
    exact ⟨t, (withCommand_busy hp _).trans ht⟩

/-- The block's turn completes the command in progress, legal word or not. -/
theorem blockTurn_completes (hp : s.phase = .busy w) (hd : s.platform.devices = []) :
    ∃ t, blockTurn s = .next t ∧ Completed s t := by
  have hnext : ∃ t, blockTurn s = .next t := by
    cases hdec : decode w.cmd with
    | instr i => exact blockTurn_of_instr hp hdec ▸ exec_goes_on hp hd i
    | illegal => exact ⟨completeError s .badCommand, by simp only [blockTurn, hp, hdec]⟩
  obtain ⟨t, ht⟩ := hnext
  exact ⟨t, ht, (eventEffect_of_blockTurn ht).completed hp⟩

theorem step_blockStep (h : s.schedule = .blockStep :: rest) : step s = blockTurn { s with schedule := rest } :=
  step_of_scheduled h

/-! Polls of STATUS (30_encoding.md R97 `wait`) -/

/-- A host read of STATUS. -/
def poll (p : Platform) : Event := .regRead (p.blockBase + 0x08) .word

theorem step_poll (h : s.schedule = poll s.platform :: rest) :
    step s = .next { s with schedule := rest, lastRead := some (statusWord s) } :=
  step_regRead h (by decide) (by decide)

/-- Polls before the rest of the schedule change nothing but what the last of them returned. -/
theorem run_polls (n k : Nat) (h : s.schedule = List.replicate n (poll s.platform) ++ rest) :
    ∃ v, core.run (n + k) s = core.run k { s with schedule := rest, lastRead := v } := by
  induction n generalizing s with
  | zero =>
    obtain rfl : s.schedule = rest := h
    exact ⟨s.lastRead, by rw [Nat.zero_add]⟩
  | succ n ih =>
    obtain ⟨v, hv⟩ := ih
      (s := { s with schedule := List.replicate n (poll s.platform) ++ rest, lastRead := some (statusWord s) }) rfl
    exact ⟨v, by rw [Nat.succ_add]; exact (run_succ (step_poll h)).trans hv⟩

/-- A completion sets DONE or ERR. -/
theorem Completed.done_or_err {t : State} (h : Completed s t) : t.done = true ∨ t.err = true := by
  rcases h.status with ⟨-, hdone, -⟩ | ⟨_, -, herr, -⟩
  · exact .inl hdone
  · exact .inr herr

theorem statusWord_of_completed {t : State} (h : Completed s t) :
    (statusWord t).getLsbD 0 = false ∧ ((statusWord t).getLsbD 1 = true ∨ (statusWord t).getLsbD 2 = true) := by
  obtain ⟨hbusy, hdone, herr, -, -⟩ := statusWord_fields t
  rw [hbusy, hdone, herr, busyFlag, h.phase]
  exact ⟨rfl, h.done_or_err⟩

/-- Settles O47: the polls leave the command in progress, the block's turn completes it, and the next poll reads so. -/
theorem everyCommandCompletesAfterPolling : Obligations.EveryCommandCompletesAfterPolling := by
  intro n s w hp hd
  refine ⟨fun h => ?unscheduled, fun h => ?scheduled⟩
  case unscheduled =>
    obtain ⟨v, hrun⟩ := run_polls (rest := []) n 1 (by rw [List.append_nil]; exact h)
    obtain ⟨t, hturn, hc⟩ := blockTurn_completes (s := { s with schedule := [], lastRead := v }) hp hd
    have hblock : step { s with schedule := [], lastRead := v } = .next t := (step_of_unscheduled rfl).trans hturn
    exact ⟨t, hrun.trans (run_succ hblock), hc.phase, hc.done_or_err, hc.schedule⟩
  case scheduled =>
    obtain ⟨v, hrun⟩ := run_polls (rest := [.blockStep, poll s.platform]) n 2 h
    obtain ⟨t, hturn, hc⟩ :=
      blockTurn_completes (s := { s with schedule := [poll s.platform], lastRead := v }) hp hd
    have hblock : step { s with schedule := [.blockStep, poll s.platform], lastRead := v } = .next t :=
      (step_blockStep rfl).trans hturn
    have hpoll : step t = .next { t with schedule := [], lastRead := some (statusWord t) } :=
      step_poll (by rw [hc.schedule, hc.platform])
    obtain ⟨hidle, hended⟩ := statusWord_of_completed hc
    exact ⟨_, statusWord t, hrun.trans ((run_succ hblock).trans (run_succ hpoll)), hc.phase, rfl, hidle, hended, rfl⟩

end Sys2Proof.Machine
end
